-- ==== Sys2Proof/Word.lean ====
section
/-! DEFINITION. The word types of the core (spec/10_state.md section 1, spec/30_encoding.md R61). -/

namespace Sys2Proof

/-- An 8-bit register value or memory byte (R10, R27). -/
abbrev Byte := BitVec 8

/-- A 16-bit value: an instruction word, `PC`, `I`, `SP` (R12, R16, R17, R60). -/
abbrev Word := BitVec 16

/-- The number of a general or RPL register, or a key code: 0..15 (R10, R24, R170). -/
abbrev Reg := Fin 16

/-- `VF`, general register 15, the flag register (R11). -/
abbrev vf : Reg := 15

end Sys2Proof
end

