-- ==== Sys2Proof/Syntax.lean ====
section
/-! DEFINITION. The instruction set: one constructor for each of the 46 rows of the opcode map
(spec/30_encoding.md R66), with the operands of the row's format (R61, R62).  Bits a format ignores
(bits 11:8 in family 0, bits 3:0 in families 5 and 9) are no operand and are not kept. -/

namespace Sys2Proof

/-- The 46 instructions (R2, R66).  `x`, `y` are register numbers, `nn` the 8-bit and `nnn` the
12-bit immediate, `n` a count of rows (a 4-bit field: `Instr.wellFormed` says `n < 16`). -/
inductive Instr where
  /-- `00Cn` SCD n: scroll the selected planes down `n` rows (R151). -/
  | scd (n : Nat)
  /-- `00Dn` SCU n: scroll the selected planes up `n` rows (R152). -/
  | scu (n : Nat)
  /-- `00E0` CLS: clear the selected planes (R150). -/
  | cls
  /-- `00EE` RET: return from subroutine (R85). -/
  | ret
  /-- `00FB` SCR: scroll the selected planes right 4 columns (R153). -/
  | scr
  /-- `00FC` SCL: scroll the selected planes left 4 columns (R154). -/
  | scl
  /-- `00FD` EXIT: stop the interpreter (R86). -/
  | exit
  /-- `00FE` LOW: switch to NORMAL mode and clear (R155). -/
  | low
  /-- `00FF` HIGH: switch to EXTENDED mode and clear (R156). -/
  | high
  /-- `1nnn` JP nnn (R82). -/
  | jp (nnn : BitVec 12)
  /-- `2nnn` CALL nnn (R84). -/
  | call (nnn : BitVec 12)
  /-- `3xnn` SE Vx, nn: skip if equal (R87). -/
  | seImm (x : Reg) (nn : Byte)
  /-- `4xnn` SNE Vx, nn: skip if not equal (R88). -/
  | sneImm (x : Reg) (nn : Byte)
  /-- `5xy_` SE Vx, Vy: skip if equal (R89). -/
  | seReg (x y : Reg)
  /-- `6xnn` LD Vx, nn (R100). -/
  | ldImm (x : Reg) (nn : Byte)
  /-- `7xnn` ADD Vx, nn (R101). -/
  | addImm (x : Reg) (nn : Byte)
  /-- `8xy0` LD Vx, Vy (R102). -/
  | ldReg (x y : Reg)
  /-- `8xy1` OR Vx, Vy (R103). -/
  | orReg (x y : Reg)
  /-- `8xy2` AND Vx, Vy (R104). -/
  | andReg (x y : Reg)
  /-- `8xy3` XOR Vx, Vy (R105). -/
  | xorReg (x y : Reg)
  /-- `8xy4` ADD Vx, Vy (R106). -/
  | addReg (x y : Reg)
  /-- `8xy5` SUB Vx, Vy (R107). -/
  | subReg (x y : Reg)
  /-- `8xy6` SHR Vx, Vy (R109). -/
  | shrReg (x y : Reg)
  /-- `8xy7` SUBN Vx, Vy (R110). -/
  | subnReg (x y : Reg)
  /-- `8xyE` SHL Vx, Vy (R111). -/
  | shlReg (x y : Reg)
  /-- `9xy_` SNE Vx, Vy: skip if not equal (R91). -/
  | sneReg (x y : Reg)
  /-- `Annn` LD I, nnn (R120). -/
  | ldI (nnn : BitVec 12)
  /-- `Bnnn` JP V0, nnn: jump with offset (R90). -/
  | jpV0 (nnn : BitVec 12)
  /-- `Cxnn` RND Vx, nn (R112). -/
  | rnd (x : Reg) (nn : Byte)
  /-- `Dxyn` DRW Vx, Vy, n (R160). -/
  | drw (x y : Reg) (n : Nat)
  /-- `Ex9E` SKP Vx: skip if the key is down (R171). -/
  | skp (x : Reg)
  /-- `ExA1` SKNP Vx: skip if the key is not down (R172). -/
  | sknp (x : Reg)
  /-- `Fn01` PLANE n: select planes; the field is 4 bits wide (R157). -/
  | plane (n : BitVec 4)
  /-- `Fx07` LD Vx, DT (R175). -/
  | ldVxDt (x : Reg)
  /-- `Fx0A` LD Vx, K: wait for a key (R173). -/
  | ldVxK (x : Reg)
  /-- `Fx15` LD DT, Vx (R176). -/
  | ldDtVx (x : Reg)
  /-- `Fx18` LD ST, Vx (R177). -/
  | ldStVx (x : Reg)
  /-- `Fx1E` ADD I, Vx (R121). -/
  | addI (x : Reg)
  /-- `Fx29` LD F, Vx: address of a small glyph (R122). -/
  | ldF (x : Reg)
  /-- `Fx30` LD HF, Vx: address of a large glyph (R123). -/
  | ldHf (x : Reg)
  /-- `Fx33` LD B, Vx: store three decimal digits (R124). -/
  | ldB (x : Reg)
  /-- `Fx3A` PITCH Vx (R178). -/
  | pitch (x : Reg)
  /-- `Fx55` LD [I], Vx: store `V[0..x]` (R125). -/
  | storeRegs (x : Reg)
  /-- `Fx65` LD Vx, [I]: load `V[0..x]` (R126). -/
  | loadRegs (x : Reg)
  /-- `Fx75` LD R, Vx: copy `V[0..x]` into the RPL bank (R127). -/
  | storeRpl (x : Reg)
  /-- `Fx85` LD Vx, R: copy the RPL bank into `V[0..x]` (R128). -/
  | loadRpl (x : Reg)
  deriving DecidableEq, Repr

end Sys2Proof
end

