-- ==== Sys2Proof/WellFormed.lean ====
section
/-! DEFINITION. Which terms of `Instr` are instructions of the core: a row count must fit the 4-bit
field `n = op[3:0]` (spec/30_encoding.md R61, R70).  The other operands are exactly as wide as
their fields by type. -/

namespace Sys2Proof

/-- An instruction that has an encoding: its row count fits the field `n` (R61, R70). -/
def Instr.wellFormed : Instr → Bool
  | .scd n => decide (n < 16)
  | .scu n => decide (n < 16)
  | .drw _ _ n => decide (n < 16)
  | _ => true

end Sys2Proof
end

