-- ==== Sys2Proof/Decode.lean ====
section
/-! DEFINITION. The decoder, total on every byte list and rejecting by name, and after it the encoder
(spec/30_encoding.md R60 to R70).  Decoding is the two-level dispatch of R63 to R67. -/

namespace Sys2Proof

/-! ## Fields of the instruction word (R61) -/

/-- The family, `op[15:12]`. -/
def familyOf (op : Word) : Nat := (op.extractLsb' 12 4).toNat

/-- `x = op[11:8]`, as a register number. -/
def fieldX (op : Word) : Reg := (op.extractLsb' 8 4).toFin

/-- `y = op[7:4]`, as a register number. -/
def fieldY (op : Word) : Reg := (op.extractLsb' 4 4).toFin

/-- `n = op[3:0]`, as a count. -/
def fieldN (op : Word) : Nat := (op.extractLsb' 0 4).toNat

/-- `nn = op[7:0]`. -/
def fieldNN (op : Word) : Byte := op.extractLsb' 0 8

/-- `nnn = op[11:0]`. -/
def fieldNNN (op : Word) : BitVec 12 := op.extractLsb' 0 12

/-- The plane mask of `Fn01`, `op[11:8]` (R62 format N1). -/
def fieldMask (op : Word) : BitVec 4 := op.extractLsb' 8 4

/-! ## Dispatch (R63 to R67) -/

/-- Second level of family 0 (R64): the low byte, then its high nibble.  Bits 11:8 take no part. -/
def decodeFamily0 (op : Word) : Option Instr :=
  match (fieldNN op).toNat with
  | 0xE0 => some .cls
  | 0xEE => some .ret
  | 0xFB => some .scr
  | 0xFC => some .scl
  | 0xFD => some .exit
  | 0xFE => some .low
  | 0xFF => some .high
  | _ =>
    match (fieldY op).val with
    | 0xC => some (.scd (fieldN op))
    | 0xD => some (.scu (fieldN op))
    | _ => none

/-- Second level of family 8 (R65): the low nibble. -/
def decodeFamily8 (op : Word) : Option Instr :=
  match fieldN op with
  | 0x0 => some (.ldReg (fieldX op) (fieldY op))
  | 0x1 => some (.orReg (fieldX op) (fieldY op))
  | 0x2 => some (.andReg (fieldX op) (fieldY op))
  | 0x3 => some (.xorReg (fieldX op) (fieldY op))
  | 0x4 => some (.addReg (fieldX op) (fieldY op))
  | 0x5 => some (.subReg (fieldX op) (fieldY op))
  | 0x6 => some (.shrReg (fieldX op) (fieldY op))
  | 0x7 => some (.subnReg (fieldX op) (fieldY op))
  | 0xE => some (.shlReg (fieldX op) (fieldY op))
  | _ => none

/-- Second level of family E (R65): the low byte. -/
def decodeFamilyE (op : Word) : Option Instr :=
  match (fieldNN op).toNat with
  | 0x9E => some (.skp (fieldX op))
  | 0xA1 => some (.sknp (fieldX op))
  | _ => none

/-- Second level of family F (R65): the low byte. -/
def decodeFamilyF (op : Word) : Option Instr :=
  match (fieldNN op).toNat with
  | 0x01 => some (.plane (fieldMask op))
  | 0x07 => some (.ldVxDt (fieldX op))
  | 0x0A => some (.ldVxK (fieldX op))
  | 0x15 => some (.ldDtVx (fieldX op))
  | 0x18 => some (.ldStVx (fieldX op))
  | 0x1E => some (.addI (fieldX op))
  | 0x29 => some (.ldF (fieldX op))
  | 0x30 => some (.ldHf (fieldX op))
  | 0x33 => some (.ldB (fieldX op))
  | 0x3A => some (.pitch (fieldX op))
  | 0x55 => some (.storeRegs (fieldX op))
  | 0x65 => some (.loadRegs (fieldX op))
  | 0x75 => some (.storeRpl (fieldX op))
  | 0x85 => some (.loadRpl (fieldX op))
  | _ => none

/-- The instruction of a word, or `none` for an unsupported word (R63, R66, R68).  Families 5 and 9
ignore the low nibble (R67). -/
def decodeWord (op : Word) : Option Instr :=
  match familyOf op with
  | 0x0 => decodeFamily0 op
  | 0x1 => some (.jp (fieldNNN op))
  | 0x2 => some (.call (fieldNNN op))
  | 0x3 => some (.seImm (fieldX op) (fieldNN op))
  | 0x4 => some (.sneImm (fieldX op) (fieldNN op))
  | 0x5 => some (.seReg (fieldX op) (fieldY op))
  | 0x6 => some (.ldImm (fieldX op) (fieldNN op))
  | 0x7 => some (.addImm (fieldX op) (fieldNN op))
  | 0x8 => decodeFamily8 op
  | 0x9 => some (.sneReg (fieldX op) (fieldY op))
  | 0xA => some (.ldI (fieldNNN op))
  | 0xB => some (.jpV0 (fieldNNN op))
  | 0xC => some (.rnd (fieldX op) (fieldNN op))
  | 0xD => some (.drw (fieldX op) (fieldY op) (fieldN op))
  | 0xE => decodeFamilyE op
  | 0xF => decodeFamilyF op
  | _ => none

/-- Two bytes to a word, the byte at the lower address first: big-endian (R45, R60). -/
def wordOfBytes (hi lo : Byte) : Word := hi ++ lo

/-- Why a byte list does not begin with an instruction. -/
inductive DecodeError where
  /-- Fewer than the 2 bytes every instruction has (R60). -/
  | truncated
  /-- The word matches no row of the opcode map (R68); the core runs it as a no-op. -/
  | unsupported (op : Word)
  deriving DecidableEq, Repr

/-- Decode the first instruction of a byte list and answer the rest of the list (R60: every
instruction is 2 bytes). -/
def decode : List Byte → Except DecodeError (Instr × List Byte)
  | hi :: lo :: rest =>
    match decodeWord (wordOfBytes hi lo) with
    | some i => .ok (i, rest)
    | none => .error (.unsupported (wordOfBytes hi lo))
  | _ => .error .truncated

/-- What the decoder reads from the instruction whose bits are `w`, numbered as the opcode table
numbers them: the word's bits above `nbits` are 0, and its two bytes lie high byte first (R45). -/
def decodeTableWord (nbits w : Nat) : Option Instr :=
  let op : Word := BitVec.ofNat 16 (w % 2 ^ nbits)
  match decode [op.extractLsb' 8 8, op.extractLsb' 0 8] with
  | .ok (i, _) => some i
  | .error _ => none

/-! ## The encoder (R62, R66; ignored bits are written 0, R71) -/

/-- A word of four nibbles, most significant first. -/
def packNibbles (a b c d : BitVec 4) : Word := a ++ b ++ c ++ d

/-- Formats XY and XYN, and format X seen as nibbles. -/
def packXY (fam : BitVec 4) (x y : Reg) (low : BitVec 4) : Word :=
  packNibbles fam (BitVec.ofFin x) (BitVec.ofFin y) low

/-- Formats XI and X: family, register, low byte. -/
def packXI (fam : BitVec 4) (x : Reg) (nn : Byte) : Word :=
  fam ++ (BitVec.ofFin x : BitVec 4) ++ nn

/-- Format A: family and 12-bit immediate. -/
def packA (fam : BitVec 4) (nnn : BitVec 12) : Word := fam ++ nnn

/-- The word of an instruction (R66). -/
def encode : Instr → Word
  | .scd n => packNibbles 0x0 0x0 0xC (BitVec.ofNat 4 n)
  | .scu n => packNibbles 0x0 0x0 0xD (BitVec.ofNat 4 n)
  | .cls => 0x00E0
  | .ret => 0x00EE
  | .scr => 0x00FB
  | .scl => 0x00FC
  | .exit => 0x00FD
  | .low => 0x00FE
  | .high => 0x00FF
  | .jp nnn => packA 0x1 nnn
  | .call nnn => packA 0x2 nnn
  | .seImm x nn => packXI 0x3 x nn
  | .sneImm x nn => packXI 0x4 x nn
  | .seReg x y => packXY 0x5 x y 0x0
  | .ldImm x nn => packXI 0x6 x nn
  | .addImm x nn => packXI 0x7 x nn
  | .ldReg x y => packXY 0x8 x y 0x0
  | .orReg x y => packXY 0x8 x y 0x1
  | .andReg x y => packXY 0x8 x y 0x2
  | .xorReg x y => packXY 0x8 x y 0x3
  | .addReg x y => packXY 0x8 x y 0x4
  | .subReg x y => packXY 0x8 x y 0x5
  | .shrReg x y => packXY 0x8 x y 0x6
  | .subnReg x y => packXY 0x8 x y 0x7
  | .shlReg x y => packXY 0x8 x y 0xE
  | .sneReg x y => packXY 0x9 x y 0x0
  | .ldI nnn => packA 0xA nnn
  | .jpV0 nnn => packA 0xB nnn
  | .rnd x nn => packXI 0xC x nn
  | .drw x y n => packXY 0xD x y (BitVec.ofNat 4 n)
  | .skp x => packXI 0xE x 0x9E
  | .sknp x => packXI 0xE x 0xA1
  | .plane n => packNibbles 0xF n 0x0 0x1
  | .ldVxDt x => packXI 0xF x 0x07
  | .ldVxK x => packXI 0xF x 0x0A
  | .ldDtVx x => packXI 0xF x 0x15
  | .ldStVx x => packXI 0xF x 0x18
  | .addI x => packXI 0xF x 0x1E
  | .ldF x => packXI 0xF x 0x29
  | .ldHf x => packXI 0xF x 0x30
  | .ldB x => packXI 0xF x 0x33
  | .pitch x => packXI 0xF x 0x3A
  | .storeRegs x => packXI 0xF x 0x55
  | .loadRegs x => packXI 0xF x 0x65
  | .storeRpl x => packXI 0xF x 0x75
  | .loadRpl x => packXI 0xF x 0x85

/-- The bytes of an instruction as they lie in memory, the high byte at the lower address (R45). -/
def encodeBytes (i : Instr) : List Byte :=
  [(encode i).extractLsb' 8 8, (encode i).extractLsb' 0 8]

/-! ## The opcode map as a table (R66) -/

/-- The `mask` and `match` of the row of R66 that a constructor stands for: a word `op` is the
instruction of the row when `op & mask = match`. -/
def Instr.tableRow : Instr → Word × Word
  | .scd _ => (0xF0F0, 0x00C0)
  | .scu _ => (0xF0F0, 0x00D0)
  | .cls => (0xF0FF, 0x00E0)
  | .ret => (0xF0FF, 0x00EE)
  | .scr => (0xF0FF, 0x00FB)
  | .scl => (0xF0FF, 0x00FC)
  | .exit => (0xF0FF, 0x00FD)
  | .low => (0xF0FF, 0x00FE)
  | .high => (0xF0FF, 0x00FF)
  | .jp _ => (0xF000, 0x1000)
  | .call _ => (0xF000, 0x2000)
  | .seImm _ _ => (0xF000, 0x3000)
  | .sneImm _ _ => (0xF000, 0x4000)
  | .seReg _ _ => (0xF000, 0x5000)
  | .ldImm _ _ => (0xF000, 0x6000)
  | .addImm _ _ => (0xF000, 0x7000)
  | .ldReg _ _ => (0xF00F, 0x8000)
  | .orReg _ _ => (0xF00F, 0x8001)
  | .andReg _ _ => (0xF00F, 0x8002)
  | .xorReg _ _ => (0xF00F, 0x8003)
  | .addReg _ _ => (0xF00F, 0x8004)
  | .subReg _ _ => (0xF00F, 0x8005)
  | .shrReg _ _ => (0xF00F, 0x8006)
  | .subnReg _ _ => (0xF00F, 0x8007)
  | .shlReg _ _ => (0xF00F, 0x800E)
  | .sneReg _ _ => (0xF000, 0x9000)
  | .ldI _ => (0xF000, 0xA000)
  | .jpV0 _ => (0xF000, 0xB000)
  | .rnd _ _ => (0xF000, 0xC000)
  | .drw _ _ _ => (0xF000, 0xD000)
  | .skp _ => (0xF0FF, 0xE09E)
  | .sknp _ => (0xF0FF, 0xE0A1)
  | .plane _ => (0xF0FF, 0xF001)
  | .ldVxDt _ => (0xF0FF, 0xF007)
  | .ldVxK _ => (0xF0FF, 0xF00A)
  | .ldDtVx _ => (0xF0FF, 0xF015)
  | .ldStVx _ => (0xF0FF, 0xF018)
  | .addI _ => (0xF0FF, 0xF01E)
  | .ldF _ => (0xF0FF, 0xF029)
  | .ldHf _ => (0xF0FF, 0xF030)
  | .ldB _ => (0xF0FF, 0xF033)
  | .pitch _ => (0xF0FF, 0xF03A)
  | .storeRegs _ => (0xF0FF, 0xF055)
  | .loadRegs _ => (0xF0FF, 0xF065)
  | .storeRpl _ => (0xF0FF, 0xF075)
  | .loadRpl _ => (0xF0FF, 0xF085)

/-- The (mask, match) pairs of the 46 rows of R66, in the order of the rule's table. -/
def opcodeMap : List (Word × Word) :=
  [(0xF0F0, 0x00C0), (0xF0F0, 0x00D0), (0xF0FF, 0x00E0), (0xF0FF, 0x00EE), (0xF0FF, 0x00FB),
   (0xF0FF, 0x00FC), (0xF0FF, 0x00FD), (0xF0FF, 0x00FE), (0xF0FF, 0x00FF)]
  ++ [(0xF000, 0x1000), (0xF000, 0x2000), (0xF000, 0x3000), (0xF000, 0x4000), (0xF000, 0x5000),
   (0xF000, 0x6000), (0xF000, 0x7000)]
  ++ [(0xF00F, 0x8000), (0xF00F, 0x8001), (0xF00F, 0x8002), (0xF00F, 0x8003), (0xF00F, 0x8004),
   (0xF00F, 0x8005), (0xF00F, 0x8006), (0xF00F, 0x8007), (0xF00F, 0x800E)]
  ++ [(0xF000, 0x9000), (0xF000, 0xA000), (0xF000, 0xB000), (0xF000, 0xC000), (0xF000, 0xD000),
   (0xF0FF, 0xE09E), (0xF0FF, 0xE0A1)]
  ++ [(0xF0FF, 0xF001), (0xF0FF, 0xF007), (0xF0FF, 0xF00A), (0xF0FF, 0xF015), (0xF0FF, 0xF018),
   (0xF0FF, 0xF01E), (0xF0FF, 0xF029), (0xF0FF, 0xF030), (0xF0FF, 0xF033), (0xF0FF, 0xF03A),
   (0xF0FF, 0xF055), (0xF0FF, 0xF065), (0xF0FF, 0xF075), (0xF0FF, 0xF085)]

end Sys2Proof
end

