-- ==== Sys2Proof/Config.lean ====
section
/-! DEFINITION. The configuration parameters of the core (spec/00_scope.md R5, R6), the configuration
that `State.reset` carries, and the free values: constants without a body for what the spec leaves
open. -/

namespace Sys2Proof

/-- `MEM_SIZE`: "4K or 64K capacity" (R5, R40). -/
inductive MemSize where
  | kb4
  | kb64
  deriving DecidableEq, Repr

/-- The number of bytes of memory (R40). -/
def MemSize.bytes : MemSize → Nat
  | .kb4 => 4096
  | .kb64 => 65536

/-- The five quirk flags, each independent of the others (R5). -/
structure Quirks where
  /-- `shiftQuirks`: source register of `8xy6`, `8xyE` (R109, R111). -/
  shift : Bool
  /-- `logicQuirks`: whether `8xy1`, `8xy2`, `8xy3` zero `VF` (R103 to R105). -/
  logic : Bool
  /-- `jumpQuirks`: offset register of `Bnnn` (R90). -/
  jump : Bool
  /-- `indexQuirks`: whether `Fx55`, `Fx65` leave `I` alone (R125, R126). -/
  index : Bool
  /-- `clipQuirks`: clip instead of wrap in `Dxyn` (R160). -/
  clip : Bool
  deriving DecidableEq, Repr

/-- The parameters fixed before execution starts (R5). -/
structure Config where
  memSize : MemSize
  quirks : Quirks
  /-- `BIG_FONT_BASE`, a natural below `MEM_SIZE` (`Config.wf`), used by `Fx30` (R123). -/
  bigFontBase : Nat
  deriving DecidableEq, Repr

/-- The bound R5 puts on `BIG_FONT_BASE`. -/
abbrev Config.wf (c : Config) : Prop := c.bigFontBase < c.memSize.bytes

/-- Why a core is not constructed (R6): a configuration outside the table of R5. -/
inductive ConfigurationError where
  | badMemSize (size : Nat)
  | badFontBase (base : Nat)
  deriving DecidableEq, Repr

/-- Construction of a core's configuration: "rejected before execution starts" when it is outside the
table of R5 (R6). -/
def Config.build (memSize : Nat) (quirks : Quirks) (bigFontBase : Nat) :
    Except ConfigurationError Config :=
  if memSize = 4096 ∨ memSize = 65536 then
    if bigFontBase < memSize then
      .ok { memSize := if memSize = 4096 then .kb4 else .kb64, quirks, bigFontBase }
    else .error (.badFontBase bigFontBase)
  else .error (.badMemSize memSize)

/-- FREE VALUE (DESIGN CHOICE, log entry 2): the `BIG_FONT_BASE` of `State.reset`'s configuration.  The
spec leaves it open (D20) and asks a model not to build a value in. -/
opaque Config.freeFontBase : BitVec 12

/-- FREE VALUE (log entry 9): the byte that the `n`th use of `draw_byte()` answers, "any value 0..255"
under no law (R112, U2). -/
opaque Config.drawByte : Nat → Byte

/-- FREE VALUE (log entry 10): which of several down keys `currentKey()` answers at the `n`th free
choice (R170, R174, U5); the choice is reduced modulo the number of down keys. -/
opaque Config.keyPick : Nat → Nat

/-- FREE VALUE (log entry 17): the playback rate in Hz of a pitch other than 64 (R182, U16). -/
opaque Config.otherRate : Byte → ℝ

/-- The five quirks off: the start configuration of the vectors of spec/95_test_vectors.md. -/
def Quirks.allOff : Quirks :=
  { shift := false, logic := false, jump := false, index := false, clip := false }

/-- DESIGN CHOICE (log entries 1, 2): the configuration of `State.reset`.  Statements hold for every
configuration; this one only makes the reset state one state. -/
def Config.boot : Config :=
  { memSize := .kb4, quirks := Quirks.allOff, bigFontBase := Config.freeFontBase.toNat }

end Sys2Proof
end

