-- ==== Sys2Proof/Machine/State.lean ====
section
/-! DEFINITION. The state of the machine (spec/10_state.md), the reasons a step can stop, and the state
right after reset (spec/70_reset_and_hazards.md R220). -/

namespace Sys2Proof.Machine

/-- The resolution mode (R21). -/
inductive Mode where
  | normal
  | extended
  deriving DecidableEq, Repr

/-- The run state (R28). -/
inductive RunState where
  /-- RUNNING: the instruction step is enabled. -/
  | running
  /-- AWAITING_KEY: the key-poll step is enabled. -/
  | awaitingKey
  /-- STOPPED by `00FD` or kill: only reset is enabled. -/
  | stopped
  /-- FATAL after an out-of-bounds access: only reset is enabled. -/
  | fatal
  deriving DecidableEq, Repr

/-- A pixel position, (column, row): column 0 is the left edge, row 0 the top edge (R25). -/
abbrev Pixel := Nat × Nat

/-- One bitplane: the pixels that are on, in raster order without repeats (log entry 19).  `P[x][y]` of
R25 is 1 iff `(x, y)` is listed. -/
abbrev Plane := List Pixel

/-- What the environment may do between the core's own steps (R200); the order is free (U7). -/
inductive Event where
  /-- the instruction step is chosen next (R80) -/
  | instruction
  /-- the key-poll step is chosen next (R174) -/
  | keyPoll
  /-- one tick of the 60 Hz clock (R180) -/
  | tick
  /-- the host changes the level of one key (R170, R200 item 5) -/
  | keyLevel (k : Reg) (down : Bool)
  /-- the kill signal (R203) -/
  | kill
  /-- the reset signal, with a new quirk setting if the host presents one (R220, R222) -/
  | reset (quirks : Option Quirks)
  /-- the host writes bytes into memory; it may do so after STOPPED or FATAL (R55, R204) -/
  | load (addr : Nat) (bytes : List Byte)
  deriving DecidableEq, Repr

/-- The whole machine.  The first fifteen fields are the state of spec/10_state.md section 1; `config`
and `keys` are the configuration (R23) and the keypad inputs (R170), held here so that a statement
about every state is about every configuration and input; `fresh` and `agenda` are the model's own
(log entries 5, 9). -/
structure State where
  /-- `V[0..15]` (R10, R11) -/
  v : Vector Byte 16
  /-- `RPL[0..15]` (R24) -/
  rpl : Vector Byte 16
  /-- `I` (R16) -/
  i : Word
  /-- `PC` (R12, R13) -/
  pc : Word
  /-- `SP` (R17) -/
  sp : Word
  /-- `DT` (R18) -/
  dt : Byte
  /-- `ST` (R18) -/
  st : Byte
  /-- `PITCH` (R19) -/
  pitch : Byte
  /-- `PLANE`, a mask: bit 0 selects plane 1, bit 1 plane 2 (R20) -/
  plane : BitVec 2
  /-- `MODE` (R21) -/
  mode : Mode
  /-- `P1` (R25) -/
  p1 : Plane
  /-- `P2` (R25) -/
  p2 : Plane
  /-- `RUN` (R28) -/
  run : RunState
  /-- `KEYREG`, the target of a pending `Fx0A` (R29) -/
  keyreg : Reg
  /-- `MEM` (R27, R40): the bytes that differ from `Machine.unlistedByte`, addresses rising -/
  mem : List Host.Cell
  /-- `MEM_SIZE`, the quirk flags, `BIG_FONT_BASE` (R5, R23) -/
  config : Config
  /-- `KeyDown(0..15)`: `true` is pressed (R170) -/
  keys : Vector Bool 16
  /-- model's own: how many free values have been used -/
  fresh : Nat
  /-- model's own: the environment's events still to come, the next one first -/
  agenda : List Event
  deriving DecidableEq, Repr

/-- Why the machine stops. -/
inductive Fault where
  /-- `OutOfBoundsAccess(a)` (R191): raised by the fetch and by `2nnn`, `00EE`, `Dxyn`, `Fx33`, `Fx55`,
  `Fx65` at the first address outside `0..MEM_SIZE-1` (R192); `a` may be negative (R44).  The machine is
  in `RUN` = FATAL and nothing else is promised of it (R197).  Safe: the core halts there too. -/
  | outOfBoundsAccess (addr : Int)
  deriving DecidableEq, Repr

/-- Why the model has no next state. -/
inductive Refusal where
  /-- Raised by no arm of `exec`: every instruction has its meaning.  Safe. -/
  | notModelled (mnemonic : String)
  /-- The environment writes memory while `RUN` is RUNNING or AWAITING_KEY, which the host is assumed not
  to do (R204, U19: `refuse`).  Raised by the event `load`.  Safe. -/
  | hostWriteDuringRun
  /-- The environment loads bytes past the end of memory, "the loader's error, outside the core" (R223).
  Raised by the event `load`.  Safe. -/
  | loadBeyondMemory
  deriving DecidableEq, Repr

/-- The state right after reset (R220).  `MEM` lists nothing (reset does not write it, R222; log entries
3, 4); `keyreg`, `keys`, `config`, `fresh` and `agenda` are DESIGN CHOICES (log entries 11, 12, 1, 9,
5): R220 gives them no value. -/
def State.reset : State where
  v := Vector.replicate 16 0
  rpl := Vector.replicate 16 0
  i := 0x0000
  pc := 0x0200
  sp := 0x0052
  dt := 0
  st := 0
  pitch := 64
  plane := 1
  mode := .normal
  p1 := []
  p2 := []
  run := .running
  keyreg := 0
  mem := []
  config := Config.boot
  keys := Vector.replicate 16 false
  fresh := 0
  agenda := []

end Sys2Proof.Machine
end

