-- ==== Sys2Proof/Machine/Ops.lean ====
section
/-! DEFINITION. The named operations over registers and memory that every meaning is written in
(spec/20_memory.md, spec/10_state.md), and the one exception of the core, `OutOfBoundsAccess`
(spec/60_exceptions.md R191 to R198): it is the `error` of the two byte primitives.  There is no trap
entry and no return from one (R197, R198). -/

namespace Sys2Proof.Machine

/-! ## Registers -/

/-- Read `V[r]` (R10). -/
def State.getV (s : State) (r : Reg) : Byte := s.v[r]

/-- `V[r] <- b` (R10). -/
def State.setV (s : State) (r : Reg) (b : Byte) : State := { s with v := s.v.set r b }

/-- Replace `V[0..x]` by `f 0 .. f x` and keep the registers above `x` (R126, R128). -/
def State.setLowV (s : State) (x : Reg) (f : Reg → Byte) : State :=
  { s with v := Vector.ofFn fun r => if r ≤ x then f r else s.v[r] }

/-- Replace `RPL[0..x]` by `f 0 .. f x` and keep the registers above `x` (R127). -/
def State.setLowRpl (s : State) (x : Reg) (f : Reg → Byte) : State :=
  { s with rpl := Vector.ofFn fun r => if r ≤ x then f r else s.rpl[r] }

/-- `V[0..x]` in ascending order (R125). -/
def State.lowV (s : State) (x : Reg) : List Byte := s.v.toList.take (x.val + 1)

/-- `PC <- w` (R13). -/
def State.setPC (s : State) (w : Word) : State := { s with pc := w }

/-- `SP <- w` (R17). -/
def State.setSP (s : State) (w : Word) : State := { s with sp := w }

/-- `I <- w` (R16). -/
def State.setI (s : State) (w : Word) : State := { s with i := w }

/-- `RUN <- r` (R28). -/
def State.setRun (s : State) (r : RunState) : State := { s with run := r }

/-- The memory becomes a cell list. -/
def State.setMem (s : State) (m : List Host.Cell) : State := { s with mem := m }

/-- The advance of `PC` by one instruction, modulo 2^16: by the fetch (R80) and by a skip (R92). -/
def State.advance (s : State) : State := s.setPC (s.pc + 2)

/-! ## Memory -/

/-- DESIGN CHOICE (log entry 3): what a byte of memory that no cell lists reads as.  The spec gives no
launch contents (D27, U4): every image is some `mem`, and `State.reset` lists nothing. -/
def unlistedByte : Byte := 0

/-- The byte a cell list holds at a key. -/
def memGet : List Host.Cell → Nat → Byte
  | [], _ => unlistedByte
  | (a, b) :: rest, k => if a = k then b else memGet rest k

/-- Insert a cell before the first cell of a greater key. -/
def memInsert (k : Nat) (b : Byte) : List Host.Cell → List Host.Cell
  | [] => [(k, b)]
  | (a, c) :: rest => if k < a then (k, b) :: (a, c) :: rest else (a, c) :: memInsert k b rest

/-- Write one byte and keep the canonical form: a byte equal to what an unlisted address reads as is
not listed. -/
def memSet (m : List Host.Cell) (k : Nat) (b : Byte) : List Host.Cell :=
  if b = unlistedByte then m.filter (fun c => c.1 ≠ k)
  else memInsert k b (m.filter (fun c => c.1 ≠ k))

/-- The canonical form of memory: addresses strictly rising and below `MEM_SIZE`, no cell equal to what
an unlisted address reads as. -/
def Memory.wf (size : MemSize) (m : List Host.Cell) : Bool :=
  decide (m.Pairwise fun c d => c.1 < d.1)
    && m.all fun c => decide (c.1 < size.bytes) && decide (c.2 ≠ unlistedByte)

/-- The valid addresses are exactly `0..MEM_SIZE-1` (R40). -/
abbrev State.inBounds (s : State) (a : Int) : Prop := 0 ≤ a ∧ a < s.config.memSize.bytes

/-- `MemRead(a, 1)` (R42): the address is an integer, not wrapped before the check (R44). -/
def loadByte (s : State) (a : Int) : Except Fault Byte :=
  if s.inBounds a then .ok (memGet s.mem a.toNat) else .error (.outOfBoundsAccess a)

/-- `MemWrite(a, 1, b)` (R43). -/
def storeByte (s : State) (a : Int) (b : Byte) : Except Fault State :=
  if s.inBounds a then .ok (s.setMem (memSet s.mem a.toNat b))
  else .error (.outOfBoundsAccess a)

/-- `n` reads at ascending addresses from `a`, one after another (R41). -/
def loadBytes (s : State) (a : Int) : Nat → Except Fault (List Byte)
  | 0 => .ok []
  | n + 1 => do
    let b ← loadByte s a
    let bs ← loadBytes s (a + 1) n
    .ok (b :: bs)

/-- Writes of a list of bytes at ascending addresses from `a`, one after another (R41). -/
def storeBytes (s : State) (a : Int) : List Byte → Except Fault State
  | [] => .ok s
  | b :: bs => do
    let s' ← storeByte s a b
    storeBytes s' (a + 1) bs

/-- The end of an instruction that accesses memory: its next state, or the fatal fault at its first
out-of-bounds access (R191, R196). -/
def finish : Except Fault State → Host.Outcome State Fault Refusal
  | .ok t => .next t
  | .error f => .fault f

/-! ## Fetch (R45, R80) -/

/-- Read the instruction word at `PC`, big-endian: the byte at `PC` first, then the byte at `PC + 1`. -/
def fetch (s : State) : Except Fault Word := do
  let hi ← loadByte s s.pc.toNat
  let lo ← loadByte s (s.pc.toNat + 1)
  .ok (wordOfBytes hi lo)

/-! ## The call stack (R83) -/

/-- Push an address: low byte at `SP`, high byte at `SP + 1`, `SP` up by 2 (R46, R84). -/
def push (s : State) (w : Word) : Except Fault State := do
  let s₁ ← storeByte s s.sp.toNat (w.extractLsb' 0 8)
  let s₂ ← storeByte s₁ (s.sp.toNat + 1) (w.extractLsb' 8 8)
  .ok (s₂.setSP (s.sp + 2))

/-- Pop an address: high byte at `SP - 1`, low byte at `SP - 2`, `SP` down by 2 (R85).  The addresses
are integers: with `SP` < 2 one is negative and out of bounds (R44). -/
def pop (s : State) : Except Fault (Word × State) := do
  let hi ← loadByte s (s.sp.toNat - 1)
  let lo ← loadByte s (s.sp.toNat - 2)
  .ok (wordOfBytes hi lo, s.setSP (s.sp - 2))

/-! ## Free values -/

/-- `draw_byte()`: a free byte, a new one at each use (R112, U2). -/
def drawByte (s : State) : Byte × State :=
  (Config.drawByte s.fresh, { s with fresh := s.fresh + 1 })

/-! ## The keypad (R170) -/

/-- The codes of the keys that are down, ascending. -/
def downKeys (keys : Vector Bool 16) : List Reg := (List.finRange 16).filter fun k => keys[k]

/-- `currentKey()`: none when no key is down, the down key when there is one, and a free choice among
them when several are down (R170, U5); `n` numbers the choice. -/
def currentKey (keys : Vector Bool 16) (n : Nat) : Option Reg :=
  match downKeys keys with
  | [] => none
  | [k] => some k
  | k :: ks => some ((k :: ks).getD (Config.keyPick n % (k :: ks).length) k)

end Sys2Proof.Machine
end

