-- ==== Sys2Proof/Machine/Flags.lean ====
section
/-! DEFINITION. The flag computations (spec/10_state.md R14, R15, spec/41_alu.md R113): what `VF`
receives, and the order "result first, flag last". -/

namespace Sys2Proof.Machine

/-- A flag as a register value: 1 or 0 (R14). -/
def flagByte (f : Bool) : Byte := if f then 1 else 0

/-- `V[15] <- f`, written last by the instructions of R15. -/
def State.setFlag (s : State) (f : Bool) : State := s.setV vf (flagByte f)

/-- Carry of an addition: the exact sum exceeds 255 (R106). -/
def addCarry (a b : Byte) : Bool := decide (255 < a.toNat + b.toNat)

/-- No borrow of `a - b`: minuend at least the subtrahend (R107, R110). -/
def noBorrow (a b : Byte) : Bool := decide (b.toNat ≤ a.toNat)

/-- The bit a right shift by one shifts out (R109). -/
def shiftOutRight (a : Byte) : Bool := a.getLsbD 0

/-- The bit a left shift by one shifts out (R111). -/
def shiftOutLeft (a : Byte) : Bool := a.getLsbD 7

/-- Result into `V[x]`, then the flag into `VF`: with `x` = 15 the flag remains (R11, R113, D3). -/
def resultWithFlag (s : State) (x : Reg) (r : Byte) (f : Bool) : State :=
  (s.setV x r).setFlag f

/-- The logic quirk: result into `V[x]`, then `VF <- 0` when `logicQuirks` (R103 to R105). -/
def logicResult (s : State) (x : Reg) (r : Byte) : State :=
  if s.config.quirks.logic then resultWithFlag s x r false else s.setV x r

end Sys2Proof.Machine
end

