-- ==== Sys2Proof/Machine/Operands.lean ====
section
/-! DEFINITION. Every operand form that is more than a register or an immediate: quirk-selected
registers, effective addresses, glyph addresses, digits, key codes, sprite geometry, plane masks. -/

namespace Sys2Proof.Machine

/-- The value shifted by `8xy6`, `8xyE`: `V[x]` with `shiftQuirks`, else `V[y]` (R109, R111). -/
def shiftSource (s : State) (x y : Reg) : Byte :=
  if s.config.quirks.shift then s.getV x else s.getV y

/-- The offset register of `Bnnn`: with `jumpQuirks` the high nibble of `nnn` names it, else `V0`
(R90). -/
def jumpOffsetReg (s : State) (nnn : BitVec 12) : Reg :=
  if s.config.quirks.jump then (nnn.extractLsb' 8 4).toFin else 0

/-- The address `I` as an integer; a transfer's `i`th byte is at `indexAddr + i`, not wrapped (R44,
R129). -/
def indexAddr (s : State) : Int := s.i.toNat

/-- `I` after a block transfer of `V[0..x]`: past the block, or unchanged with `indexQuirks` (R125,
R126). -/
def indexAfter (s : State) (x : Reg) : Word :=
  if s.config.quirks.index then s.i else s.i + BitVec.ofNat 16 (x.val + 1)

/-- The address of small glyph `d`, 5 bytes each from address 0; `d` is not masked (R122). -/
def smallGlyph (d : Byte) : Word := BitVec.ofNat 16 (5 * d.toNat)

/-- The address of large glyph `d`, 10 bytes each from `BIG_FONT_BASE`; `d` is not masked (R123). -/
def largeGlyph (base : Nat) (d : Byte) : Word := BitVec.ofNat 16 (base + 10 * d.toNat)

/-- The three decimal digits of a byte, most significant first (R124). -/
def decimalDigits (b : Byte) : List Byte :=
  [BitVec.ofNat 8 (b.toNat / 100), BitVec.ofNat 8 (b.toNat / 10 % 10), BitVec.ofNat 8 (b.toNat % 10)]

/-- `isKeyPressed` of a register's value: a code above 15 is never down and is not masked (R171, R172,
D18). -/
def keyDown (s : State) (code : Byte) : Bool :=
  if h : code.toNat < 16 then s.keys[code.toNat] else false

/-- The mask `Fn01` writes: the low two bits of the field (R157, D17). -/
def planeMask (n : BitVec 4) : BitVec 2 := n.extractLsb' 0 2

/-- `n` = 0 in EXTENDED mode is the big sprite (R158, R160). -/
def bigSprite (s : State) (n : Nat) : Bool := decide (n = 0) && decide (s.mode = .extended)

/-- Bytes per sprite row: 2 for the big sprite (R158). -/
def spriteRowBytes (s : State) (n : Nat) : Nat := if bigSprite s n then 2 else 1

/-- Bytes of sprite data per plane: 32 for the big sprite, else `n` (R160). -/
def spriteLen (s : State) (n : Nat) : Nat := if bigSprite s n then 32 else n

end Sys2Proof.Machine
end

