-- ==== Sys2Proof/Machine/Alu.lean ====
section
/-! DEFINITION. Register move, arithmetic, logic, shift, random (spec/41_alu.md R100 to R113).  Every
meaning starts after the fetch: `PC` is already the next instruction's address (R80). -/

namespace Sys2Proof.Machine

/-- `6xnn` LD Vx, nn (R100). -/
def execLdImm (x : Reg) (nn : Byte) (s : State) : Host.Outcome State Fault Refusal :=
  .next (s.setV x nn)

/-- `7xnn` ADD Vx, nn: modulo 256, no flag (R101, D21). -/
def execAddImm (x : Reg) (nn : Byte) (s : State) : Host.Outcome State Fault Refusal :=
  .next (s.setV x (s.getV x + nn))

/-- `8xy0` LD Vx, Vy (R102). -/
def execLdReg (x y : Reg) (s : State) : Host.Outcome State Fault Refusal :=
  .next (s.setV x (s.getV y))

/-- `8xy1` OR Vx, Vy (R103). -/
def execOrReg (x y : Reg) (s : State) : Host.Outcome State Fault Refusal :=
  .next (logicResult s x (s.getV x ||| s.getV y))

/-- `8xy2` AND Vx, Vy (R104). -/
def execAndReg (x y : Reg) (s : State) : Host.Outcome State Fault Refusal :=
  .next (logicResult s x (s.getV x &&& s.getV y))

/-- `8xy3` XOR Vx, Vy (R105). -/
def execXorReg (x y : Reg) (s : State) : Host.Outcome State Fault Refusal :=
  .next (logicResult s x (s.getV x ^^^ s.getV y))

/-- `8xy4` ADD Vx, Vy: `VF` is the carry (R106). -/
def execAddReg (x y : Reg) (s : State) : Host.Outcome State Fault Refusal :=
  .next (resultWithFlag s x (s.getV x + s.getV y) (addCarry (s.getV x) (s.getV y)))

/-- `8xy5` SUB Vx, Vy: `V[x] - V[y]`, `VF` is "no borrow" (R107). -/
def execSubReg (x y : Reg) (s : State) : Host.Outcome State Fault Refusal :=
  .next (resultWithFlag s x (s.getV x - s.getV y) (noBorrow (s.getV x) (s.getV y)))

/-- `8xy6` SHR Vx, Vy: the distance is 1, `VF` is the bit shifted out (R109). -/
def execShrReg (x y : Reg) (s : State) : Host.Outcome State Fault Refusal :=
  .next (resultWithFlag s x (shiftSource s x y >>> 1) (shiftOutRight (shiftSource s x y)))

/-- `8xy7` SUBN Vx, Vy: `V[y] - V[x]`, `VF` is "no borrow" (R110). -/
def execSubnReg (x y : Reg) (s : State) : Host.Outcome State Fault Refusal :=
  .next (resultWithFlag s x (s.getV y - s.getV x) (noBorrow (s.getV y) (s.getV x)))

/-- `8xyE` SHL Vx, Vy: the distance is 1, `VF` is the bit shifted out (R111). -/
def execShlReg (x y : Reg) (s : State) : Host.Outcome State Fault Refusal :=
  .next (resultWithFlag s x (shiftSource s x y <<< 1) (shiftOutLeft (shiftSource s x y)))

/-- `Cxnn` RND Vx, nn: a free byte masked by `nn` (R112, log entry 9). -/
def execRnd (x : Reg) (nn : Byte) (s : State) : Host.Outcome State Fault Refusal :=
  .next ((drawByte s).2.setV x ((drawByte s).1 &&& nn))

end Sys2Proof.Machine
end

