-- ==== Sys2Proof/Machine/Control.lean ====
section
/-! DEFINITION. Control transfer (spec/40_control_flow.md R82 to R92).  Every meaning starts after the
fetch: `PC` is already the next instruction's address (R80). -/

namespace Sys2Proof.Machine

/-- A conditional skip: one further advance of `PC` by 2; the skipped word is not fetched (R92). -/
def skipIf (c : Bool) (s : State) : State := if c then s.advance else s

/-- `1nnn` JP nnn (R82). -/
def execJp (nnn : BitVec 12) (s : State) : Host.Outcome State Fault Refusal :=
  .next (s.setPC (nnn.setWidth 16))

/-- `2nnn` CALL nnn: push the address of the following instruction (R84). -/
def execCall (nnn : BitVec 12) (s : State) : Host.Outcome State Fault Refusal :=
  finish do
    let t ← push s s.pc
    .ok (t.setPC (nnn.setWidth 16))

/-- `00EE` RET (R85). -/
def execRet (s : State) : Host.Outcome State Fault Refusal :=
  finish do
    let (w, t) ← pop s
    .ok (t.setPC w)

/-- `00FD` EXIT: the effect of the kill signal, `RUN <- STOPPED` (R86). -/
def execExit (s : State) : Host.Outcome State Fault Refusal :=
  .next (s.setRun .stopped)

/-- `3xnn` SE Vx, nn (R87). -/
def execSeImm (x : Reg) (nn : Byte) (s : State) : Host.Outcome State Fault Refusal :=
  .next (skipIf (decide (s.getV x = nn)) s)

/-- `4xnn` SNE Vx, nn (R88). -/
def execSneImm (x : Reg) (nn : Byte) (s : State) : Host.Outcome State Fault Refusal :=
  .next (skipIf (decide (s.getV x ≠ nn)) s)

/-- `5xy_` SE Vx, Vy (R89). -/
def execSeReg (x y : Reg) (s : State) : Host.Outcome State Fault Refusal :=
  .next (skipIf (decide (s.getV x = s.getV y)) s)

/-- `9xy_` SNE Vx, Vy (R91). -/
def execSneReg (x y : Reg) (s : State) : Host.Outcome State Fault Refusal :=
  .next (skipIf (decide (s.getV x ≠ s.getV y)) s)

/-- `Bnnn` JP V0, nnn: the full 12-bit immediate plus the offset register (R90). -/
def execJpV0 (nnn : BitVec 12) (s : State) : Host.Outcome State Fault Refusal :=
  .next (s.setPC (nnn.setWidth 16 + (s.getV (jumpOffsetReg s nnn)).setWidth 16))

end Sys2Proof.Machine
end

