-- ==== Sys2Proof/Machine/Keypad.lean ====
section
/-! DEFINITION. Keypad, timer and sound instructions (spec/44_keypad_timers_sound.md R171 to R178).
Every meaning starts after the fetch (R80). -/

namespace Sys2Proof.Machine

/-- `Ex9E` SKP Vx (R171). -/
def execSkp (x : Reg) (s : State) : Host.Outcome State Fault Refusal :=
  .next (skipIf (keyDown s (s.getV x)) s)

/-- `ExA1` SKNP Vx (R172). -/
def execSknp (x : Reg) (s : State) : Host.Outcome State Fault Refusal :=
  .next (skipIf (!keyDown s (s.getV x)) s)

/-- `Fx0A` LD Vx, K: enter the key wait; `PC` is not held back (R173). -/
def execLdVxK (x : Reg) (s : State) : Host.Outcome State Fault Refusal :=
  .next ({ s with keyreg := x }.setRun .awaitingKey)

/-- `Fx07` LD Vx, DT (R175). -/
def execLdVxDt (x : Reg) (s : State) : Host.Outcome State Fault Refusal :=
  .next (s.setV x s.dt)

/-- `Fx15` LD DT, Vx (R176). -/
def execLdDtVx (x : Reg) (s : State) : Host.Outcome State Fault Refusal :=
  .next { s with dt := s.getV x }

/-- `Fx18` LD ST, Vx (R177). -/
def execLdStVx (x : Reg) (s : State) : Host.Outcome State Fault Refusal :=
  .next { s with st := s.getV x }

/-- `Fx3A` PITCH Vx (R178). -/
def execPitch (x : Reg) (s : State) : Host.Outcome State Fault Refusal :=
  .next { s with pitch := s.getV x }

end Sys2Proof.Machine
end

