-- ==== Sys2Proof/Machine/Display.lean ====
section
/-! DEFINITION. The display engine's primitives over the two bitplanes (spec/43_display.md R140 to R149,
R158, R159). -/

namespace Sys2Proof.Machine

/-- The logical width `W` (R22). -/
def Mode.width : Mode → Nat
  | .normal => 64
  | .extended => 128

/-- The logical height `H` (R22). -/
def Mode.height : Mode → Nat
  | .normal => 32
  | .extended => 64

/-! ## One plane -/

/-- Raster order: by row, then by column. -/
abbrev Pixel.before (a b : Pixel) : Prop := a.2 < b.2 ∨ (a.2 = b.2 ∧ a.1 < b.1)

/-- The canonical form of a plane at a resolution: strictly rising in raster order, every pixel inside
`W` x `H`. -/
def planeWf (m : Mode) (p : Plane) : Bool :=
  decide (p.Pairwise Pixel.before)
    && p.all fun q => decide (q.1 < m.width) && decide (q.2 < m.height)

/-- get-pixel (R140). -/
def planeGet (p : Plane) (px py : Nat) : Bool := decide ((px, py) ∈ p)

/-- Insert a pixel at its place in raster order. -/
def pixelInsert (q : Pixel) : Plane → Plane
  | [] => [q]
  | r :: rest => if Pixel.before q r then q :: r :: rest else r :: pixelInsert q rest

/-- draw-pixel: set the bit at (`px`, `py`) to `b` and leave every other pixel (R141). -/
def planePut (p : Plane) (px py : Nat) (b : Bool) : Plane :=
  if b then pixelInsert (px, py) (p.filter (fun q => q ≠ (px, py)))
  else p.filter (fun q => q ≠ (px, py))

/-- scroll-down by `k` rows: a pixel pushed past the bottom is discarded (R143). -/
def scrollDown (m : Mode) (k : Nat) (p : Plane) : Plane :=
  p.filterMap fun q => if q.2 + k < m.height then some (q.1, q.2 + k) else none

/-- scroll-up by `k` rows (R144). -/
def scrollUp (m : Mode) (k : Nat) (p : Plane) : Plane :=
  p.filterMap fun q => if k ≤ q.2 ∧ q.2 < m.height then some (q.1, q.2 - k) else none

/-- The horizontal scroll distance, in columns, in both modes (R145, D15). -/
def scrollColumns : Nat := 4

/-- scroll-right by 4 columns (R145). -/
def scrollRight (m : Mode) (p : Plane) : Plane :=
  p.filterMap fun q =>
    if q.1 + scrollColumns < m.width then some (q.1 + scrollColumns, q.2) else none

/-- scroll-left by 4 columns (R146). -/
def scrollLeft (m : Mode) (p : Plane) : Plane :=
  p.filterMap fun q =>
    if scrollColumns ≤ q.1 ∧ q.1 < m.width then some (q.1 - scrollColumns, q.2) else none

/-! ## The selected planes (R148) -/

/-- Names of the two planes. -/
inductive PlaneId where
  | one
  | two
  deriving DecidableEq, Repr

/-- `planes(m)`: the planes a mask selects, ascending (R148). -/
def selectedPlanes (m : BitVec 2) : List PlaneId :=
  (if m.getLsbD 0 then [.one] else []) ++ (if m.getLsbD 1 then [.two] else [])

/-- The bits of a plane (R25). -/
def State.getPlane (s : State) : PlaneId → Plane
  | .one => s.p1
  | .two => s.p2

/-- Replace the bits of one plane. -/
def State.setPlane (s : State) (id : PlaneId) (p : Plane) : State :=
  match id with
  | .one => { s with p1 := p }
  | .two => { s with p2 := p }

/-- The same operation on each plane that `PLANE` selects (R148). -/
def mapSelected (s : State) (f : Plane → Plane) : State :=
  (selectedPlanes s.plane).foldl (fun t id => t.setPlane id (f (t.getPlane id))) s

/-- set-mode: the new size, both planes all 0 whatever `PLANE` is (R147). -/
def setMode (s : State) (m : Mode) : State := { s with mode := m, p1 := [], p2 := [] }

/-! ## Sprites (R158, R159) -/

/-- The 1-bits of a sprite as (column offset, row offset), in the order of R160: byte by byte, and in a
byte from bit 7, the leftmost, to bit 0.  A 0-bit changes no pixel (log entry 16). -/
def spriteBits (rowBytes : Nat) (bytes : List Byte) : List (Nat × Nat) :=
  bytes.zipIdx.flatMap fun bk =>
    (List.range 8).filterMap fun c =>
      if bk.1.getLsbD (7 - c) then some (8 * (bk.2 % rowBytes) + c, bk.2 / rowBytes) else none

/-- Where a sprite bit lands (R159): wrapped modulo `W`, `H`, or with `clipQuirks` discarded when it is
off the screen; the origin is not wrapped first. -/
def landing (clip : Bool) (m : Mode) (vx vy : Nat) (o : Nat × Nat) : Option Pixel :=
  if clip then
    if vx + o.1 < m.width ∧ vy + o.2 < m.height then some (vx + o.1, vy + o.2) else none
  else some ((vx + o.1) % m.width, (vy + o.2) % m.height)

/-- The pixels that the 1-bits of a sprite's bytes land on, in order. -/
def landedPixels (clip : Bool) (m : Mode) (vx vy rowBytes : Nat) (bytes : List Byte) : List Pixel :=
  (spriteBits rowBytes bytes).filterMap (landing clip m vx vy)

/-- XOR of one landed 1-bit: the old pixel is read first, a pixel that was on is a collision (R160). -/
def flipPixel (acc : Plane × Bool) (q : Pixel) : Plane × Bool :=
  (planePut acc.1 q.1 q.2 (!planeGet acc.1 q.1 q.2), acc.2 || planeGet acc.1 q.1 q.2)

/-- XOR a list of landed 1-bits onto a plane; the Bool says whether an on pixel was turned off. -/
def flipPixels (p : Plane) (qs : List Pixel) : Plane × Bool := qs.foldl flipPixel (p, false)

/-- The sprite's bits on each plane of a list: plane 1's bytes at `base`, the next plane's bytes
directly after them (R158, R160).  Answers the state with the planes drawn, and the logical OR of the
collisions (D12). -/
def drawPlanes (s : State) (vx vy rowBytes len : Nat) (base : Int) (hit : Bool) :
    List PlaneId → Except Fault (State × Bool)
  | [] => .ok (s, hit)
  | id :: ids => do
    let bytes ← loadBytes s base len
    let drawn := flipPixels (s.getPlane id)
      (landedPixels s.config.quirks.clip s.mode vx vy rowBytes bytes)
    drawPlanes (s.setPlane id drawn.1) vx vy rowBytes len (base + len) (hit || drawn.2) ids

end Sys2Proof.Machine
end

