-- ==== Sys2Proof/Machine/Screen.lean ====
section
/-! DEFINITION. The display instructions (spec/43_display.md R150 to R160).  Every meaning starts after
the fetch (R80). -/

namespace Sys2Proof.Machine

/-- `00Cn` SCD n (R151). -/
def execScd (n : Nat) (s : State) : Host.Outcome State Fault Refusal :=
  .next (mapSelected s (scrollDown s.mode n))

/-- `00Dn` SCU n (R152). -/
def execScu (n : Nat) (s : State) : Host.Outcome State Fault Refusal :=
  .next (mapSelected s (scrollUp s.mode n))

/-- `00E0` CLS: clear the selected planes (R142, R150). -/
def execCls (s : State) : Host.Outcome State Fault Refusal :=
  .next (mapSelected s fun _ => [])

/-- `00FB` SCR (R153). -/
def execScr (s : State) : Host.Outcome State Fault Refusal :=
  .next (mapSelected s (scrollRight s.mode))

/-- `00FC` SCL (R154). -/
def execScl (s : State) : Host.Outcome State Fault Refusal :=
  .next (mapSelected s (scrollLeft s.mode))

/-- `00FE` LOW (R155). -/
def execLow (s : State) : Host.Outcome State Fault Refusal :=
  .next (setMode s .normal)

/-- `00FF` HIGH (R156). -/
def execHigh (s : State) : Host.Outcome State Fault Refusal :=
  .next (setMode s .extended)

/-- `Fn01` PLANE n (R157). -/
def execPlane (n : BitVec 4) (s : State) : Host.Outcome State Fault Refusal :=
  .next { s with plane := planeMask n }

/-- `Dxyn` DRW Vx, Vy, n (R160).  The coordinates are read before `VF` is written; with `PLANE` = 0 the
sprite bytes are read once and dropped; `I` is not changed. -/
def execDrw (x y : Reg) (n : Nat) (s : State) : Host.Outcome State Fault Refusal :=
  finish <|
    match selectedPlanes s.plane with
    | [] => do
      let _ ← loadBytes s (indexAddr s) (spriteLen s n)
      .ok (s.setFlag false)
    | ids => do
      let (t, hit) ← drawPlanes s (s.getV x).toNat (s.getV y).toNat (spriteRowBytes s n)
        (spriteLen s n) (indexAddr s) false ids
      .ok (t.setFlag hit)

end Sys2Proof.Machine
end

