-- ==== Sys2Proof/Machine/Transfer.lean ====
section
/-! DEFINITION. Index register, memory transfers, RPL bank (spec/42_index_memory.md R120 to R129).
Every meaning starts after the fetch (R80). -/

namespace Sys2Proof.Machine

/-- `Annn` LD I, nnn (R120). -/
def execLdI (nnn : BitVec 12) (s : State) : Host.Outcome State Fault Refusal :=
  .next (s.setI (nnn.setWidth 16))

/-- `Fx1E` ADD I, Vx: modulo 2^16, no flag (R121, D21). -/
def execAddI (x : Reg) (s : State) : Host.Outcome State Fault Refusal :=
  .next (s.setI (s.i + (s.getV x).setWidth 16))

/-- `Fx29` LD F, Vx (R122). -/
def execLdF (x : Reg) (s : State) : Host.Outcome State Fault Refusal :=
  .next (s.setI (smallGlyph (s.getV x)))

/-- `Fx30` LD HF, Vx (R123). -/
def execLdHf (x : Reg) (s : State) : Host.Outcome State Fault Refusal :=
  .next (s.setI (largeGlyph s.config.bigFontBase (s.getV x)))

/-- `Fx33` LD B, Vx: three decimal digits at `I`, `I + 1`, `I + 2` (R124). -/
def execLdB (x : Reg) (s : State) : Host.Outcome State Fault Refusal :=
  finish (storeBytes s (indexAddr s) (decimalDigits (s.getV x)))

/-- `Fx55` LD [I], Vx: store `V[0..x]` ascending, then advance `I` unless `indexQuirks` (R125). -/
def execStoreRegs (x : Reg) (s : State) : Host.Outcome State Fault Refusal :=
  finish do
    let t ← storeBytes s (indexAddr s) (s.lowV x)
    .ok (t.setI (indexAfter s x))

/-- `Fx65` LD Vx, [I]: load `V[0..x]` ascending, then advance `I` unless `indexQuirks` (R126). -/
def execLoadRegs (x : Reg) (s : State) : Host.Outcome State Fault Refusal :=
  finish do
    let bytes ← loadBytes s (indexAddr s) (x.val + 1)
    .ok ((s.setLowV x fun r => bytes.getD r.val 0).setI (indexAfter s x))

/-- `Fx75` LD R, Vx: `RPL[0..x] <- V[0..x]` (R127). -/
def execStoreRpl (x : Reg) (s : State) : Host.Outcome State Fault Refusal :=
  .next (s.setLowRpl x s.getV)

/-- `Fx85` LD Vx, R: `V[0..x] <- RPL[0..x]` (R128). -/
def execLoadRpl (x : Reg) (s : State) : Host.Outcome State Fault Refusal :=
  .next (s.setLowV x (fun r => s.rpl[r]))

end Sys2Proof.Machine
end

