-- ==== Sys2Proof/Machine/Agents.lean ====
section
/-! DEFINITION. The steps of the machine, each atomic (spec/60_exceptions.md R200): the instruction
step, the key-poll step, the tick, and the host's signals; and the launch of a core. -/

namespace Sys2Proof.Machine

/-- The instruction step (R80): fetch, advance `PC` by 2, execute; an unsupported word is a no-op after
the advance (R68).  Called in RUNNING only. -/
def instructionStep (s : State) : Host.Outcome State Fault Refusal :=
  match fetch s with
  | .error f => .fault f
  | .ok op =>
    match decodeWord op with
    | some i => exec i s.advance
    | none => .next s.advance

/-- The key-poll step (R174): with no key down nothing changes, else the code of a down key goes into
`V[KEYREG]` and the wait ends.  Called in AWAITING_KEY only. -/
def keyPollStep (s : State) : State :=
  match currentKey s.keys s.fresh with
  | none => s
  | some k =>
    { s.setV s.keyreg (BitVec.ofNat 8 k.val) with fresh := s.fresh + 1 }.setRun .running

/-- One timer towards zero, without wrap (R180). -/
def countDown (b : Byte) : Byte := if b = 0 then 0 else b - 1

/-- RUNNING or AWAITING_KEY: the states in which a run is going on (R180, R203, R204). -/
def RunState.alive : RunState → Bool
  | .running => true
  | .awaitingKey => true
  | .stopped => false
  | .fatal => false

/-- The tick step (R180); not enabled in STOPPED and FATAL, where the timers keep their values. -/
def tickStep (s : State) : State :=
  if s.run.alive then { s with dt := countDown s.dt, st := countDown s.st } else s

/-- The kill signal (R203): enabled always, acts when a run is going on. -/
def killSignal (s : State) : State :=
  if s.run.alive then s.setRun .stopped else s

/-- The reset signal (R220 to R222): every state of R220 to its constant; `MEM`, `MEM_SIZE` and
`BIG_FONT_BASE` stay, the quirks stay unless the host presents new ones.  The inputs `keys` and the
model's own `fresh` and `agenda` are no state of R220 and stay. -/
def resetSignal (quirks : Option Quirks) (s : State) : State :=
  { State.reset with
    mem := s.mem
    config := { s.config with quirks := quirks.getD s.config.quirks }
    keys := s.keys
    fresh := s.fresh
    agenda := s.agenda }

/-- A load by the host (R55, R204): possible after STOPPED or FATAL; refused by name while a run is
going on (U19), or when the bytes do not fit (R223). -/
def hostLoad (addr : Nat) (bytes : List Byte) (s : State) : Host.Outcome State Fault Refusal :=
  if s.run.alive then .refused .hostWriteDuringRun
  else
    match storeBytes s addr bytes with
    | .ok t => .next t
    | .error _ => .refused .loadBeyondMemory

/-- One event of the environment (R200).  An instruction or key-poll step that is not enabled in this
run state does not take place (log entry 6). -/
def perform (e : Event) (s : State) : Host.Outcome State Fault Refusal :=
  match e with
  | .instruction => if s.run = .running then instructionStep s else .next s
  | .keyPoll => if s.run = .awaitingKey then .next (keyPollStep s) else .next s
  | .tick => .next (tickStep s)
  | .keyLevel k down => .next { s with keys := s.keys.set k down }
  | .kill => .next (killSignal s)
  | .reset quirks => .next (resetSignal quirks s)
  | .load addr bytes => hostLoad addr bytes s

/-- What the core does by itself when the agenda names no event: the step its run state enables (R200),
and nothing in STOPPED and FATAL (R28; log entry 7). -/
def ownStep (s : State) : Host.Outcome State Fault Refusal :=
  match s.run with
  | .running => instructionStep s
  | .awaitingKey => .next (keyPollStep s)
  | .stopped => .next s
  | .fatal => .next s

/-- One step of the machine: the next event of the agenda, or the core's own step (R200, U7; log
entry 5). -/
def machineStep (s : State) : Host.Outcome State Fault Refusal :=
  match s.agenda with
  | [] => ownStep s
  | e :: rest => perform e { s with agenda := rest }

/-- A core constructed with a configuration, its memory holding an image, and reset raised (R223). -/
def State.launch (config : Config) (mem : List Host.Cell) : State :=
  { State.reset with config, mem }

/-- The state of a machine that answered a fault in state `s` (R197): `RUN` = FATAL, the configuration
(which no step changes, R23) and what is not the core's own; every other piece of state is unspecified
and is taken from an arbitrary state `any`. -/
def State.haltedAfter (s any : State) : State :=
  { any with run := .fatal, config := s.config, keys := s.keys, fresh := s.fresh, agenda := s.agenda }

/-- The instruction whose word is `op`, stored where the next step fetches, and that step chosen next.
At a `PC` whose two bytes are not both in memory the word cannot be stored and memory stays. -/
def placeWord (s : State) (op : Word) : State :=
  let t :=
    match storeBytes s s.pc.toNat [op.extractLsb' 8 8, op.extractLsb' 0 8] with
    | .ok t => t
    | .error _ => s
  { t with run := .running, agenda := .instruction :: s.agenda }

end Sys2Proof.Machine
end

