-- ==== Sys2Proof/Machine/Step.lean ====
section
/-! DEFINITION. The step function, and the placing of one instruction where it fetches. -/

namespace Sys2Proof.Machine

/-- One step of the machine (R200): `machineStep`. -/
def step (s : State) : Host.Outcome State Fault Refusal := machineStep s

/-- `s` with the instruction whose bits are `w` (numbered as the opcode table numbers them, bits above
`nbits` zero) stored where the next step fetches, the core RUNNING and the instruction step chosen next.
It stands for the loader (R55, R223; log entry 4). -/
def State.withFetchWord (s : State) (nbits w : Nat) : State :=
  placeWord s (BitVec.ofNat 16 (w % 2 ^ nbits))

end Sys2Proof.Machine
end

