-- ==== Sys2Proof/Machine/Outputs.lean ====
section
/-! DEFINITION. The output ports (spec/60_exceptions.md R202), each a function of the state; sampling
one changes nothing (spec/43_display.md R149). -/

namespace Sys2Proof.Machine

/-- The colour index of a pixel, `P1 + 2 * P2` (R25, R149). -/
def colourAt (s : State) (px py : Nat) : Nat :=
  (planeGet s.p1 px py).toNat + 2 * (planeGet s.p2 px py).toNat

/-- The display output: the `W` x `H` array of colour indices, row by row, together with `MODE`
(R149). -/
def displayOut (s : State) : Mode × List (List Nat) :=
  (s.mode, (List.range s.mode.height).map fun py =>
    (List.range s.mode.width).map fun px => colourAt s px py)

/-- `tone_on` (R181). -/
def toneOn (s : State) : Bool := decide (s.st ≠ 0) && s.run.alive

/-- `tone_pitch` (R181). -/
def tonePitch (s : State) : Byte := s.pitch

/-- The playback rate in Hz, a real: a function of `PITCH` alone with `rate(64)` = 4000, otherwise
uninterpreted (R182, U16; log entry 17). -/
def playbackRate (pitch : Byte) : ℝ := if pitch = 64 then 4000 else Config.otherRate pitch

/-- `isAwaitingKeypress()` (R28). -/
def awaitingOut (s : State) : Bool := decide (s.run = .awaitingKey)

/-- The fault output of a step: the address of an out-of-bounds access (R191). -/
def faultOut : Host.Outcome State Fault Refusal → Option Int
  | .fault (.outOfBoundsAccess a) => some a
  | .next _ => none
  | .refused _ => none

/-- The optional diagnostic output: the unsupported word that the next instruction step absorbs (R193;
log entry 18). -/
def diagnosticOut (s : State) : Option Word :=
  match s.run, fetch s with
  | .running, .ok op => if decodeWord op = none then some op else none
  | _, _ => none

/-- A run has ended when `RUN` is STOPPED or FATAL (R208). -/
def runEnded (s : State) : Bool := !s.run.alive

end Sys2Proof.Machine
end

