-- ==== Sys2Proof/Safety.lean ====
section
/-! DEFINITION. The terms that claims use: the invariant of the machine, what a frame is, which registers
an instruction may write (spec/10_state.md R15 and section 1), the quirk that governs an instruction
(spec/70_reset_and_hazards.md R238), the pixels a sprite covers (spec/43_display.md R158 to R160), and
safe runs. -/

namespace Sys2Proof.Machine

/-! ## The invariant -/

/-- Every state a run can reach is of this form: a legal configuration (R5), memory in canonical form
and inside `MEM_SIZE` (R40), both planes in canonical form and inside `W` x `H` (R25, R26). -/
abbrev State.wf (s : State) : Prop :=
  s.config.wf ∧ Memory.wf s.config.memSize s.mem = true
    ∧ planeWf s.mode s.p1 = true ∧ planeWf s.mode s.p2 = true

/-! ## Frames -/

/-- The parts of the state, each register on its own. -/
inductive Part where
  | v (r : Reg)
  | rpl (r : Reg)
  | i
  | pc
  | sp
  | dt
  | st
  | pitch
  | plane
  | mode
  | p1
  | p2
  | run
  | keyreg
  | mem
  | config
  | keys
  | fresh
  | agenda
  deriving DecidableEq, Repr

/-- A part holds in `t` what it holds in `s`.  For memory: every byte reads as before. -/
def Part.same (s t : State) : Part → Prop
  | .v r => t.getV r = s.getV r
  | .rpl r => t.rpl[r] = s.rpl[r]
  | .i => t.i = s.i
  | .pc => t.pc = s.pc
  | .sp => t.sp = s.sp
  | .dt => t.dt = s.dt
  | .st => t.st = s.st
  | .pitch => t.pitch = s.pitch
  | .plane => t.plane = s.plane
  | .mode => t.mode = s.mode
  | .p1 => t.p1 = s.p1
  | .p2 => t.p2 = s.p2
  | .run => t.run = s.run
  | .keyreg => t.keyreg = s.keyreg
  | .mem => ∀ a : Int, loadByte t a = loadByte s a
  | .config => t.config = s.config
  | .keys => t.keys = s.keys
  | .fresh => t.fresh = s.fresh
  | .agenda => t.agenda = s.agenda

/-- The frame: every part that the list does not name is the same in `t` as in `s`. -/
def ChangesOnly (s t : State) (parts : List Part) : Prop :=
  ∀ p : Part, p ∉ parts → p.same s t

/-- Every byte outside the `n` bytes at `a` reads in `t` as in `s`. -/
def MemChangesOnly (s t : State) (a : Int) (n : Nat) : Prop :=
  ∀ b : Int, b < a ∨ a + n ≤ b → loadByte t b = loadByte s b

/-- The registers `V[0..x]`, as parts. -/
def lowVParts (x : Reg) : List Part := ((List.finRange 16).filter (· ≤ x)).map .v

/-- The registers `RPL[0..x]`, as parts. -/
def lowRplParts (x : Reg) : List Part := ((List.finRange 16).filter (· ≤ x)).map .rpl

/-! ## Quirks (R238) -/

/-- The five quirk flags by name. -/
inductive Quirk where
  | shift
  | logic
  | jump
  | index
  | clip
  deriving DecidableEq, Repr

end Sys2Proof.Machine

open Sys2Proof Sys2Proof.Machine

/-! ## Which parts an instruction may write -/

/-- Everything an instruction may change: the `V` registers it names as destination or writes as a flag
(exactly the `VF` writers of R15), and the other registers by the "written by" column of
spec/10_state.md section 1.  `fresh` is the model's own. -/
def Sys2Proof.Instr.writes : Instr → List Part
  | .scd _ => [.p1, .p2]
  | .scu _ => [.p1, .p2]
  | .cls => [.p1, .p2]
  | .ret => [.pc, .sp]
  | .scr => [.p1, .p2]
  | .scl => [.p1, .p2]
  | .exit => [.run]
  | .low => [.mode, .p1, .p2]
  | .high => [.mode, .p1, .p2]
  | .jp _ => [.pc]
  | .call _ => [.mem, .pc, .sp]
  | .seImm _ _ => [.pc]
  | .sneImm _ _ => [.pc]
  | .seReg _ _ => [.pc]
  | .ldImm x _ => [.v x]
  | .addImm x _ => [.v x]
  | .ldReg x _ => [.v x]
  | .orReg x _ => [.v x, .v vf]
  | .andReg x _ => [.v x, .v vf]
  | .xorReg x _ => [.v x, .v vf]
  | .addReg x _ => [.v x, .v vf]
  | .subReg x _ => [.v x, .v vf]
  | .shrReg x _ => [.v x, .v vf]
  | .subnReg x _ => [.v x, .v vf]
  | .shlReg x _ => [.v x, .v vf]
  | .sneReg _ _ => [.pc]
  | .ldI _ => [.i]
  | .jpV0 _ => [.pc]
  | .rnd x _ => [.v x, .fresh]
  | .drw _ _ _ => [.v vf, .p1, .p2]
  | .skp _ => [.pc]
  | .sknp _ => [.pc]
  | .plane _ => [.plane]
  | .ldVxDt x => [.v x]
  | .ldVxK _ => [.keyreg, .run]
  | .ldDtVx _ => [.dt]
  | .ldStVx _ => [.st]
  | .addI _ => [.i]
  | .ldF _ => [.i]
  | .ldHf _ => [.i]
  | .ldB _ => [.mem]
  | .pitch _ => [.pitch]
  | .storeRegs _ => [.mem, .i]
  | .loadRegs x => .i :: lowVParts x
  | .storeRpl x => lowRplParts x
  | .loadRpl x => lowVParts x

/-- The instructions that access memory beyond their fetch (R48, R192): the only ones that can fault. -/
def Sys2Proof.Instr.accessesMemory : Instr → Bool
  | .call _ => true
  | .ret => true
  | .drw _ _ _ => true
  | .ldB _ => true
  | .storeRegs _ => true
  | .loadRegs _ => true
  | _ => false

/-- The one flag an instruction may read, if any: "each rule of this spec reads at most one quirk flag"
(R238). -/
def Sys2Proof.Instr.quirk : Instr → Option Quirk
  | .shrReg _ _ => some .shift
  | .shlReg _ _ => some .shift
  | .orReg _ _ => some .logic
  | .andReg _ _ => some .logic
  | .xorReg _ _ => some .logic
  | .jpV0 _ => some .jump
  | .storeRegs _ => some .index
  | .loadRegs _ => some .index
  | .drw _ _ _ => some .clip
  | _ => none

/-! ## Encoding -/

namespace Sys2Proof.Machine

/-- An instruction has a word of the row `mask`, `match` of the opcode map, and that word decodes to it
(R66). -/
def EncodedAs (i : Instr) (mask pattern : Word) : Prop :=
  encode i &&& mask = pattern ∧ decodeWord (encode i) = some i

/-! ## Quirk flags of a state (R238) -/

/-- A quirk setting with one flag changed. -/
def setQuirk (qs : Quirks) (q : Quirk) (b : Bool) : Quirks :=
  match q with
  | .shift => { qs with shift := b }
  | .logic => { qs with logic := b }
  | .jump => { qs with jump := b }
  | .index => { qs with index := b }
  | .clip => { qs with clip := b }

/-- A state with one quirk flag changed. -/
def State.withQuirk (s : State) (q : Quirk) (b : Bool) : State :=
  { s with config := { s.config with quirks := setQuirk s.config.quirks q b } }

/-- A function on states, applied to an outcome's next state. -/
def mapNext (f : State → State) :
    Host.Outcome State Fault Refusal → Host.Outcome State Fault Refusal
  | .next t => .next (f t)
  | .fault r => .fault r
  | .refused r => .refused r

/-! ## Sprites, pixel by pixel -/

/-- A plane is selected by `PLANE` (R20, R148). -/
def PlaneSelected (s : State) : PlaneId → Prop
  | .one => s.plane.getLsbD 0 = true
  | .two => s.plane.getLsbD 1 = true

/-- The bytes `Dxyn` reads: the sprite's length once for each selected plane, and once when no plane is
selected (R48, R160). -/
def spriteBytesRead (s : State) (n : Nat) : Nat :=
  spriteLen s n * max 1 (selectedPlanes s.plane).length

/-- Where a plane's sprite data starts, relative to `I`: plane 2's data follows plane 1's when both are
selected (R158). -/
def spriteOffset (s : State) (n : Nat) : PlaneId → Nat
  | .one => 0
  | .two => if s.plane.getLsbD 0 then spriteLen s n else 0

/-- The sprite bit of row `r` and column offset `c` on a plane (R158): row by row, bit 7 leftmost. -/
def spriteBit (s : State) (n : Nat) (id : PlaneId) (r c : Nat) : Bool :=
  (memGet s.mem (s.i.toNat + spriteOffset s n id + (r * spriteRowBytes s n + c / 8))).getLsbD
    (7 - c % 8)

/-- The sprite bit of row `r` and column offset `c` lands on the pixel (`px`, `py`) (R159): wrapped
modulo `W` and `H`, or not wrapped with `clipQuirks`. -/
def LandsOn (s : State) (x y : Reg) (r c px py : Nat) : Prop :=
  if s.config.quirks.clip then (s.getV x).toNat + c = px ∧ (s.getV y).toNat + r = py
  else ((s.getV x).toNat + c) % s.mode.width = px ∧ ((s.getV y).toNat + r) % s.mode.height = py

/-- Some 1-bit of the sprite lands on the pixel (`px`, `py`) of a plane. -/
def SpriteCovers (s : State) (x y : Reg) (n : Nat) (id : PlaneId) (px py : Nat) : Prop :=
  ∃ r c : Nat, r * spriteRowBytes s n < spriteLen s n ∧ c < 8 * spriteRowBytes s n
    ∧ spriteBit s n id r c = true ∧ LandsOn s x y r c px py

/-- Some 1-bit of the sprite lands, on a selected plane, on a pixel that is inside the screen and holds
`b` in `s`. -/
def SpriteMeets (s : State) (x y : Reg) (n : Nat) (b : Bool) : Prop :=
  ∃ id px py, PlaneSelected s id ∧ px < s.mode.width ∧ py < s.mode.height
    ∧ SpriteCovers s x y n id px py ∧ planeGet (s.getPlane id) px py = b

/-! ## Runs -/

/-- `k` steps from `s` end in `t`, with no fault and no refusal on the way. -/
def RunsTo (k : Nat) (s t : State) : Prop := Host.Core.run Sys2Proof.core k s = .next t

/-- `k` steps from `s` meet no fault and no refusal. -/
def RunsSafely (k : Nat) (s : State) : Prop := ∃ t, RunsTo k s t

end Sys2Proof.Machine
end

