-- ==== Sys2Proof/Certificates/Slice0/Obligations.lean ====
section
/-! DEFINITION. The statements for the provers.  `s` is always the state after the fetch when a statement
is about `exec` (R80): `s.pc` is the address of the following instruction. -/

open Sys2Proof Sys2Proof.Machine

/-! ## Reset, configuration, launch -/

/-- The constants of the reset table (spec/70_reset_and_hazards.md section 1).  `KEYREG` is unspecified
there and is not stated. -/
def Obligations.ResetStateHoldsTheConstants : Prop :=
  State.reset.pc = 0x200 ∧ State.reset.sp = 0x52
    ∧ (∀ r : Reg, State.reset.getV r = 0 ∧ State.reset.rpl[r] = 0)
    ∧ State.reset.i = 0 ∧ State.reset.dt = 0 ∧ State.reset.st = 0 ∧ State.reset.pitch = 64
    ∧ State.reset.plane = 1 ∧ State.reset.mode = .normal
    ∧ (∀ id px py, planeGet (State.reset.getPlane id) px py = false)
    ∧ State.reset.run = .running

/-- R220, R222: from every state the reset signal restores the constants, keeps every byte of memory and
the configuration, and takes the new quirks if the host presents any. -/
def Obligations.ResetSignalRestoresTheConstants : Prop :=
  ∀ (s : State) (q : Option Quirks), ∃ t, perform (.reset q) s = .next t
    ∧ t.pc = 0x200 ∧ t.sp = 0x52 ∧ (∀ r : Reg, t.getV r = 0 ∧ t.rpl[r] = 0)
    ∧ t.i = 0 ∧ t.dt = 0 ∧ t.st = 0 ∧ t.pitch = 64 ∧ t.plane = 1 ∧ t.mode = .normal
    ∧ (∀ id px py, planeGet (t.getPlane id) px py = false) ∧ t.run = .running
    ∧ toneOn t = false
    ∧ (∀ a : Int, loadByte t a = loadByte s a)
    ∧ t.config.memSize = s.config.memSize ∧ t.config.bigFontBase = s.config.bigFontBase
    ∧ t.config.quirks = q.getD s.config.quirks

/-- From R221: two resets leave the same state as one, and the state after a reset does not depend on the
state before it but for memory and configuration.  The model's choices it rests on: `KEYREG` is 0 after
a reset (log entry 11; R220 leaves it unspecified), the key inputs stay (12), and so do the model's own
`fresh` and `agenda` (13). -/
def Obligations.ResetIsIdempotentAndForgets : Prop :=
  (∀ (s : State) (q : Option Quirks), ∃ t, perform (.reset q) s = .next t
      ∧ perform (.reset q) t = .next t ∧ perform (.reset none) t = .next t)
  ∧ ∀ (s s' : State) (q : Option Quirks), s.mem = s'.mem → s.config = s'.config →
      s.keys = s'.keys → s.fresh = s'.fresh → s.agenda = s'.agenda →
      perform (.reset q) s = perform (.reset q) s'

/-- R6: exactly the configurations of R5's table are constructed. -/
def Obligations.OnlyLegalConfigurationsAreBuilt : Prop :=
  ∀ (size : Nat) (q : Quirks) (base : Nat),
    ((size = 4096 ∨ size = 65536) → base < size →
      ∃ c, Config.build size q base = .ok c ∧ c.memSize.bytes = size ∧ c.quirks = q
        ∧ c.bigFontBase = base ∧ c.wf)
    ∧ (¬ (size = 4096 ∨ size = 65536) → Config.build size q base = .error (.badMemSize size))
    ∧ ((size = 4096 ∨ size = 65536) → size ≤ base →
      Config.build size q base = .error (.badFontBase base))

/-! ## Memory -/

/-- R42, R43: a write in bounds is read back and changes no other byte; an access out of bounds raises
`OutOfBoundsAccess` with its address.  It holds of every cell list, canonical or not. -/
def Obligations.MemoryReadsWhatWasWritten : Prop :=
  ∀ (s : State) (a : Int) (v : Byte),
    ((0 ≤ a ∧ a < s.config.memSize.bytes) →
      (∃ b, loadByte s a = .ok b)
        ∧ ∃ t, storeByte s a v = .ok t ∧ loadByte t a = .ok v
          ∧ (∀ b : Int, b ≠ a → loadByte t b = loadByte s b) ∧ ChangesOnly s t [.mem])
    ∧ (¬ (0 ≤ a ∧ a < s.config.memSize.bytes) →
      loadByte s a = .error (.outOfBoundsAccess a)
        ∧ storeByte s a v = .error (.outOfBoundsAccess a))

/-- R50: a word stored at `PC`, byte by byte, is the word the next fetch reads, with nothing between. -/
def Obligations.FetchSeesStoresAtOnce : Prop :=
  ∀ (s : State) (hi lo : Byte), s.pc.toNat + 1 < s.config.memSize.bytes →
    ∃ t u, storeByte s s.pc.toNat hi = .ok t ∧ storeByte t (s.pc.toNat + 1) lo = .ok u
      ∧ fetch u = .ok (BitVec.ofNat 16 (hi.toNat * 256 + lo.toNat))

/-! ## Decoding -/

/-- R66: a word decodes to an instruction exactly when it matches a row of the opcode map, and then to an
instruction of that row; no two rows overlap. -/
def Obligations.DecodingFollowsTheOpcodeMap : Prop :=
  opcodeMap.length = 46
  ∧ (∀ op : Word, ∀ row ∈ opcodeMap, op &&& row.1 = row.2 →
      ∃ i, decodeWord op = some i ∧ i.tableRow = row)
  ∧ (∀ (op : Word) (i : Instr), decodeWord op = some i →
      i.tableRow ∈ opcodeMap ∧ op &&& i.tableRow.1 = i.tableRow.2)
  ∧ (∀ op : Word, ∀ row ∈ opcodeMap, ∀ row' ∈ opcodeMap,
      op &&& row.1 = row.2 → op &&& row'.1 = row'.2 → row = row')

/-- Decode and encode agree: every well-formed instruction, with every operand, decodes back from its
word, and from its bytes in front of any others. -/
def Obligations.DecodeOfEncodeIsTheInstruction : Prop :=
  ∀ (i : Instr) (rest : List Byte), i.wellFormed = true →
    decodeWord (encode i) = some i ∧ decode (encodeBytes i ++ rest) = .ok (i, rest)

/-- The other direction: a word that decodes gives a well-formed instruction whose word is the same but
for the bits the core ignores: `op[11:8]` in family 0 and `op[3:0]` in families 5 and 9. -/
def Obligations.EncodeOfDecodeDropsOnlyIgnoredBits : Prop :=
  ∀ (op : Word) (i : Instr), decodeWord op = some i →
    i.wellFormed = true
    ∧ encode i = op &&& (if op.extractLsb' 12 4 = 0x0 then 0xF0FF
        else if op.extractLsb' 12 4 = 0x5 ∨ op.extractLsb' 12 4 = 0x9 then 0xFFF0 else 0xFFFF)

/-- R67: every word of families 5 and 9 is the skip of its two registers, whatever its low nibble. -/
def Obligations.FamiliesFiveAndNineIgnoreTheLowNibble : Prop :=
  ∀ (x y : Reg) (low : BitVec 4),
    decodeWord (BitVec.ofNat 16 (0x5000 + 256 * x.val + 16 * y.val + low.toNat)) = some (.seReg x y)
    ∧ decodeWord (BitVec.ofNat 16 (0x9000 + 256 * x.val + 16 * y.val + low.toNat))
      = some (.sneReg x y)

/-- Words of every family, written out from the opcode map and from T-ENC-1, T-ENC-2 of
spec/95_test_vectors.md, and four unsupported words. -/
def Obligations.SampleWordsDecode : Prop :=
  decodeWord 0x6005 = some (.ldImm 0 5) ∧ decodeWord 0x0ACF = some (.scd 15)
    ∧ decodeWord 0x00D3 = some (.scu 3) ∧ decodeWord 0x0FEE = some .ret
    ∧ decodeWord 0x5AB7 = some (.seReg 0xA 0xB) ∧ decodeWord 0x8ABE = some (.shlReg 0xA 0xB)
    ∧ decodeWord 0xEA9E = some (.skp 0xA) ∧ decodeWord 0xF701 = some (.plane 7)
    ∧ decodeWord 0xFF85 = some (.loadRpl 0xF) ∧ decodeWord 0xD123 = some (.drw 1 2 3)
    ∧ decodeWord 0xB210 = some (.jpV0 0x210) ∧ decodeWord 0xF03A = some (.pitch 0)
    ∧ decodeWord 0x1ABC = some (.jp 0xABC) ∧ decodeWord 0x220A = some (.call 0x20A)
    ∧ decodeWord 0x3542 = some (.seImm 5 0x42) ∧ decodeWord 0x4307 = some (.sneImm 3 7)
    ∧ decodeWord 0x7A0F = some (.addImm 0xA 0x0F) ∧ decodeWord 0x9AB3 = some (.sneReg 0xA 0xB)
    ∧ decodeWord 0xA300 = some (.ldI 0x300) ∧ decodeWord 0xC30F = some (.rnd 3 0x0F)
    ∧ decodeWord 0x0123 = none ∧ decodeWord 0x8AB8 = none ∧ decodeWord 0xF002 = none
    ∧ decodeWord 0xE09F = none

/-! ## The instruction step -/

/-- From R80: in RUNNING, when the step is the instruction step (the agenda is empty or names it next: the
model's choice, log entry 5) and the two bytes at `PC`, high byte first, decode to `i`, the step is
`exec i` on the state with `PC` advanced by 2 modulo 2^16. -/
def Obligations.StepRunsTheDecodedInstruction : Prop :=
  ∀ (s : State) (rest : List Event) (hi lo : Byte) (i : Instr), s.run = .running →
    (s.agenda = [] ∧ rest = [] ∨ s.agenda = .instruction :: rest) →
    loadByte s s.pc.toNat = .ok hi → loadByte s (s.pc.toNat + 1) = .ok lo →
    decodeWord (BitVec.ofNat 16 (hi.toNat * 256 + lo.toNat)) = some i →
    step s = exec i { s with pc := s.pc + 2, agenda := rest }

/-- From R193: a word that matches no row of the opcode map is a no-op after the advance of `PC`.  That an
empty agenda lets the core step by itself, and that the step takes its event off the agenda, is the
model's choice (log entry 5). -/
def Obligations.UnsupportedWordIsANoOp : Prop :=
  ∀ (s : State) (rest : List Event) (hi lo : Byte), s.run = .running →
    (s.agenda = [] ∧ rest = [] ∨ s.agenda = .instruction :: rest) →
    loadByte s s.pc.toNat = .ok hi → loadByte s (s.pc.toNat + 1) = .ok lo →
    (∀ row ∈ opcodeMap, BitVec.ofNat 16 (hi.toNat * 256 + lo.toNat) &&& row.1 ≠ row.2) →
    ∃ t, step s = .next t ∧ t.pc = s.pc + 2 ∧ t.run = .running ∧ t.agenda = rest
      ∧ ChangesOnly s t [.pc, .agenda]

/-- From R45 and R80: the fetch is big-endian; when the byte at `PC` is out of bounds it raises that
address, when only the second is, `OutOfBoundsAccess(MEM_SIZE)`, in every state.  In RUNNING a step that
is the instruction step (the agenda is empty or names it next: the model's choice, log entry 5) stops
with the same fault. -/
def Obligations.FetchIsBigEndianAndFaultsAtTheFirstByteOutside : Prop :=
  ∀ (s : State) (rest : List Event),
    (s.pc.toNat + 1 < s.config.memSize.bytes →
      fetch s = .ok (BitVec.ofNat 16
        ((memGet s.mem s.pc.toNat).toNat * 256 + (memGet s.mem (s.pc.toNat + 1)).toNat)))
    ∧ (s.config.memSize.bytes ≤ s.pc.toNat →
      fetch s = .error (.outOfBoundsAccess s.pc.toNat)
        ∧ (s.run = .running → (s.agenda = [] ∧ rest = [] ∨ s.agenda = .instruction :: rest) →
          step s = .fault (.outOfBoundsAccess s.pc.toNat)))
    ∧ (s.pc.toNat + 1 = s.config.memSize.bytes →
      fetch s = .error (.outOfBoundsAccess s.config.memSize.bytes)
        ∧ (s.run = .running → (s.agenda = [] ∧ rest = [] ∨ s.agenda = .instruction :: rest) →
          step s = .fault (.outOfBoundsAccess s.config.memSize.bytes)))

/-! ## Arithmetic, logic, shift, random -/

/-- R100, R101, R102: move-immediate, add-immediate modulo 256 and move, for every register, `VF`
included; no other part changes, so `VF` is no flag of them. -/
def Obligations.LoadAndAddImmediateResults : Prop :=
  ∀ (x y : Reg) (nn : Byte) (s : State),
    (EncodedAs (.ldImm x nn) 0xF000 0x6000
      ∧ ∃ t, exec (.ldImm x nn) s = .next t ∧ t.getV x = nn ∧ ChangesOnly s t [.v x])
    ∧ (EncodedAs (.addImm x nn) 0xF000 0x7000
      ∧ ∃ t, exec (.addImm x nn) s = .next t
        ∧ (t.getV x).toNat = ((s.getV x).toNat + nn.toNat) % 256 ∧ ChangesOnly s t [.v x])
    ∧ (EncodedAs (.ldReg x y) 0xF00F 0x8000
      ∧ ∃ t, exec (.ldReg x y) s = .next t ∧ t.getV x = s.getV y ∧ ChangesOnly s t [.v x])

/-- R103, R104, R105: bit by bit, the logic result in `V[x]`; with `logicQuirks` `VF` ends 0, also when
it is the destination, and without it `VF` is touched only as a destination. -/
def Obligations.LogicResultsAndTheLogicQuirk : Prop :=
  ∀ (x y : Reg) (s : State) (i : Instr) (pattern : Word) (f : Bool → Bool → Bool),
    ((i, pattern, f) = (.orReg x y, 0x8001, fun a b => a || b)
      ∨ (i, pattern, f) = (.andReg x y, 0x8002, fun a b => a && b)
      ∨ (i, pattern, f) = (.xorReg x y, 0x8003, fun a b => a ^^ b)) →
    EncodedAs i 0xF00F pattern
    ∧ ∃ t, exec i s = .next t
      ∧ ((x ≠ vf ∨ s.config.quirks.logic = false) → ∀ k, k < 8 →
          (t.getV x).getLsbD k = f ((s.getV x).getLsbD k) ((s.getV y).getLsbD k))
      ∧ (s.config.quirks.logic = true → t.getV vf = 0 ∧ ChangesOnly s t [.v x, .v vf])
      ∧ (s.config.quirks.logic = false → ChangesOnly s t [.v x])

/-- R106, R107, R110: ADD, SUB and SUBN in exact arithmetic: the result modulo 256 in `V[x]` unless `x` is
`VF`, and `VF` is the carry, or "no borrow", for every `x`.  Both operands are the values before. -/
def Obligations.AddAndSubtractResultsAndFlags : Prop :=
  ∀ (x y : Reg) (s : State),
    (EncodedAs (.addReg x y) 0xF00F 0x8004
      ∧ ∃ t, exec (.addReg x y) s = .next t
        ∧ (x ≠ vf → (t.getV x).toNat = ((s.getV x).toNat + (s.getV y).toNat) % 256)
        ∧ (t.getV vf).toNat = (if 255 < (s.getV x).toNat + (s.getV y).toNat then 1 else 0)
        ∧ ChangesOnly s t [.v x, .v vf])
    ∧ (EncodedAs (.subReg x y) 0xF00F 0x8005
      ∧ ∃ t, exec (.subReg x y) s = .next t
        ∧ (x ≠ vf → ((t.getV x).toNat : Int) = (((s.getV x).toNat : Int) - (s.getV y).toNat) % 256)
        ∧ (t.getV vf).toNat = (if (s.getV y).toNat ≤ (s.getV x).toNat then 1 else 0)
        ∧ ChangesOnly s t [.v x, .v vf])
    ∧ (EncodedAs (.subnReg x y) 0xF00F 0x8007
      ∧ ∃ t, exec (.subnReg x y) s = .next t
        ∧ (x ≠ vf → ((t.getV x).toNat : Int) = (((s.getV y).toNat : Int) - (s.getV x).toNat) % 256)
        ∧ (t.getV vf).toNat = (if (s.getV x).toNat ≤ (s.getV y).toNat then 1 else 0)
        ∧ ChangesOnly s t [.v x, .v vf])

/-- R109, R111: the shifts by one of `V[y]`, or of `V[x]` with `shiftQuirks`; `VF` is the bit shifted
out, for every `x`. -/
def Obligations.ShiftResultsAndTheShiftQuirk : Prop :=
  ∀ (x y : Reg) (s : State) (src : Nat),
    src = (if s.config.quirks.shift then (s.getV x).toNat else (s.getV y).toNat) →
    (EncodedAs (.shrReg x y) 0xF00F 0x8006
      ∧ ∃ t, exec (.shrReg x y) s = .next t
        ∧ (x ≠ vf → (t.getV x).toNat = src / 2) ∧ (t.getV vf).toNat = src % 2
        ∧ ChangesOnly s t [.v x, .v vf])
    ∧ (EncodedAs (.shlReg x y) 0xF00F 0x800E
      ∧ ∃ t, exec (.shlReg x y) s = .next t
        ∧ (x ≠ vf → (t.getV x).toNat = 2 * src % 256) ∧ (t.getV vf).toNat = src / 128
        ∧ ChangesOnly s t [.v x, .v vf])

/-- R112 with the model's free byte (log entry 9): the draw masked by `nn`, no bit outside the mask, and
the next draw is another use of the free value.  It holds for every value of the free byte. -/
def Obligations.RandomByteIsMasked : Prop :=
  ∀ (x : Reg) (nn : Byte) (s : State), EncodedAs (.rnd x nn) 0xF000 0xC000
    ∧ ∃ t, exec (.rnd x nn) s = .next t ∧ t.getV x = Config.drawByte s.fresh &&& nn
      ∧ t.getV x &&& ~~~nn = 0 ∧ t.fresh = s.fresh + 1 ∧ ChangesOnly s t [.v x, .fresh]

/-! ## Control transfer -/

/-- R82, R90: the two jumps; the offset register of `Bnnn` is `V0`, or with `jumpQuirks` the register the
high nibble of `nnn` names, and the sum is not reduced to 12 bits. -/
def Obligations.JumpTargets : Prop :=
  ∀ (nnn : BitVec 12) (s : State) (r : Reg),
    r.val = (if s.config.quirks.jump then nnn.toNat / 256 else 0) →
    (EncodedAs (.jp nnn) 0xF000 0x1000
      ∧ ∃ t, exec (.jp nnn) s = .next t ∧ t.pc.toNat = nnn.toNat ∧ ChangesOnly s t [.pc])
    ∧ (EncodedAs (.jpV0 nnn) 0xF000 0xB000
      ∧ ∃ t, exec (.jpV0 nnn) s = .next t ∧ t.pc.toNat = nnn.toNat + (s.getV r).toNat
        ∧ ChangesOnly s t [.pc])

/-- R84: CALL pushes the return address low byte first, adds 2 to `SP` modulo 2^16 and jumps; it faults
at `SP`, or at `SP + 1` when only that is out of bounds. -/
def Obligations.CallPushesTheReturnAddress : Prop :=
  ∀ (nnn : BitVec 12) (s : State), EncodedAs (.call nnn) 0xF000 0x2000
    ∧ (s.sp.toNat + 1 < s.config.memSize.bytes →
      ∃ t, exec (.call nnn) s = .next t
        ∧ loadByte t s.sp.toNat = .ok (BitVec.ofNat 8 (s.pc.toNat % 256))
        ∧ loadByte t (s.sp.toNat + 1) = .ok (BitVec.ofNat 8 (s.pc.toNat / 256))
        ∧ t.sp.toNat = (s.sp.toNat + 2) % 65536 ∧ t.pc.toNat = nnn.toNat
        ∧ MemChangesOnly s t s.sp.toNat 2 ∧ ChangesOnly s t [.mem, .sp, .pc])
    ∧ (s.config.memSize.bytes ≤ s.sp.toNat →
      exec (.call nnn) s = .fault (.outOfBoundsAccess s.sp.toNat))
    ∧ (s.sp.toNat + 1 = s.config.memSize.bytes →
      exec (.call nnn) s = .fault (.outOfBoundsAccess (s.sp.toNat + 1)))

/-- R85: RET loads the 16 bits at `SP - 1`, `SP - 2` and subtracts 2 from `SP`; with `SP` < 2 the address
-1 is out of bounds, and past the end of memory `SP - 1` is. -/
def Obligations.ReturnPopsTheAddress : Prop :=
  ∀ s : State, EncodedAs .ret 0xF0FF 0x00EE
    ∧ (2 ≤ s.sp.toNat → s.sp.toNat ≤ s.config.memSize.bytes →
      ∃ t, exec .ret s = .next t
        ∧ t.pc.toNat = (memGet s.mem (s.sp.toNat - 1)).toNat * 256
          + (memGet s.mem (s.sp.toNat - 2)).toNat
        ∧ t.sp.toNat = s.sp.toNat - 2 ∧ ChangesOnly s t [.sp, .pc])
    ∧ (s.sp.toNat < 2 → exec .ret s = .fault (.outOfBoundsAccess (-1)))
    ∧ (s.config.memSize.bytes < s.sp.toNat →
      exec .ret s = .fault (.outOfBoundsAccess (s.sp.toNat - 1)))

/-- A CALL and then a RET come back: `PC` and `SP` are as before the pair, and of memory only the two
stack bytes may differ.  At `SP` = 0xFFFE the push wraps `SP` to 0 and the RET faults. -/
def Obligations.CallThenReturnComesBack : Prop :=
  ∀ (nnn : BitVec 12) (s : State), s.sp.toNat + 1 < s.config.memSize.bytes →
    (s.sp.toNat + 2 < 65536 →
      ∃ t u, exec (.call nnn) s = .next t ∧ exec .ret t = .next u
        ∧ u.pc = s.pc ∧ u.sp = s.sp ∧ MemChangesOnly s u s.sp.toNat 2
        ∧ ChangesOnly s u [.mem])
    ∧ (s.sp.toNat + 2 = 65536 →
      ∃ t, exec (.call nnn) s = .next t ∧ exec .ret t = .fault (.outOfBoundsAccess (-1)))

/-- R87, R88, R89, R91: the four skips compare unsigned bytes and advance `PC` by 2 once more, modulo
2^16, when their condition holds. -/
def Obligations.ConditionalSkips : Prop :=
  ∀ (x y : Reg) (nn : Byte) (s : State),
    (EncodedAs (.seImm x nn) 0xF000 0x3000 ∧ ∃ t, exec (.seImm x nn) s = .next t
      ∧ t.pc.toNat = (if (s.getV x).toNat = nn.toNat then (s.pc.toNat + 2) % 65536 else s.pc.toNat)
      ∧ ChangesOnly s t [.pc])
    ∧ (EncodedAs (.sneImm x nn) 0xF000 0x4000 ∧ ∃ t, exec (.sneImm x nn) s = .next t
      ∧ t.pc.toNat = (if (s.getV x).toNat = nn.toNat then s.pc.toNat else (s.pc.toNat + 2) % 65536)
      ∧ ChangesOnly s t [.pc])
    ∧ (EncodedAs (.seReg x y) 0xF000 0x5000 ∧ ∃ t, exec (.seReg x y) s = .next t
      ∧ t.pc.toNat = (if (s.getV x).toNat = (s.getV y).toNat then (s.pc.toNat + 2) % 65536
          else s.pc.toNat)
      ∧ ChangesOnly s t [.pc])
    ∧ (EncodedAs (.sneReg x y) 0xF000 0x9000 ∧ ∃ t, exec (.sneReg x y) s = .next t
      ∧ t.pc.toNat = (if (s.getV x).toNat = (s.getV y).toNat then s.pc.toNat
          else (s.pc.toNat + 2) % 65536)
      ∧ ChangesOnly s t [.pc])

/-- From R86: EXIT sets `RUN` to STOPPED and keeps everything else; the tone is off afterwards and the run
has ended.  In RUNNING it is the kill signal.  That an instruction, key-poll or tick event, none of them
enabled afterwards, answers the same state is the model's choice (log entry 6). -/
def Obligations.ExitStopsTheRun : Prop :=
  ∀ s : State, EncodedAs .exit 0xF0FF 0x00FD
    ∧ (s.run = .running → exec .exit s = perform .kill s)
    ∧ ∃ t, exec .exit s = .next t ∧ t.run = .stopped ∧ ChangesOnly s t [.run]
      ∧ toneOn t = false ∧ runEnded t = true
      ∧ ∀ e ∈ [Event.instruction, .keyPoll, .tick], perform e t = .next t

/-! ## Index register, memory transfers, RPL -/

/-- R120, R121, R122, R123: the four writers of `I`; the sum wraps at 2^16, a glyph number is not masked,
and `VF` is not written. -/
def Obligations.IndexRegisterWriters : Prop :=
  ∀ (nnn : BitVec 12) (x : Reg) (s : State),
    (EncodedAs (.ldI nnn) 0xF000 0xA000
      ∧ ∃ t, exec (.ldI nnn) s = .next t ∧ t.i.toNat = nnn.toNat ∧ ChangesOnly s t [.i])
    ∧ (EncodedAs (.addI x) 0xF0FF 0xF01E
      ∧ ∃ t, exec (.addI x) s = .next t ∧ t.i.toNat = (s.i.toNat + (s.getV x).toNat) % 65536
        ∧ ChangesOnly s t [.i])
    ∧ (EncodedAs (.ldF x) 0xF0FF 0xF029
      ∧ ∃ t, exec (.ldF x) s = .next t ∧ t.i.toNat = 5 * (s.getV x).toNat ∧ ChangesOnly s t [.i])
    ∧ (EncodedAs (.ldHf x) 0xF0FF 0xF030
      ∧ ∃ t, exec (.ldHf x) s = .next t
        ∧ t.i.toNat = (s.config.bigFontBase + 10 * (s.getV x).toNat) % 65536
        ∧ ChangesOnly s t [.i])

/-- R124: the three decimal digits of `V[x]` at `I`, `I + 1`, `I + 2`, most significant first; `I` and
`V[x]` stay; the fault is at the first byte out of bounds. -/
def Obligations.DecimalStore : Prop :=
  ∀ (x : Reg) (s : State), EncodedAs (.ldB x) 0xF0FF 0xF033
    ∧ (s.i.toNat + 2 < s.config.memSize.bytes →
      ∃ (t : State) (h d o : Byte), exec (.ldB x) s = .next t
        ∧ loadByte t s.i.toNat = .ok h ∧ loadByte t (s.i.toNat + 1) = .ok d
        ∧ loadByte t (s.i.toNat + 2) = .ok o
        ∧ d.toNat < 10 ∧ o.toNat < 10
        ∧ 100 * h.toNat + 10 * d.toNat + o.toNat = (s.getV x).toNat
        ∧ MemChangesOnly s t s.i.toNat 3 ∧ ChangesOnly s t [.mem])
    ∧ (s.config.memSize.bytes ≤ s.i.toNat + 2 →
      exec (.ldB x) s = .fault (.outOfBoundsAccess (max s.i.toNat s.config.memSize.bytes : Nat)))

/-- R125: `V[0..x]` in ascending order at `I`; `I` advances past the block unless `indexQuirks`; the
fault is at the first byte out of bounds. -/
def Obligations.BlockStore : Prop :=
  ∀ (x : Reg) (s : State), EncodedAs (.storeRegs x) 0xF0FF 0xF055
    ∧ (s.i.toNat + x.val < s.config.memSize.bytes →
      ∃ t, exec (.storeRegs x) s = .next t
        ∧ (∀ r : Reg, r ≤ x → loadByte t (s.i.toNat + r.val) = .ok (s.getV r))
        ∧ t.i.toNat = (if s.config.quirks.index then s.i.toNat
            else (s.i.toNat + x.val + 1) % 65536)
        ∧ MemChangesOnly s t s.i.toNat (x.val + 1) ∧ ChangesOnly s t [.mem, .i])
    ∧ (s.config.memSize.bytes ≤ s.i.toNat + x.val →
      exec (.storeRegs x) s
        = .fault (.outOfBoundsAccess (max s.i.toNat s.config.memSize.bytes : Nat)))

/-- R126: `V[0..x]` from ascending addresses at `I`; `I` advances past the block unless `indexQuirks`;
registers above `x` and memory stay; the fault is at the first byte out of bounds.  The last clause is
the rule's round trip: after a block store, a block load of the same registers from the same base
reproduces them, in every state whose memory reads as the store left it. -/
def Obligations.BlockLoad : Prop :=
  ∀ (x : Reg) (s : State), EncodedAs (.loadRegs x) 0xF0FF 0xF065
    ∧ (s.i.toNat + x.val < s.config.memSize.bytes →
      ∃ t, exec (.loadRegs x) s = .next t
        ∧ (∀ r : Reg, r ≤ x → loadByte s (s.i.toNat + r.val) = .ok (t.getV r))
        ∧ t.i.toNat = (if s.config.quirks.index then s.i.toNat
            else (s.i.toNat + x.val + 1) % 65536)
        ∧ ChangesOnly s t (.i :: lowVParts x))
    ∧ (s.config.memSize.bytes ≤ s.i.toNat + x.val →
      exec (.loadRegs x) s
        = .fault (.outOfBoundsAccess (max s.i.toNat s.config.memSize.bytes : Nat)))
    ∧ (s.i.toNat + x.val < s.config.memSize.bytes →
      ∃ t, exec (.storeRegs x) s = .next t
        ∧ ∀ u : State, u.i = s.i → (∀ a : Int, loadByte u a = loadByte t a) →
          ∃ w, exec (.loadRegs x) u = .next w ∧ ∀ r : Reg, r ≤ x → w.getV r = s.getV r)

/-- R127, R128: the RPL copies of `V[0..x]`, for every `x`; entries above `x` and everything else stay. -/
def Obligations.RplCopies : Prop :=
  ∀ (x : Reg) (s : State),
    (EncodedAs (.storeRpl x) 0xF0FF 0xF075
      ∧ ∃ t, exec (.storeRpl x) s = .next t ∧ (∀ r : Reg, r ≤ x → t.rpl[r] = s.getV r)
        ∧ ChangesOnly s t (lowRplParts x))
    ∧ (EncodedAs (.loadRpl x) 0xF0FF 0xF085
      ∧ ∃ t, exec (.loadRpl x) s = .next t ∧ (∀ r : Reg, r ≤ x → t.getV r = s.rpl[r])
        ∧ ChangesOnly s t (lowVParts x))

/-! ## Display -/

/-- R142, R150: CLS clears every pixel of every selected plane and leaves the other plane. -/
def Obligations.ClearScreen : Prop :=
  ∀ s : State, EncodedAs .cls 0xF0FF 0x00E0
    ∧ ∃ t, exec .cls s = .next t ∧ ChangesOnly s t [.p1, .p2]
      ∧ ∀ id : PlaneId,
        (PlaneSelected s id → ∀ px py, planeGet (t.getPlane id) px py = false)
        ∧ (¬ PlaneSelected s id → t.getPlane id = s.getPlane id)

/-- R143, R144, R151, R152: the vertical scrolls by `n` rows, pixel by pixel, of every selected plane. -/
def Obligations.VerticalScrolls : Prop :=
  ∀ (n : Fin 16) (s : State),
    (EncodedAs (.scd n.val) 0xF0F0 0x00C0
      ∧ ∃ t, exec (.scd n.val) s = .next t ∧ ChangesOnly s t [.p1, .p2]
        ∧ ∀ id : PlaneId,
          (PlaneSelected s id → ∀ px py, px < s.mode.width → py < s.mode.height →
            planeGet (t.getPlane id) px py
              = if n.val ≤ py then planeGet (s.getPlane id) px (py - n.val) else false)
          ∧ (¬ PlaneSelected s id → t.getPlane id = s.getPlane id))
    ∧ (EncodedAs (.scu n.val) 0xF0F0 0x00D0
      ∧ ∃ t, exec (.scu n.val) s = .next t ∧ ChangesOnly s t [.p1, .p2]
        ∧ ∀ id : PlaneId,
          (PlaneSelected s id → ∀ px py, px < s.mode.width → py < s.mode.height →
            planeGet (t.getPlane id) px py
              = if py + n.val < s.mode.height then planeGet (s.getPlane id) px (py + n.val)
                else false)
          ∧ (¬ PlaneSelected s id → t.getPlane id = s.getPlane id))

/-- R145, R146, R153, R154: the horizontal scrolls by 4 columns in both modes, pixel by pixel. -/
def Obligations.HorizontalScrolls : Prop :=
  ∀ s : State,
    (EncodedAs .scr 0xF0FF 0x00FB
      ∧ ∃ t, exec .scr s = .next t ∧ ChangesOnly s t [.p1, .p2]
        ∧ ∀ id : PlaneId,
          (PlaneSelected s id → ∀ px py, px < s.mode.width → py < s.mode.height →
            planeGet (t.getPlane id) px py
              = if 4 ≤ px then planeGet (s.getPlane id) (px - 4) py else false)
          ∧ (¬ PlaneSelected s id → t.getPlane id = s.getPlane id))
    ∧ (EncodedAs .scl 0xF0FF 0x00FC
      ∧ ∃ t, exec .scl s = .next t ∧ ChangesOnly s t [.p1, .p2]
        ∧ ∀ id : PlaneId,
          (PlaneSelected s id → ∀ px py, px < s.mode.width → py < s.mode.height →
            planeGet (t.getPlane id) px py
              = if px + 4 < s.mode.width then planeGet (s.getPlane id) (px + 4) py else false)
          ∧ (¬ PlaneSelected s id → t.getPlane id = s.getPlane id))

/-- R147, R155, R156: LOW and HIGH set the mode and clear both planes, whatever `PLANE` and the mode were;
`PLANE` stays. -/
def Obligations.ModeSwitches : Prop :=
  ∀ s : State,
    (EncodedAs .low 0xF0FF 0x00FE
      ∧ ∃ t, exec .low s = .next t ∧ t.mode = .normal ∧ t.mode.width = 64 ∧ t.mode.height = 32
        ∧ (∀ id px py, planeGet (t.getPlane id) px py = false)
        ∧ ChangesOnly s t [.mode, .p1, .p2])
    ∧ (EncodedAs .high 0xF0FF 0x00FF
      ∧ ∃ t, exec .high s = .next t ∧ t.mode = .extended ∧ t.mode.width = 128
        ∧ t.mode.height = 64
        ∧ (∀ id px py, planeGet (t.getPlane id) px py = false)
        ∧ ChangesOnly s t [.mode, .p1, .p2])

/-- R157: `PLANE` becomes the low two bits of the field, for all 16 values; the display stays. -/
def Obligations.PlaneSelect : Prop :=
  ∀ (n : BitVec 4) (s : State), EncodedAs (.plane n) 0xF0FF 0xF001
    ∧ ∃ t, exec (.plane n) s = .next t ∧ t.plane.toNat = n.toNat % 4 ∧ ChangesOnly s t [.plane]

/-- R160 in closed form: when the sprite bytes are in bounds (none is read when the length is 0), DRW
XORs exactly the pixels that a 1-bit of the sprite covers, on every selected plane, and `VF` is 1 iff
some covered pixel of a selected plane was on before; nothing else changes, `I` and memory included.
When some sprite byte is out of bounds it faults at the first such address, also when no plane is
selected and nothing would be drawn. -/
def Obligations.DrawIsXorWithCollision : Prop :=
  ∀ (x y : Reg) (n : Fin 16) (s : State), EncodedAs (.drw x y n.val) 0xF000 0xD000
    ∧ (spriteBytesRead s n.val = 0
        ∨ s.i.toNat + spriteBytesRead s n.val ≤ s.config.memSize.bytes →
      ∃ t, exec (.drw x y n.val) s = .next t ∧ ChangesOnly s t [.v vf, .p1, .p2]
        ∧ (∀ id : PlaneId,
          (PlaneSelected s id → ∀ px py, px < s.mode.width → py < s.mode.height →
            (planeGet (t.getPlane id) px py = true
              ↔ ¬ (planeGet (s.getPlane id) px py = true ↔ SpriteCovers s x y n.val id px py)))
          ∧ (¬ PlaneSelected s id → t.getPlane id = s.getPlane id))
        ∧ (t.getV vf = 0 ∨ t.getV vf = 1)
        ∧ (t.getV vf = 1 ↔ SpriteMeets s x y n.val true))
    ∧ (spriteBytesRead s n.val ≠ 0 →
      s.config.memSize.bytes < s.i.toNat + spriteBytesRead s n.val →
      exec (.drw x y n.val) s
        = .fault (.outOfBoundsAccess (max s.i.toNat s.config.memSize.bytes : Nat)))

/-- R161: a second draw of the same sprite at the same place restores every pixel of the screen, for
either setting of `clipQuirks`; its `VF` is 1 iff a landed 1-bit covers a pixel that was off before the
first draw.  `x` and `y` are not `VF`, which the first draw changes. -/
def Obligations.DrawingTwiceRestoresTheScreen : Prop :=
  ∀ (x y : Reg) (n : Fin 16) (s : State), x ≠ vf → y ≠ vf →
    (spriteBytesRead s n.val = 0
      ∨ s.i.toNat + spriteBytesRead s n.val ≤ s.config.memSize.bytes) →
    ∃ t u, exec (.drw x y n.val) s = .next t ∧ exec (.drw x y n.val) t = .next u
      ∧ (∀ (id : PlaneId) (px py : Nat), px < s.mode.width → py < s.mode.height →
          planeGet (u.getPlane id) px py = planeGet (s.getPlane id) px py)
      ∧ (t.getV vf = 1 ↔ SpriteMeets s x y n.val true)
      ∧ (u.getV vf = 1 ↔ SpriteMeets s x y n.val false)

/-- R159: the landed 1-bits of a sprite of at most 16 rows of 8 or 16 columns are at different pixels,
all inside the screen: no sprite overlaps itself, wrapped or clipped. -/
def Obligations.SpriteNeverOverlapsItself : Prop :=
  ∀ (clip : Bool) (m : Mode) (vx vy : Byte) (rowBytes : Nat) (bytes : List Byte),
    (rowBytes = 1 ∨ rowBytes = 2) → bytes.length ≤ 16 * rowBytes →
    (landedPixels clip m vx.toNat vy.toNat rowBytes bytes).Nodup
    ∧ ∀ q ∈ landedPixels clip m vx.toNat vy.toNat rowBytes bytes, q.1 < m.width ∧ q.2 < m.height

/-- R237: with `PLANE` = 0 every display instruction leaves every pixel, and DRW sets `VF` to 0. -/
def Obligations.NoPlaneSelectedDrawsNothing : Prop :=
  ∀ (s : State) (n : Fin 16) (x y : Reg), s.plane = 0 →
    (∀ i ∈ [Instr.cls, .scd n.val, .scu n.val, .scr, .scl], exec i s = .next s)
    ∧ (s.i.toNat + spriteLen s n.val ≤ s.config.memSize.bytes →
      ∃ t, exec (.drw x y n.val) s = .next t ∧ t.p1 = s.p1 ∧ t.p2 = s.p2 ∧ t.getV vf = 0
        ∧ ChangesOnly s t [.v vf])
    ∧ (spriteLen s n.val ≠ 0 → s.config.memSize.bytes < s.i.toNat + spriteLen s n.val →
      ∃ a, exec (.drw x y n.val) s = .fault (.outOfBoundsAccess a))

/-! ## Keypad, timers, sound -/

/-- R171, R172: SKP skips when the key of `V[x]` is down and SKNP when it is not; a code above 15 is never
down and is not masked. -/
def Obligations.KeySkips : Prop :=
  ∀ (x : Reg) (s : State) (down : Bool),
    (∀ h : (s.getV x).toNat < 16, down = s.keys[(s.getV x).toNat]) →
    (16 ≤ (s.getV x).toNat → down = false) →
    (EncodedAs (.skp x) 0xF0FF 0xE09E ∧ ∃ t, exec (.skp x) s = .next t
      ∧ t.pc.toNat = (if down then (s.pc.toNat + 2) % 65536 else s.pc.toNat)
      ∧ ChangesOnly s t [.pc])
    ∧ (EncodedAs (.sknp x) 0xF0FF 0xE0A1 ∧ ∃ t, exec (.sknp x) s = .next t
      ∧ t.pc.toNat = (if down then s.pc.toNat else (s.pc.toNat + 2) % 65536)
      ∧ ChangesOnly s t [.pc])

/-- From R173: LD Vx, K latches the target and enters the key wait; no `V` register and not `PC` changes.
While it waits no instruction step is enabled, and an event that names one answers the same state: the
model's choice (log entry 6). -/
def Obligations.KeyWaitBegins : Prop :=
  ∀ (x : Reg) (s : State), EncodedAs (.ldVxK x) 0xF0FF 0xF00A
    ∧ ∃ t, exec (.ldVxK x) s = .next t ∧ t.run = .awaitingKey ∧ t.keyreg = x
      ∧ awaitingOut t = true ∧ ChangesOnly s t [.keyreg, .run]
      ∧ perform .instruction t = .next t

/-- From R174: with no key down the key poll changes nothing, else the code of some key that is down goes
into `V[KEYREG]` and the core runs on; with exactly one key down it is that key.  The model's choices it
rests on: with an empty agenda the poll is the machine's own step (log entry 5), a poll event outside
AWAITING_KEY answers the same state (6), and the counter `fresh` counts the free choices (10). -/
def Obligations.KeyPollEndsTheWait : Prop :=
  ∀ s : State,
    (s.run ≠ .awaitingKey → perform .keyPoll s = .next s)
    ∧ (s.run = .awaitingKey →
      (s.agenda = [] → step s = perform .keyPoll s)
      ∧ ((∀ k : Reg, s.keys[k] = false) → perform .keyPoll s = .next s)
      ∧ ((∃ k : Reg, s.keys[k] = true) →
        ∃ (t : State) (k : Reg), perform .keyPoll s = .next t ∧ s.keys[k] = true
          ∧ (t.getV s.keyreg).toNat = k.val ∧ t.run = .running
          ∧ ChangesOnly s t [.v s.keyreg, .run, .fresh]
          ∧ ∀ only : Reg, (∀ j : Reg, s.keys[j] = true ↔ j = only) → k = only))

/-- R175, R176, R177, R178: the timer and pitch moves; the tone output follows `ST` and `PITCH` at once. -/
def Obligations.TimerAndPitchMoves : Prop :=
  ∀ (x : Reg) (s : State),
    (EncodedAs (.ldVxDt x) 0xF0FF 0xF007
      ∧ ∃ t, exec (.ldVxDt x) s = .next t ∧ t.getV x = s.dt ∧ ChangesOnly s t [.v x])
    ∧ (EncodedAs (.ldDtVx x) 0xF0FF 0xF015
      ∧ ∃ t, exec (.ldDtVx x) s = .next t ∧ t.dt = s.getV x ∧ ChangesOnly s t [.dt])
    ∧ (EncodedAs (.ldStVx x) 0xF0FF 0xF018
      ∧ ∃ t, exec (.ldStVx x) s = .next t ∧ t.st = s.getV x
        ∧ (toneOn t = true ↔ (s.getV x).toNat ≠ 0 ∧ (s.run = .running ∨ s.run = .awaitingKey))
        ∧ ChangesOnly s t [.st])
    ∧ (EncodedAs (.pitch x) 0xF0FF 0xF03A
      ∧ ∃ t, exec (.pitch x) s = .next t ∧ t.pitch = s.getV x ∧ tonePitch t = s.getV x
        ∧ ChangesOnly s t [.pitch])

/-- From R180: a tick counts both timers towards 0 without wrap while RUNNING or AWAITING_KEY, and changes
nothing else.  In STOPPED and FATAL it is not enabled, and a tick event there answers the same state: the
model's choice (log entry 6). -/
def Obligations.TickCountsBothTimersDown : Prop :=
  ∀ s : State,
    (s.run = .running ∨ s.run = .awaitingKey →
      ∃ t, perform .tick s = .next t ∧ t.dt.toNat = s.dt.toNat - 1 ∧ t.st.toNat = s.st.toNat - 1
        ∧ ChangesOnly s t [.dt, .st])
    ∧ (s.run = .stopped ∨ s.run = .fatal → perform .tick s = .next s)

/-- R180 over a run: `k` ticks, whatever the agenda holds after them, take `DT` and `ST` down by `k`,
stopping at 0, and leave everything else.  The agenda is the model's choice (log entry 5). -/
def Obligations.TicksInARowReachZero : Prop :=
  ∀ (k : Nat) (s : State) (rest : List Event), s.run = .running ∨ s.run = .awaitingKey →
    s.agenda = List.replicate k .tick ++ rest →
    ∃ t, RunsTo k s t ∧ t.dt.toNat = s.dt.toNat - k ∧ t.st.toNat = s.st.toNat - k
      ∧ t.agenda = rest ∧ ChangesOnly s t [.dt, .st, .agenda]

/-- R181: the tone output is a function of the state. -/
def Obligations.ToneFollowsTheSoundTimer : Prop :=
  ∀ s : State,
    (toneOn s = true ↔ s.st.toNat ≠ 0 ∧ (s.run = .running ∨ s.run = .awaitingKey))
    ∧ tonePitch s = s.pitch

/-! ## Host signals and the end of a run -/

/-- R203: kill stops a run that is going on and changes nothing else; in STOPPED and FATAL nothing
changes. -/
def Obligations.KillStopsTheRun : Prop :=
  ∀ s : State,
    (s.run = .running ∨ s.run = .awaitingKey →
      ∃ t, perform .kill s = .next t ∧ t.run = .stopped ∧ toneOn t = false
        ∧ ChangesOnly s t [.run])
    ∧ (s.run = .stopped ∨ s.run = .fatal → perform .kill s = .next s)

/-- From R198: STOPPED and FATAL are left only by reset: no other event changes the run state or anything
but the keypad inputs and the memory the host loads, and reset restarts the machine.  That an event not
enabled there, and a step with an empty agenda, answer the same state is the model's choice (log
entries 6, 7). -/
def Obligations.OnlyResetLeavesStoppedAndFatal : Prop :=
  ∀ s : State, s.run = .stopped ∨ s.run = .fatal →
    (s.agenda = [] → step s = .next s)
    ∧ (∀ (e : Event) (t : State), (∀ q, e ≠ .reset q) → perform e s = .next t →
        t.run = s.run ∧ ChangesOnly s t [.keys, .mem])
    ∧ ∀ q, ∃ t, perform (.reset q) s = .next t ∧ t.run = .running

/-- The host's load (R204, R223).  After a run a load that fits (or loads nothing) completes, every byte is
read back and no other changes.  The refusals are the model's (log entry 14): of every load while a run
is going on, and after it of a load that does not fit. -/
def Obligations.HostLoadsOnlyBetweenRuns : Prop :=
  ∀ (s : State) (a : Nat) (bytes : List Byte),
    (s.run = .running ∨ s.run = .awaitingKey →
      perform (.load a bytes) s = .refused .hostWriteDuringRun)
    ∧ (s.run = .stopped ∨ s.run = .fatal →
      (bytes = [] ∨ a + bytes.length ≤ s.config.memSize.bytes →
        ∃ t, perform (.load a bytes) s = .next t
          ∧ (∀ (k : Nat) (h : k < bytes.length), loadByte t ((a + k : Nat) : Int) = .ok bytes[k])
          ∧ MemChangesOnly s t a bytes.length ∧ ChangesOnly s t [.mem])
      ∧ (bytes ≠ [] → s.config.memSize.bytes < a + bytes.length →
        perform (.load a bytes) s = .refused .loadBeyondMemory))

/-! ## Rules about the whole machine -/

/-- The reset state meets the invariant. -/
def Obligations.ResetStateIsWellFormed : Prop := State.reset.wf

/-- Every step keeps the invariant: legal configuration, canonical memory inside `MEM_SIZE`, canonical
planes inside the screen. -/
def Obligations.EveryStepKeepsTheInvariant : Prop :=
  ∀ s t : State, s.wf → step s = .next t → t.wf

/-- R23: no step changes `MEM_SIZE` or `BIG_FONT_BASE`, and only a reset that brings new quirks changes
the quirk flags. -/
def Obligations.ConfigurationIsConstant : Prop :=
  ∀ s t : State, step s = .next t →
    t.config.memSize = s.config.memSize ∧ t.config.bigFontBase = s.config.bigFontBase
    ∧ ((∀ q rest, s.agenda ≠ .reset (some q) :: rest) → t.config = s.config)

/-- R15 and the "written by" column of spec/10_state.md section 1: an instruction changes only the parts
it is listed for; the `VF` writers are exactly those of R15. -/
def Obligations.InstructionsChangeOnlyWhatTheyWrite : Prop :=
  ∀ (i : Instr) (s t : State), exec i s = .next t → ChangesOnly s t i.writes

/-- R192: no instruction is refused, every instruction that makes no access beyond its fetch completes,
and a fault is always an out-of-bounds access of one that does. -/
def Obligations.OnlyMemoryInstructionsFault : Prop :=
  ∀ (i : Instr) (s : State),
    (i.accessesMemory = false → ∃ t, exec i s = .next t)
    ∧ (∀ r, exec i s ≠ .refused r)
    ∧ ∀ f, exec i s = .fault f → i.accessesMemory = true
      ∧ ∃ a : Int, f = .outOfBoundsAccess a ∧ ¬ (0 ≤ a ∧ a < s.config.memSize.bytes)

/-- R238: an instruction depends on no quirk flag but its own: changing another flag changes nothing of
what it does, for every state, hence for all 32 combinations. -/
def Obligations.QuirksAreIndependent : Prop :=
  ∀ (i : Instr) (s : State) (q : Quirk) (b : Bool), i.quirk ≠ some q →
    exec i (s.withQuirk q b) = mapNext (fun t => t.withQuirk q b) (exec i s)

/-- Nothing but LD Vx, K and EXIT takes a running core out of RUNNING, and no instruction enters FATAL: a
fault is an outcome of its own (R28, R206; log entry 8). -/
def Obligations.RunStateChangesOnlyByKeyWaitAndExit : Prop :=
  ∀ (i : Instr) (s t : State), exec i s = .next t →
    t.run = s.run ∨ (∃ x, i = .ldVxK x ∧ t.run = .awaitingKey) ∨ (i = .exit ∧ t.run = .stopped)

/-! ## Field positions, inputs and outputs -/

/-- R61, R62: where the fields of each format stand, for every word of the format that its family or low
byte selects.  Formats A, XI, XY, XYN, X, N1, ZN and Z; in ZN and Z bits 11:8 (`low` here) are ignored.
(Families 5 and 9 of format XY are `FamiliesFiveAndNineIgnoreTheLowNibble`.) -/
def Obligations.FieldsStandWhereTheFormatsSay : Prop :=
  ∀ (x y : Reg) (n : Fin 16) (low : BitVec 4) (nn : Byte) (nnn : BitVec 12),
    (∀ p ∈ [(0x1000, Instr.jp), (0x2000, .call), (0xA000, .ldI), (0xB000, .jpV0)],
      decodeWord (BitVec.ofNat 16 (p.1 + nnn.toNat)) = some (p.2 nnn))
    ∧ (∀ p ∈ [(0x3000, Instr.seImm), (0x4000, .sneImm), (0x6000, .ldImm), (0x7000, .addImm),
        (0xC000, .rnd)],
      decodeWord (BitVec.ofNat 16 (p.1 + 256 * x.val + nn.toNat)) = some (p.2 x nn))
    ∧ (∀ p ∈ [(0x8000, Instr.ldReg), (0x8001, .orReg), (0x8002, .andReg), (0x8003, .xorReg),
        (0x8004, .addReg), (0x8005, .subReg), (0x8006, .shrReg), (0x8007, .subnReg),
        (0x800E, .shlReg)],
      decodeWord (BitVec.ofNat 16 (p.1 + 256 * x.val + 16 * y.val)) = some (p.2 x y))
    ∧ decodeWord (BitVec.ofNat 16 (0xD000 + 256 * x.val + 16 * y.val + n.val))
      = some (.drw x y n.val)
    ∧ (∀ p ∈ [(0xE09E, Instr.skp), (0xE0A1, .sknp), (0xF007, .ldVxDt), (0xF00A, .ldVxK),
        (0xF015, .ldDtVx), (0xF018, .ldStVx), (0xF01E, .addI), (0xF029, .ldF), (0xF030, .ldHf),
        (0xF033, .ldB), (0xF03A, .pitch), (0xF055, .storeRegs), (0xF065, .loadRegs),
        (0xF075, .storeRpl), (0xF085, .loadRpl)],
      decodeWord (BitVec.ofNat 16 (p.1 + 256 * x.val)) = some (p.2 x))
    ∧ decodeWord (BitVec.ofNat 16 (0xF001 + 256 * low.toNat)) = some (.plane low)
    ∧ (∀ p ∈ [(0x00C0, Instr.scd), (0x00D0, .scu)],
      decodeWord (BitVec.ofNat 16 (p.1 + 256 * low.toNat + n.val)) = some (p.2 n.val))
    ∧ (∀ p ∈ [(0x00E0, Instr.cls), (0x00EE, .ret), (0x00FB, .scr), (0x00FC, .scl), (0x00FD, .exit),
        (0x00FE, .low), (0x00FF, .high)],
      decodeWord (BitVec.ofNat 16 (p.1 + 256 * low.toNat)) = some p.2)

/-- From R170, R200 (5): the host's change of a key's level, in every run state, makes that level what the
host says and changes nothing else; a step takes it when the agenda names it next.  One key a time is
the model's choice (log entry 21), and so is the agenda (5). -/
def Obligations.KeyLevelEventSetsOneKey : Prop :=
  ∀ (s : State) (k : Reg) (down : Bool),
    (∃ t, perform (.keyLevel k down) s = .next t ∧ t.keys[k] = down
      ∧ (∀ j : Reg, j ≠ k → t.keys[j] = s.keys[j]) ∧ ChangesOnly s t [.keys])
    ∧ ∀ rest : List Event, s.agenda = .keyLevel k down :: rest →
      ∃ t, step s = .next t ∧ t.keys[k] = down ∧ (∀ j : Reg, j ≠ k → t.keys[j] = s.keys[j])
        ∧ t.agenda = rest ∧ ChangesOnly s t [.keys, .agenda]

/-- R25, R149: the display output is `MODE` and the `W` x `H` array, row by row, of the colour indices
`P1 + 2 * P2`, each below 4. -/
def Obligations.DisplayOutputIsTheColourIndices : Prop :=
  ∀ s : State,
    (displayOut s).1 = s.mode ∧ (displayOut s).2.length = s.mode.height
    ∧ (∀ row ∈ (displayOut s).2, row.length = s.mode.width ∧ ∀ c ∈ row, c < 4)
    ∧ ∀ px py : Nat, px < s.mode.width → py < s.mode.height →
      ∃ row, (displayOut s).2[py]? = some row
        ∧ row[px]? = some ((if planeGet (s.getPlane .one) px py then 1 else 0)
          + 2 * (if planeGet (s.getPlane .two) px py then 1 else 0))
end

