-- ==== Sys2Proof/Laws/State.lean ====
section
/-! SUPPORT. One lemma for each field of State and each named update of it, and what a register or a
plane reads after an update, so that no later proof unfolds a record update. -/

namespace Sys2Proof.Machine

@[simp] theorem setPC_pc (s : State) (w : Word) :
    (s.setPC w).pc = w := rfl

@[simp] theorem setPC_v (s : State) (w : Word) :
    (s.setPC w).v = s.v := rfl

@[simp] theorem setPC_rpl (s : State) (w : Word) :
    (s.setPC w).rpl = s.rpl := rfl

@[simp] theorem setPC_i (s : State) (w : Word) :
    (s.setPC w).i = s.i := rfl

@[simp] theorem setPC_sp (s : State) (w : Word) :
    (s.setPC w).sp = s.sp := rfl

@[simp] theorem setPC_dt (s : State) (w : Word) :
    (s.setPC w).dt = s.dt := rfl

@[simp] theorem setPC_st (s : State) (w : Word) :
    (s.setPC w).st = s.st := rfl

@[simp] theorem setPC_pitch (s : State) (w : Word) :
    (s.setPC w).pitch = s.pitch := rfl

@[simp] theorem setPC_plane (s : State) (w : Word) :
    (s.setPC w).plane = s.plane := rfl

@[simp] theorem setPC_mode (s : State) (w : Word) :
    (s.setPC w).mode = s.mode := rfl

@[simp] theorem setPC_p1 (s : State) (w : Word) :
    (s.setPC w).p1 = s.p1 := rfl

@[simp] theorem setPC_p2 (s : State) (w : Word) :
    (s.setPC w).p2 = s.p2 := rfl

@[simp] theorem setPC_run (s : State) (w : Word) :
    (s.setPC w).run = s.run := rfl

@[simp] theorem setPC_keyreg (s : State) (w : Word) :
    (s.setPC w).keyreg = s.keyreg := rfl

@[simp] theorem setPC_mem (s : State) (w : Word) :
    (s.setPC w).mem = s.mem := rfl

@[simp] theorem setPC_config (s : State) (w : Word) :
    (s.setPC w).config = s.config := rfl

@[simp] theorem setPC_keys (s : State) (w : Word) :
    (s.setPC w).keys = s.keys := rfl

@[simp] theorem setPC_fresh (s : State) (w : Word) :
    (s.setPC w).fresh = s.fresh := rfl

@[simp] theorem setPC_agenda (s : State) (w : Word) :
    (s.setPC w).agenda = s.agenda := rfl

@[simp] theorem getV_setPC (s : State) (w : Word) (q : Reg) :
    (s.setPC w).getV q = s.getV q := rfl

@[simp] theorem getPlane_setPC (s : State) (w : Word) (j : PlaneId) :
    (s.setPC w).getPlane j = s.getPlane j := by
  cases j <;> rfl

@[simp] theorem setSP_sp (s : State) (w : Word) :
    (s.setSP w).sp = w := rfl

@[simp] theorem setSP_v (s : State) (w : Word) :
    (s.setSP w).v = s.v := rfl

@[simp] theorem setSP_rpl (s : State) (w : Word) :
    (s.setSP w).rpl = s.rpl := rfl

@[simp] theorem setSP_i (s : State) (w : Word) :
    (s.setSP w).i = s.i := rfl

@[simp] theorem setSP_pc (s : State) (w : Word) :
    (s.setSP w).pc = s.pc := rfl

@[simp] theorem setSP_dt (s : State) (w : Word) :
    (s.setSP w).dt = s.dt := rfl

@[simp] theorem setSP_st (s : State) (w : Word) :
    (s.setSP w).st = s.st := rfl

@[simp] theorem setSP_pitch (s : State) (w : Word) :
    (s.setSP w).pitch = s.pitch := rfl

@[simp] theorem setSP_plane (s : State) (w : Word) :
    (s.setSP w).plane = s.plane := rfl

@[simp] theorem setSP_mode (s : State) (w : Word) :
    (s.setSP w).mode = s.mode := rfl

@[simp] theorem setSP_p1 (s : State) (w : Word) :
    (s.setSP w).p1 = s.p1 := rfl

@[simp] theorem setSP_p2 (s : State) (w : Word) :
    (s.setSP w).p2 = s.p2 := rfl

@[simp] theorem setSP_run (s : State) (w : Word) :
    (s.setSP w).run = s.run := rfl

@[simp] theorem setSP_keyreg (s : State) (w : Word) :
    (s.setSP w).keyreg = s.keyreg := rfl

@[simp] theorem setSP_mem (s : State) (w : Word) :
    (s.setSP w).mem = s.mem := rfl

@[simp] theorem setSP_config (s : State) (w : Word) :
    (s.setSP w).config = s.config := rfl

@[simp] theorem setSP_keys (s : State) (w : Word) :
    (s.setSP w).keys = s.keys := rfl

@[simp] theorem setSP_fresh (s : State) (w : Word) :
    (s.setSP w).fresh = s.fresh := rfl

@[simp] theorem setSP_agenda (s : State) (w : Word) :
    (s.setSP w).agenda = s.agenda := rfl

@[simp] theorem getV_setSP (s : State) (w : Word) (q : Reg) :
    (s.setSP w).getV q = s.getV q := rfl

@[simp] theorem getPlane_setSP (s : State) (w : Word) (j : PlaneId) :
    (s.setSP w).getPlane j = s.getPlane j := by
  cases j <;> rfl

@[simp] theorem setI_i (s : State) (w : Word) :
    (s.setI w).i = w := rfl

@[simp] theorem setI_v (s : State) (w : Word) :
    (s.setI w).v = s.v := rfl

@[simp] theorem setI_rpl (s : State) (w : Word) :
    (s.setI w).rpl = s.rpl := rfl

@[simp] theorem setI_pc (s : State) (w : Word) :
    (s.setI w).pc = s.pc := rfl

@[simp] theorem setI_sp (s : State) (w : Word) :
    (s.setI w).sp = s.sp := rfl

@[simp] theorem setI_dt (s : State) (w : Word) :
    (s.setI w).dt = s.dt := rfl

@[simp] theorem setI_st (s : State) (w : Word) :
    (s.setI w).st = s.st := rfl

@[simp] theorem setI_pitch (s : State) (w : Word) :
    (s.setI w).pitch = s.pitch := rfl

@[simp] theorem setI_plane (s : State) (w : Word) :
    (s.setI w).plane = s.plane := rfl

@[simp] theorem setI_mode (s : State) (w : Word) :
    (s.setI w).mode = s.mode := rfl

@[simp] theorem setI_p1 (s : State) (w : Word) :
    (s.setI w).p1 = s.p1 := rfl

@[simp] theorem setI_p2 (s : State) (w : Word) :
    (s.setI w).p2 = s.p2 := rfl

@[simp] theorem setI_run (s : State) (w : Word) :
    (s.setI w).run = s.run := rfl

@[simp] theorem setI_keyreg (s : State) (w : Word) :
    (s.setI w).keyreg = s.keyreg := rfl

@[simp] theorem setI_mem (s : State) (w : Word) :
    (s.setI w).mem = s.mem := rfl

@[simp] theorem setI_config (s : State) (w : Word) :
    (s.setI w).config = s.config := rfl

@[simp] theorem setI_keys (s : State) (w : Word) :
    (s.setI w).keys = s.keys := rfl

@[simp] theorem setI_fresh (s : State) (w : Word) :
    (s.setI w).fresh = s.fresh := rfl

@[simp] theorem setI_agenda (s : State) (w : Word) :
    (s.setI w).agenda = s.agenda := rfl

@[simp] theorem getV_setI (s : State) (w : Word) (q : Reg) :
    (s.setI w).getV q = s.getV q := rfl

@[simp] theorem getPlane_setI (s : State) (w : Word) (j : PlaneId) :
    (s.setI w).getPlane j = s.getPlane j := by
  cases j <;> rfl

@[simp] theorem setRun_run (s : State) (w : RunState) :
    (s.setRun w).run = w := rfl

@[simp] theorem setRun_v (s : State) (w : RunState) :
    (s.setRun w).v = s.v := rfl

@[simp] theorem setRun_rpl (s : State) (w : RunState) :
    (s.setRun w).rpl = s.rpl := rfl

@[simp] theorem setRun_i (s : State) (w : RunState) :
    (s.setRun w).i = s.i := rfl

@[simp] theorem setRun_pc (s : State) (w : RunState) :
    (s.setRun w).pc = s.pc := rfl

@[simp] theorem setRun_sp (s : State) (w : RunState) :
    (s.setRun w).sp = s.sp := rfl

@[simp] theorem setRun_dt (s : State) (w : RunState) :
    (s.setRun w).dt = s.dt := rfl

@[simp] theorem setRun_st (s : State) (w : RunState) :
    (s.setRun w).st = s.st := rfl

@[simp] theorem setRun_pitch (s : State) (w : RunState) :
    (s.setRun w).pitch = s.pitch := rfl

@[simp] theorem setRun_plane (s : State) (w : RunState) :
    (s.setRun w).plane = s.plane := rfl

@[simp] theorem setRun_mode (s : State) (w : RunState) :
    (s.setRun w).mode = s.mode := rfl

@[simp] theorem setRun_p1 (s : State) (w : RunState) :
    (s.setRun w).p1 = s.p1 := rfl

@[simp] theorem setRun_p2 (s : State) (w : RunState) :
    (s.setRun w).p2 = s.p2 := rfl

@[simp] theorem setRun_keyreg (s : State) (w : RunState) :
    (s.setRun w).keyreg = s.keyreg := rfl

@[simp] theorem setRun_mem (s : State) (w : RunState) :
    (s.setRun w).mem = s.mem := rfl

@[simp] theorem setRun_config (s : State) (w : RunState) :
    (s.setRun w).config = s.config := rfl

@[simp] theorem setRun_keys (s : State) (w : RunState) :
    (s.setRun w).keys = s.keys := rfl

@[simp] theorem setRun_fresh (s : State) (w : RunState) :
    (s.setRun w).fresh = s.fresh := rfl

@[simp] theorem setRun_agenda (s : State) (w : RunState) :
    (s.setRun w).agenda = s.agenda := rfl

@[simp] theorem getV_setRun (s : State) (w : RunState) (q : Reg) :
    (s.setRun w).getV q = s.getV q := rfl

@[simp] theorem getPlane_setRun (s : State) (w : RunState) (j : PlaneId) :
    (s.setRun w).getPlane j = s.getPlane j := by
  cases j <;> rfl

@[simp] theorem setMem_mem (s : State) (w : List Host.Cell) :
    (s.setMem w).mem = w := rfl

@[simp] theorem setMem_v (s : State) (w : List Host.Cell) :
    (s.setMem w).v = s.v := rfl

@[simp] theorem setMem_rpl (s : State) (w : List Host.Cell) :
    (s.setMem w).rpl = s.rpl := rfl

@[simp] theorem setMem_i (s : State) (w : List Host.Cell) :
    (s.setMem w).i = s.i := rfl

@[simp] theorem setMem_pc (s : State) (w : List Host.Cell) :
    (s.setMem w).pc = s.pc := rfl

@[simp] theorem setMem_sp (s : State) (w : List Host.Cell) :
    (s.setMem w).sp = s.sp := rfl

@[simp] theorem setMem_dt (s : State) (w : List Host.Cell) :
    (s.setMem w).dt = s.dt := rfl

@[simp] theorem setMem_st (s : State) (w : List Host.Cell) :
    (s.setMem w).st = s.st := rfl

@[simp] theorem setMem_pitch (s : State) (w : List Host.Cell) :
    (s.setMem w).pitch = s.pitch := rfl

@[simp] theorem setMem_plane (s : State) (w : List Host.Cell) :
    (s.setMem w).plane = s.plane := rfl

@[simp] theorem setMem_mode (s : State) (w : List Host.Cell) :
    (s.setMem w).mode = s.mode := rfl

@[simp] theorem setMem_p1 (s : State) (w : List Host.Cell) :
    (s.setMem w).p1 = s.p1 := rfl

@[simp] theorem setMem_p2 (s : State) (w : List Host.Cell) :
    (s.setMem w).p2 = s.p2 := rfl

@[simp] theorem setMem_run (s : State) (w : List Host.Cell) :
    (s.setMem w).run = s.run := rfl

@[simp] theorem setMem_keyreg (s : State) (w : List Host.Cell) :
    (s.setMem w).keyreg = s.keyreg := rfl

@[simp] theorem setMem_config (s : State) (w : List Host.Cell) :
    (s.setMem w).config = s.config := rfl

@[simp] theorem setMem_keys (s : State) (w : List Host.Cell) :
    (s.setMem w).keys = s.keys := rfl

@[simp] theorem setMem_fresh (s : State) (w : List Host.Cell) :
    (s.setMem w).fresh = s.fresh := rfl

@[simp] theorem setMem_agenda (s : State) (w : List Host.Cell) :
    (s.setMem w).agenda = s.agenda := rfl

@[simp] theorem getV_setMem (s : State) (w : List Host.Cell) (q : Reg) :
    (s.setMem w).getV q = s.getV q := rfl

@[simp] theorem getPlane_setMem (s : State) (w : List Host.Cell) (j : PlaneId) :
    (s.setMem w).getPlane j = s.getPlane j := by
  cases j <;> rfl

@[simp] theorem setV_rpl (s : State) (r : Reg) (b : Byte) :
    (s.setV r b).rpl = s.rpl := rfl

@[simp] theorem setV_i (s : State) (r : Reg) (b : Byte) :
    (s.setV r b).i = s.i := rfl

@[simp] theorem setV_pc (s : State) (r : Reg) (b : Byte) :
    (s.setV r b).pc = s.pc := rfl

@[simp] theorem setV_sp (s : State) (r : Reg) (b : Byte) :
    (s.setV r b).sp = s.sp := rfl

@[simp] theorem setV_dt (s : State) (r : Reg) (b : Byte) :
    (s.setV r b).dt = s.dt := rfl

@[simp] theorem setV_st (s : State) (r : Reg) (b : Byte) :
    (s.setV r b).st = s.st := rfl

@[simp] theorem setV_pitch (s : State) (r : Reg) (b : Byte) :
    (s.setV r b).pitch = s.pitch := rfl

@[simp] theorem setV_plane (s : State) (r : Reg) (b : Byte) :
    (s.setV r b).plane = s.plane := rfl

@[simp] theorem setV_mode (s : State) (r : Reg) (b : Byte) :
    (s.setV r b).mode = s.mode := rfl

@[simp] theorem setV_p1 (s : State) (r : Reg) (b : Byte) :
    (s.setV r b).p1 = s.p1 := rfl

@[simp] theorem setV_p2 (s : State) (r : Reg) (b : Byte) :
    (s.setV r b).p2 = s.p2 := rfl

@[simp] theorem setV_run (s : State) (r : Reg) (b : Byte) :
    (s.setV r b).run = s.run := rfl

@[simp] theorem setV_keyreg (s : State) (r : Reg) (b : Byte) :
    (s.setV r b).keyreg = s.keyreg := rfl

@[simp] theorem setV_mem (s : State) (r : Reg) (b : Byte) :
    (s.setV r b).mem = s.mem := rfl

@[simp] theorem setV_config (s : State) (r : Reg) (b : Byte) :
    (s.setV r b).config = s.config := rfl

@[simp] theorem setV_keys (s : State) (r : Reg) (b : Byte) :
    (s.setV r b).keys = s.keys := rfl

@[simp] theorem setV_fresh (s : State) (r : Reg) (b : Byte) :
    (s.setV r b).fresh = s.fresh := rfl

@[simp] theorem setV_agenda (s : State) (r : Reg) (b : Byte) :
    (s.setV r b).agenda = s.agenda := rfl

@[simp] theorem setLowV_rpl (s : State) (x : Reg) (f : Reg → Byte) :
    (s.setLowV x f).rpl = s.rpl := by
  simp only [State.setLowV]

@[simp] theorem setLowV_i (s : State) (x : Reg) (f : Reg → Byte) :
    (s.setLowV x f).i = s.i := by
  simp only [State.setLowV]

@[simp] theorem setLowV_pc (s : State) (x : Reg) (f : Reg → Byte) :
    (s.setLowV x f).pc = s.pc := by
  simp only [State.setLowV]

@[simp] theorem setLowV_sp (s : State) (x : Reg) (f : Reg → Byte) :
    (s.setLowV x f).sp = s.sp := by
  simp only [State.setLowV]

@[simp] theorem setLowV_dt (s : State) (x : Reg) (f : Reg → Byte) :
    (s.setLowV x f).dt = s.dt := by
  simp only [State.setLowV]

@[simp] theorem setLowV_st (s : State) (x : Reg) (f : Reg → Byte) :
    (s.setLowV x f).st = s.st := by
  simp only [State.setLowV]

@[simp] theorem setLowV_pitch (s : State) (x : Reg) (f : Reg → Byte) :
    (s.setLowV x f).pitch = s.pitch := by
  simp only [State.setLowV]

@[simp] theorem setLowV_plane (s : State) (x : Reg) (f : Reg → Byte) :
    (s.setLowV x f).plane = s.plane := by
  simp only [State.setLowV]

@[simp] theorem setLowV_mode (s : State) (x : Reg) (f : Reg → Byte) :
    (s.setLowV x f).mode = s.mode := by
  simp only [State.setLowV]

@[simp] theorem setLowV_p1 (s : State) (x : Reg) (f : Reg → Byte) :
    (s.setLowV x f).p1 = s.p1 := by
  simp only [State.setLowV]

@[simp] theorem setLowV_p2 (s : State) (x : Reg) (f : Reg → Byte) :
    (s.setLowV x f).p2 = s.p2 := by
  simp only [State.setLowV]

@[simp] theorem setLowV_run (s : State) (x : Reg) (f : Reg → Byte) :
    (s.setLowV x f).run = s.run := by
  simp only [State.setLowV]

@[simp] theorem setLowV_keyreg (s : State) (x : Reg) (f : Reg → Byte) :
    (s.setLowV x f).keyreg = s.keyreg := by
  simp only [State.setLowV]

@[simp] theorem setLowV_mem (s : State) (x : Reg) (f : Reg → Byte) :
    (s.setLowV x f).mem = s.mem := by
  simp only [State.setLowV]

@[simp] theorem setLowV_config (s : State) (x : Reg) (f : Reg → Byte) :
    (s.setLowV x f).config = s.config := by
  simp only [State.setLowV]

@[simp] theorem setLowV_keys (s : State) (x : Reg) (f : Reg → Byte) :
    (s.setLowV x f).keys = s.keys := by
  simp only [State.setLowV]

@[simp] theorem setLowV_fresh (s : State) (x : Reg) (f : Reg → Byte) :
    (s.setLowV x f).fresh = s.fresh := by
  simp only [State.setLowV]

@[simp] theorem setLowV_agenda (s : State) (x : Reg) (f : Reg → Byte) :
    (s.setLowV x f).agenda = s.agenda := by
  simp only [State.setLowV]

@[simp] theorem setLowRpl_v (s : State) (x : Reg) (f : Reg → Byte) :
    (s.setLowRpl x f).v = s.v := by
  simp only [State.setLowRpl]

@[simp] theorem setLowRpl_i (s : State) (x : Reg) (f : Reg → Byte) :
    (s.setLowRpl x f).i = s.i := by
  simp only [State.setLowRpl]

@[simp] theorem setLowRpl_pc (s : State) (x : Reg) (f : Reg → Byte) :
    (s.setLowRpl x f).pc = s.pc := by
  simp only [State.setLowRpl]

@[simp] theorem setLowRpl_sp (s : State) (x : Reg) (f : Reg → Byte) :
    (s.setLowRpl x f).sp = s.sp := by
  simp only [State.setLowRpl]

@[simp] theorem setLowRpl_dt (s : State) (x : Reg) (f : Reg → Byte) :
    (s.setLowRpl x f).dt = s.dt := by
  simp only [State.setLowRpl]

@[simp] theorem setLowRpl_st (s : State) (x : Reg) (f : Reg → Byte) :
    (s.setLowRpl x f).st = s.st := by
  simp only [State.setLowRpl]

@[simp] theorem setLowRpl_pitch (s : State) (x : Reg) (f : Reg → Byte) :
    (s.setLowRpl x f).pitch = s.pitch := by
  simp only [State.setLowRpl]

@[simp] theorem setLowRpl_plane (s : State) (x : Reg) (f : Reg → Byte) :
    (s.setLowRpl x f).plane = s.plane := by
  simp only [State.setLowRpl]

@[simp] theorem setLowRpl_mode (s : State) (x : Reg) (f : Reg → Byte) :
    (s.setLowRpl x f).mode = s.mode := by
  simp only [State.setLowRpl]

@[simp] theorem setLowRpl_p1 (s : State) (x : Reg) (f : Reg → Byte) :
    (s.setLowRpl x f).p1 = s.p1 := by
  simp only [State.setLowRpl]

@[simp] theorem setLowRpl_p2 (s : State) (x : Reg) (f : Reg → Byte) :
    (s.setLowRpl x f).p2 = s.p2 := by
  simp only [State.setLowRpl]

@[simp] theorem setLowRpl_run (s : State) (x : Reg) (f : Reg → Byte) :
    (s.setLowRpl x f).run = s.run := by
  simp only [State.setLowRpl]

@[simp] theorem setLowRpl_keyreg (s : State) (x : Reg) (f : Reg → Byte) :
    (s.setLowRpl x f).keyreg = s.keyreg := by
  simp only [State.setLowRpl]

@[simp] theorem setLowRpl_mem (s : State) (x : Reg) (f : Reg → Byte) :
    (s.setLowRpl x f).mem = s.mem := by
  simp only [State.setLowRpl]

@[simp] theorem setLowRpl_config (s : State) (x : Reg) (f : Reg → Byte) :
    (s.setLowRpl x f).config = s.config := by
  simp only [State.setLowRpl]

@[simp] theorem setLowRpl_keys (s : State) (x : Reg) (f : Reg → Byte) :
    (s.setLowRpl x f).keys = s.keys := by
  simp only [State.setLowRpl]

@[simp] theorem setLowRpl_fresh (s : State) (x : Reg) (f : Reg → Byte) :
    (s.setLowRpl x f).fresh = s.fresh := by
  simp only [State.setLowRpl]

@[simp] theorem setLowRpl_agenda (s : State) (x : Reg) (f : Reg → Byte) :
    (s.setLowRpl x f).agenda = s.agenda := by
  simp only [State.setLowRpl]

@[simp] theorem advance_v (s : State) :
    (s.advance).v = s.v := rfl

@[simp] theorem advance_rpl (s : State) :
    (s.advance).rpl = s.rpl := rfl

@[simp] theorem advance_i (s : State) :
    (s.advance).i = s.i := rfl

@[simp] theorem advance_sp (s : State) :
    (s.advance).sp = s.sp := rfl

@[simp] theorem advance_dt (s : State) :
    (s.advance).dt = s.dt := rfl

@[simp] theorem advance_st (s : State) :
    (s.advance).st = s.st := rfl

@[simp] theorem advance_pitch (s : State) :
    (s.advance).pitch = s.pitch := rfl

@[simp] theorem advance_plane (s : State) :
    (s.advance).plane = s.plane := rfl

@[simp] theorem advance_mode (s : State) :
    (s.advance).mode = s.mode := rfl

@[simp] theorem advance_p1 (s : State) :
    (s.advance).p1 = s.p1 := rfl

@[simp] theorem advance_p2 (s : State) :
    (s.advance).p2 = s.p2 := rfl

@[simp] theorem advance_run (s : State) :
    (s.advance).run = s.run := rfl

@[simp] theorem advance_keyreg (s : State) :
    (s.advance).keyreg = s.keyreg := rfl

@[simp] theorem advance_mem (s : State) :
    (s.advance).mem = s.mem := rfl

@[simp] theorem advance_config (s : State) :
    (s.advance).config = s.config := rfl

@[simp] theorem advance_keys (s : State) :
    (s.advance).keys = s.keys := rfl

@[simp] theorem advance_fresh (s : State) :
    (s.advance).fresh = s.fresh := rfl

@[simp] theorem advance_agenda (s : State) :
    (s.advance).agenda = s.agenda := rfl

@[simp] theorem setFlag_rpl (s : State) (c : Bool) :
    (s.setFlag c).rpl = s.rpl := by
  simp only [State.setFlag, setV_rpl]

@[simp] theorem setFlag_i (s : State) (c : Bool) :
    (s.setFlag c).i = s.i := by
  simp only [State.setFlag, setV_i]

@[simp] theorem setFlag_pc (s : State) (c : Bool) :
    (s.setFlag c).pc = s.pc := by
  simp only [State.setFlag, setV_pc]

@[simp] theorem setFlag_sp (s : State) (c : Bool) :
    (s.setFlag c).sp = s.sp := by
  simp only [State.setFlag, setV_sp]

@[simp] theorem setFlag_dt (s : State) (c : Bool) :
    (s.setFlag c).dt = s.dt := by
  simp only [State.setFlag, setV_dt]

@[simp] theorem setFlag_st (s : State) (c : Bool) :
    (s.setFlag c).st = s.st := by
  simp only [State.setFlag, setV_st]

@[simp] theorem setFlag_pitch (s : State) (c : Bool) :
    (s.setFlag c).pitch = s.pitch := by
  simp only [State.setFlag, setV_pitch]

@[simp] theorem setFlag_plane (s : State) (c : Bool) :
    (s.setFlag c).plane = s.plane := by
  simp only [State.setFlag, setV_plane]

@[simp] theorem setFlag_mode (s : State) (c : Bool) :
    (s.setFlag c).mode = s.mode := by
  simp only [State.setFlag, setV_mode]

@[simp] theorem setFlag_p1 (s : State) (c : Bool) :
    (s.setFlag c).p1 = s.p1 := by
  simp only [State.setFlag, setV_p1]

@[simp] theorem setFlag_p2 (s : State) (c : Bool) :
    (s.setFlag c).p2 = s.p2 := by
  simp only [State.setFlag, setV_p2]

@[simp] theorem setFlag_run (s : State) (c : Bool) :
    (s.setFlag c).run = s.run := by
  simp only [State.setFlag, setV_run]

@[simp] theorem setFlag_keyreg (s : State) (c : Bool) :
    (s.setFlag c).keyreg = s.keyreg := by
  simp only [State.setFlag, setV_keyreg]

@[simp] theorem setFlag_mem (s : State) (c : Bool) :
    (s.setFlag c).mem = s.mem := by
  simp only [State.setFlag, setV_mem]

@[simp] theorem setFlag_config (s : State) (c : Bool) :
    (s.setFlag c).config = s.config := by
  simp only [State.setFlag, setV_config]

@[simp] theorem setFlag_keys (s : State) (c : Bool) :
    (s.setFlag c).keys = s.keys := by
  simp only [State.setFlag, setV_keys]

@[simp] theorem setFlag_fresh (s : State) (c : Bool) :
    (s.setFlag c).fresh = s.fresh := by
  simp only [State.setFlag, setV_fresh]

@[simp] theorem setFlag_agenda (s : State) (c : Bool) :
    (s.setFlag c).agenda = s.agenda := by
  simp only [State.setFlag, setV_agenda]

@[simp] theorem resultWithFlag_rpl (s : State) (x : Reg) (b : Byte) (c : Bool) :
    (resultWithFlag s x b c).rpl = s.rpl := by
  simp [resultWithFlag]

@[simp] theorem resultWithFlag_i (s : State) (x : Reg) (b : Byte) (c : Bool) :
    (resultWithFlag s x b c).i = s.i := by
  simp [resultWithFlag]

@[simp] theorem resultWithFlag_pc (s : State) (x : Reg) (b : Byte) (c : Bool) :
    (resultWithFlag s x b c).pc = s.pc := by
  simp [resultWithFlag]

@[simp] theorem resultWithFlag_sp (s : State) (x : Reg) (b : Byte) (c : Bool) :
    (resultWithFlag s x b c).sp = s.sp := by
  simp [resultWithFlag]

@[simp] theorem resultWithFlag_dt (s : State) (x : Reg) (b : Byte) (c : Bool) :
    (resultWithFlag s x b c).dt = s.dt := by
  simp [resultWithFlag]

@[simp] theorem resultWithFlag_st (s : State) (x : Reg) (b : Byte) (c : Bool) :
    (resultWithFlag s x b c).st = s.st := by
  simp [resultWithFlag]

@[simp] theorem resultWithFlag_pitch (s : State) (x : Reg) (b : Byte) (c : Bool) :
    (resultWithFlag s x b c).pitch = s.pitch := by
  simp [resultWithFlag]

@[simp] theorem resultWithFlag_plane (s : State) (x : Reg) (b : Byte) (c : Bool) :
    (resultWithFlag s x b c).plane = s.plane := by
  simp [resultWithFlag]

@[simp] theorem resultWithFlag_mode (s : State) (x : Reg) (b : Byte) (c : Bool) :
    (resultWithFlag s x b c).mode = s.mode := by
  simp [resultWithFlag]

@[simp] theorem resultWithFlag_p1 (s : State) (x : Reg) (b : Byte) (c : Bool) :
    (resultWithFlag s x b c).p1 = s.p1 := by
  simp [resultWithFlag]

@[simp] theorem resultWithFlag_p2 (s : State) (x : Reg) (b : Byte) (c : Bool) :
    (resultWithFlag s x b c).p2 = s.p2 := by
  simp [resultWithFlag]

@[simp] theorem resultWithFlag_run (s : State) (x : Reg) (b : Byte) (c : Bool) :
    (resultWithFlag s x b c).run = s.run := by
  simp [resultWithFlag]

@[simp] theorem resultWithFlag_keyreg (s : State) (x : Reg) (b : Byte) (c : Bool) :
    (resultWithFlag s x b c).keyreg = s.keyreg := by
  simp [resultWithFlag]

@[simp] theorem resultWithFlag_mem (s : State) (x : Reg) (b : Byte) (c : Bool) :
    (resultWithFlag s x b c).mem = s.mem := by
  simp [resultWithFlag]

@[simp] theorem resultWithFlag_config (s : State) (x : Reg) (b : Byte) (c : Bool) :
    (resultWithFlag s x b c).config = s.config := by
  simp [resultWithFlag]

@[simp] theorem resultWithFlag_keys (s : State) (x : Reg) (b : Byte) (c : Bool) :
    (resultWithFlag s x b c).keys = s.keys := by
  simp [resultWithFlag]

@[simp] theorem resultWithFlag_fresh (s : State) (x : Reg) (b : Byte) (c : Bool) :
    (resultWithFlag s x b c).fresh = s.fresh := by
  simp [resultWithFlag]

@[simp] theorem resultWithFlag_agenda (s : State) (x : Reg) (b : Byte) (c : Bool) :
    (resultWithFlag s x b c).agenda = s.agenda := by
  simp [resultWithFlag]

@[simp] theorem logicResult_rpl (s : State) (x : Reg) (b : Byte) :
    (logicResult s x b).rpl = s.rpl := by
  unfold logicResult; split <;> simp

@[simp] theorem logicResult_i (s : State) (x : Reg) (b : Byte) :
    (logicResult s x b).i = s.i := by
  unfold logicResult; split <;> simp

@[simp] theorem logicResult_pc (s : State) (x : Reg) (b : Byte) :
    (logicResult s x b).pc = s.pc := by
  unfold logicResult; split <;> simp

@[simp] theorem logicResult_sp (s : State) (x : Reg) (b : Byte) :
    (logicResult s x b).sp = s.sp := by
  unfold logicResult; split <;> simp

@[simp] theorem logicResult_dt (s : State) (x : Reg) (b : Byte) :
    (logicResult s x b).dt = s.dt := by
  unfold logicResult; split <;> simp

@[simp] theorem logicResult_st (s : State) (x : Reg) (b : Byte) :
    (logicResult s x b).st = s.st := by
  unfold logicResult; split <;> simp

@[simp] theorem logicResult_pitch (s : State) (x : Reg) (b : Byte) :
    (logicResult s x b).pitch = s.pitch := by
  unfold logicResult; split <;> simp

@[simp] theorem logicResult_plane (s : State) (x : Reg) (b : Byte) :
    (logicResult s x b).plane = s.plane := by
  unfold logicResult; split <;> simp

@[simp] theorem logicResult_mode (s : State) (x : Reg) (b : Byte) :
    (logicResult s x b).mode = s.mode := by
  unfold logicResult; split <;> simp

@[simp] theorem logicResult_p1 (s : State) (x : Reg) (b : Byte) :
    (logicResult s x b).p1 = s.p1 := by
  unfold logicResult; split <;> simp

@[simp] theorem logicResult_p2 (s : State) (x : Reg) (b : Byte) :
    (logicResult s x b).p2 = s.p2 := by
  unfold logicResult; split <;> simp

@[simp] theorem logicResult_run (s : State) (x : Reg) (b : Byte) :
    (logicResult s x b).run = s.run := by
  unfold logicResult; split <;> simp

@[simp] theorem logicResult_keyreg (s : State) (x : Reg) (b : Byte) :
    (logicResult s x b).keyreg = s.keyreg := by
  unfold logicResult; split <;> simp

@[simp] theorem logicResult_mem (s : State) (x : Reg) (b : Byte) :
    (logicResult s x b).mem = s.mem := by
  unfold logicResult; split <;> simp

@[simp] theorem logicResult_config (s : State) (x : Reg) (b : Byte) :
    (logicResult s x b).config = s.config := by
  unfold logicResult; split <;> simp

@[simp] theorem logicResult_keys (s : State) (x : Reg) (b : Byte) :
    (logicResult s x b).keys = s.keys := by
  unfold logicResult; split <;> simp

@[simp] theorem logicResult_fresh (s : State) (x : Reg) (b : Byte) :
    (logicResult s x b).fresh = s.fresh := by
  unfold logicResult; split <;> simp

@[simp] theorem logicResult_agenda (s : State) (x : Reg) (b : Byte) :
    (logicResult s x b).agenda = s.agenda := by
  unfold logicResult; split <;> simp

@[simp] theorem skipIf_v (c : Bool) (s : State) :
    (skipIf c s).v = s.v := by
  cases c <;> rfl

@[simp] theorem skipIf_rpl (c : Bool) (s : State) :
    (skipIf c s).rpl = s.rpl := by
  cases c <;> rfl

@[simp] theorem skipIf_i (c : Bool) (s : State) :
    (skipIf c s).i = s.i := by
  cases c <;> rfl

@[simp] theorem skipIf_sp (c : Bool) (s : State) :
    (skipIf c s).sp = s.sp := by
  cases c <;> rfl

@[simp] theorem skipIf_dt (c : Bool) (s : State) :
    (skipIf c s).dt = s.dt := by
  cases c <;> rfl

@[simp] theorem skipIf_st (c : Bool) (s : State) :
    (skipIf c s).st = s.st := by
  cases c <;> rfl

@[simp] theorem skipIf_pitch (c : Bool) (s : State) :
    (skipIf c s).pitch = s.pitch := by
  cases c <;> rfl

@[simp] theorem skipIf_plane (c : Bool) (s : State) :
    (skipIf c s).plane = s.plane := by
  cases c <;> rfl

@[simp] theorem skipIf_mode (c : Bool) (s : State) :
    (skipIf c s).mode = s.mode := by
  cases c <;> rfl

@[simp] theorem skipIf_p1 (c : Bool) (s : State) :
    (skipIf c s).p1 = s.p1 := by
  cases c <;> rfl

@[simp] theorem skipIf_p2 (c : Bool) (s : State) :
    (skipIf c s).p2 = s.p2 := by
  cases c <;> rfl

@[simp] theorem skipIf_run (c : Bool) (s : State) :
    (skipIf c s).run = s.run := by
  cases c <;> rfl

@[simp] theorem skipIf_keyreg (c : Bool) (s : State) :
    (skipIf c s).keyreg = s.keyreg := by
  cases c <;> rfl

@[simp] theorem skipIf_mem (c : Bool) (s : State) :
    (skipIf c s).mem = s.mem := by
  cases c <;> rfl

@[simp] theorem skipIf_config (c : Bool) (s : State) :
    (skipIf c s).config = s.config := by
  cases c <;> rfl

@[simp] theorem skipIf_keys (c : Bool) (s : State) :
    (skipIf c s).keys = s.keys := by
  cases c <;> rfl

@[simp] theorem skipIf_fresh (c : Bool) (s : State) :
    (skipIf c s).fresh = s.fresh := by
  cases c <;> rfl

@[simp] theorem skipIf_agenda (c : Bool) (s : State) :
    (skipIf c s).agenda = s.agenda := by
  cases c <;> rfl

@[simp] theorem setPlane_v (s : State) (id : PlaneId) (p : Plane) :
    (s.setPlane id p).v = s.v := by
  cases id <;> rfl

@[simp] theorem setPlane_rpl (s : State) (id : PlaneId) (p : Plane) :
    (s.setPlane id p).rpl = s.rpl := by
  cases id <;> rfl

@[simp] theorem setPlane_i (s : State) (id : PlaneId) (p : Plane) :
    (s.setPlane id p).i = s.i := by
  cases id <;> rfl

@[simp] theorem setPlane_pc (s : State) (id : PlaneId) (p : Plane) :
    (s.setPlane id p).pc = s.pc := by
  cases id <;> rfl

@[simp] theorem setPlane_sp (s : State) (id : PlaneId) (p : Plane) :
    (s.setPlane id p).sp = s.sp := by
  cases id <;> rfl

@[simp] theorem setPlane_dt (s : State) (id : PlaneId) (p : Plane) :
    (s.setPlane id p).dt = s.dt := by
  cases id <;> rfl

@[simp] theorem setPlane_st (s : State) (id : PlaneId) (p : Plane) :
    (s.setPlane id p).st = s.st := by
  cases id <;> rfl

@[simp] theorem setPlane_pitch (s : State) (id : PlaneId) (p : Plane) :
    (s.setPlane id p).pitch = s.pitch := by
  cases id <;> rfl

@[simp] theorem setPlane_plane (s : State) (id : PlaneId) (p : Plane) :
    (s.setPlane id p).plane = s.plane := by
  cases id <;> rfl

@[simp] theorem setPlane_mode (s : State) (id : PlaneId) (p : Plane) :
    (s.setPlane id p).mode = s.mode := by
  cases id <;> rfl

@[simp] theorem setPlane_run (s : State) (id : PlaneId) (p : Plane) :
    (s.setPlane id p).run = s.run := by
  cases id <;> rfl

@[simp] theorem setPlane_keyreg (s : State) (id : PlaneId) (p : Plane) :
    (s.setPlane id p).keyreg = s.keyreg := by
  cases id <;> rfl

@[simp] theorem setPlane_mem (s : State) (id : PlaneId) (p : Plane) :
    (s.setPlane id p).mem = s.mem := by
  cases id <;> rfl

@[simp] theorem setPlane_config (s : State) (id : PlaneId) (p : Plane) :
    (s.setPlane id p).config = s.config := by
  cases id <;> rfl

@[simp] theorem setPlane_keys (s : State) (id : PlaneId) (p : Plane) :
    (s.setPlane id p).keys = s.keys := by
  cases id <;> rfl

@[simp] theorem setPlane_fresh (s : State) (id : PlaneId) (p : Plane) :
    (s.setPlane id p).fresh = s.fresh := by
  cases id <;> rfl

@[simp] theorem setPlane_agenda (s : State) (id : PlaneId) (p : Plane) :
    (s.setPlane id p).agenda = s.agenda := by
  cases id <;> rfl

@[simp] theorem setMode_v (s : State) (m : Mode) :
    (setMode s m).v = s.v := rfl

@[simp] theorem setMode_rpl (s : State) (m : Mode) :
    (setMode s m).rpl = s.rpl := rfl

@[simp] theorem setMode_i (s : State) (m : Mode) :
    (setMode s m).i = s.i := rfl

@[simp] theorem setMode_pc (s : State) (m : Mode) :
    (setMode s m).pc = s.pc := rfl

@[simp] theorem setMode_sp (s : State) (m : Mode) :
    (setMode s m).sp = s.sp := rfl

@[simp] theorem setMode_dt (s : State) (m : Mode) :
    (setMode s m).dt = s.dt := rfl

@[simp] theorem setMode_st (s : State) (m : Mode) :
    (setMode s m).st = s.st := rfl

@[simp] theorem setMode_pitch (s : State) (m : Mode) :
    (setMode s m).pitch = s.pitch := rfl

@[simp] theorem setMode_plane (s : State) (m : Mode) :
    (setMode s m).plane = s.plane := rfl

@[simp] theorem setMode_run (s : State) (m : Mode) :
    (setMode s m).run = s.run := rfl

@[simp] theorem setMode_keyreg (s : State) (m : Mode) :
    (setMode s m).keyreg = s.keyreg := rfl

@[simp] theorem setMode_mem (s : State) (m : Mode) :
    (setMode s m).mem = s.mem := rfl

@[simp] theorem setMode_config (s : State) (m : Mode) :
    (setMode s m).config = s.config := rfl

@[simp] theorem setMode_keys (s : State) (m : Mode) :
    (setMode s m).keys = s.keys := rfl

@[simp] theorem setMode_fresh (s : State) (m : Mode) :
    (setMode s m).fresh = s.fresh := rfl

@[simp] theorem setMode_agenda (s : State) (m : Mode) :
    (setMode s m).agenda = s.agenda := rfl

@[simp] theorem advance_pc (s : State) : s.advance.pc = s.pc + 2 := rfl

@[simp] theorem setMode_mode (s : State) (m : Mode) : (setMode s m).mode = m := rfl

@[simp] theorem setMode_p1 (s : State) (m : Mode) : (setMode s m).p1 = [] := rfl

@[simp] theorem setMode_p2 (s : State) (m : Mode) : (setMode s m).p2 = [] := rfl

theorem skipIf_pc (c : Bool) (s : State) : (skipIf c s).pc = if c then s.pc + 2 else s.pc := by
  cases c <;> rfl

/-- Reading a register after a register write: the one read-after-write law of the file. -/
@[simp] theorem getV_setV (s : State) (r q : Reg) (b : Byte) :
    (s.setV r b).getV q = if q = r then b else s.getV q := by
  simp only [State.getV, State.setV, Fin.getElem_fin, Vector.getElem_set, Fin.ext_iff]
  simp only [eq_comm]

@[simp] theorem getV_setLowV (s : State) (x q : Reg) (f : Reg → Byte) :
    (s.setLowV x f).getV q = if q ≤ x then f q else s.getV q := by
  simp [State.getV, State.setLowV]

@[simp] theorem rpl_setLowRpl (s : State) (x q : Reg) (f : Reg → Byte) :
    (s.setLowRpl x f).rpl[q] = if q ≤ x then f q else s.rpl[q] := by
  simp [State.setLowRpl]

@[simp] theorem getV_setFlag (s : State) (c : Bool) (q : Reg) :
    (s.setFlag c).getV q = if q = vf then flagByte c else s.getV q := by
  simp only [State.setFlag, getV_setV]

theorem getV_resultWithFlag (s : State) (x q : Reg) (b : Byte) (c : Bool) :
    (resultWithFlag s x b c).getV q
      = if q = vf then flagByte c else if q = x then b else s.getV q := by
  simp [resultWithFlag]

@[simp] theorem getV_advance (s : State) (q : Reg) : s.advance.getV q = s.getV q := rfl

@[simp] theorem getV_setMode (s : State) (m : Mode) (q : Reg) :
    (setMode s m).getV q = s.getV q := rfl

@[simp] theorem getV_skipIf (c : Bool) (s : State) (q : Reg) :
    (skipIf c s).getV q = s.getV q := by
  cases c <;> rfl

@[simp] theorem getV_setPlane (s : State) (id : PlaneId) (p : Plane) (q : Reg) :
    (s.setPlane id p).getV q = s.getV q := by
  cases id <;> rfl

/-- Reading a plane after a plane write. -/
@[simp] theorem getPlane_setPlane (s : State) (id j : PlaneId) (p : Plane) :
    (s.setPlane id p).getPlane j = if j = id then p else s.getPlane j := by
  cases id <;> cases j <;> rfl

@[simp] theorem getPlane_setV (s : State) (r : Reg) (b : Byte) (j : PlaneId) :
    (s.setV r b).getPlane j = s.getPlane j := by
  cases j <;> rfl

@[simp] theorem getPlane_setFlag (s : State) (c : Bool) (j : PlaneId) :
    (s.setFlag c).getPlane j = s.getPlane j := by
  cases j <;> rfl

end Sys2Proof.Machine
end

