-- ==== Sys2Proof/Laws/Memory.lean ====
section
/-! SUPPORT. The laws of memory: what a byte reads after a write (R42, R43), that every memory operation
keeps the canonical form, and for each byte-wise operation one lemma that says everything it can do. -/

namespace Sys2Proof.Machine

/-! ## Cell lists -/

theorem memGet_filter_same (m : List Host.Cell) (k : Nat) :
    memGet (m.filter fun c => c.1 ≠ k) k = unlistedByte := by
  induction m with
  | nil => rfl
  | cons c m ih =>
    by_cases h : c.1 = k
    · simpa [h] using ih
    · simpa [h, memGet] using ih

theorem memGet_filter_other (m : List Host.Cell) {j k : Nat} (h : j ≠ k) :
    memGet (m.filter fun c => c.1 ≠ k) j = memGet m j := by
  induction m with
  | nil => rfl
  | cons c m ih =>
    by_cases hc : c.1 = k
    · simpa [hc, memGet, h.symm] using ih
    · simp only [ne_eq, hc, not_false_eq_true, decide_true, List.filter_cons_of_pos, memGet]
      rw [ih]

theorem memGet_memInsert_same (m : List Host.Cell) (k : Nat) (b : Byte)
    (h : ∀ c ∈ m, c.1 ≠ k) : memGet (memInsert k b m) k = b := by
  induction m with
  | nil => simp [memInsert, memGet]
  | cons c m ih =>
    have hc : c.1 ≠ k := h c (by simp)
    have hm := ih fun d hd => h d (by simp [hd])
    unfold memInsert
    split <;> simp [memGet, hc, hm]

theorem memGet_memInsert_other (m : List Host.Cell) {j k : Nat} (b : Byte) (h : j ≠ k) :
    memGet (memInsert k b m) j = memGet m j := by
  induction m with
  | nil => simp [memInsert, memGet, h.symm]
  | cons c m ih =>
    unfold memInsert
    split
    · simp [memGet, h.symm]
    · simp [memGet, ih]

/-- Read after write, for every cell list. -/
@[simp] theorem memGet_memSet (m : List Host.Cell) (j k : Nat) (b : Byte) :
    memGet (memSet m k b) j = if j = k then b else memGet m j := by
  unfold memSet
  by_cases hj : j = k
  · subst hj
    split
    · rename_i hb; rw [memGet_filter_same, hb]; simp
    · rw [memGet_memInsert_same]
      · simp
      · intro c hc; simpa using (List.mem_filter.1 hc).2
  · split
    · rw [memGet_filter_other m hj]
    · rw [memGet_memInsert_other _ b hj, memGet_filter_other m hj]

/-! ## The canonical form -/

theorem Memory.wf_iff (size : MemSize) (m : List Host.Cell) :
    Memory.wf size m = true ↔ (m.Pairwise fun c d => c.1 < d.1)
      ∧ ∀ c ∈ m, c.1 < size.bytes ∧ c.2 ≠ unlistedByte := by
  simp [Memory.wf]

theorem Memory.wf_nil (size : MemSize) : Memory.wf size [] = true := by
  simp [Memory.wf_iff]

theorem Memory.wf_filter (size : MemSize) (m : List Host.Cell) (p : Host.Cell → Bool)
    (h : Memory.wf size m = true) : Memory.wf size (m.filter p) = true := by
  rw [Memory.wf_iff] at *
  exact ⟨h.1.filter _, fun c hc => h.2 c (List.mem_filter.1 hc).1⟩

theorem mem_memInsert (m : List Host.Cell) (k : Nat) (b : Byte) (c : Host.Cell) :
    c ∈ memInsert k b m ↔ c = (k, b) ∨ c ∈ m := by
  induction m with
  | nil => simp [memInsert]
  | cons d m ih =>
    unfold memInsert
    split
    · simp
    · simp only [List.mem_cons, ih]; tauto

theorem Memory.wf_memInsert (size : MemSize) (m : List Host.Cell) (k : Nat) (b : Byte)
    (hk : k < size.bytes) (hb : b ≠ unlistedByte) (hm : ∀ c ∈ m, c.1 ≠ k)
    (h : Memory.wf size m = true) : Memory.wf size (memInsert k b m) = true := by
  rw [Memory.wf_iff] at *
  refine ⟨?_, fun c hc => ?_⟩
  · replace h := h.1
    induction m with
    | nil => simp [memInsert]
    | cons d m ih =>
      unfold memInsert
      have hd := hm d (by simp)
      rw [List.pairwise_cons] at h
      split
      · rename_i hlt
        refine List.pairwise_cons.2 ⟨fun c hc => ?_, List.pairwise_cons.2 h⟩
        rcases List.mem_cons.1 hc with rfl | hc
        · exact hlt
        · exact hlt.trans (h.1 c hc)
      · rename_i hlt
        refine List.pairwise_cons.2 ⟨fun c hc => ?_, ih (fun c hc => hm c (by simp [hc])) h.2⟩
        rcases (mem_memInsert ..).1 hc with rfl | hc
        · simp only at hlt hd ⊢; omega
        · exact h.1 c hc
  · rcases (mem_memInsert ..).1 hc with rfl | hc
    · exact ⟨hk, hb⟩
    · exact h.2 c hc

/-- A write inside memory keeps the canonical form. -/
theorem Memory.wf_memSet (size : MemSize) (m : List Host.Cell) (k : Nat) (b : Byte)
    (hk : k < size.bytes) (h : Memory.wf size m = true) :
    Memory.wf size (memSet m k b) = true := by
  unfold memSet
  split
  · exact Memory.wf_filter _ _ _ h
  · rename_i hb
    refine Memory.wf_memInsert _ _ _ _ hk hb (fun c hc => ?_) (Memory.wf_filter _ _ _ h)
    simpa using (List.mem_filter.1 hc).2

/-! ## The byte primitives -/

@[simp] theorem ok_bind {α β : Type} (a : α) (f : α → Except Fault β) :
    (Except.ok a >>= f) = f a := rfl

@[simp] theorem error_bind {α β : Type} (e : Fault) (f : α → Except Fault β) :
    ((Except.error e : Except Fault α) >>= f) = Except.error e := rfl

theorem loadByte_eq_ok {s : State} {a : Int} (h : s.inBounds a) :
    loadByte s a = .ok (memGet s.mem a.toNat) := if_pos h

theorem loadByte_eq_error {s : State} {a : Int} (h : ¬ s.inBounds a) :
    loadByte s a = .error (.outOfBoundsAccess a) := if_neg h

theorem storeByte_eq_ok {s : State} {a : Int} (b : Byte) (h : s.inBounds a) :
    storeByte s a b = .ok (s.setMem (memSet s.mem a.toNat b)) := if_pos h

theorem storeByte_eq_error {s : State} {a : Int} (b : Byte) (h : ¬ s.inBounds a) :
    storeByte s a b = .error (.outOfBoundsAccess a) := if_neg h

/-- Two states with the same capacity and the same bytes load the same. -/
theorem loadByte_congr {s t : State} (hc : t.config.memSize = s.config.memSize) (a : Int)
    (hm : memGet t.mem a.toNat = memGet s.mem a.toNat) : loadByte t a = loadByte s a := by
  simp only [loadByte, State.inBounds, hc, hm]

/-- Every byte-wise write is a write of memory alone: a state after it is the state before it with some
cell list. -/
theorem storeBytes_cases {s t : State} {a : Int} {bs : List Byte} (h : storeBytes s a bs = .ok t) :
    ∃ m, t = s.setMem m ∧ (∀ k : Nat, k < bs.length → s.inBounds (a + k))
      ∧ (Memory.wf s.config.memSize s.mem = true → Memory.wf s.config.memSize m = true) := by
  induction bs generalizing s a with
  | nil =>
    obtain rfl : s = t := Except.ok.inj h
    exact ⟨s.mem, rfl, by simp, id⟩
  | cons b bs ih =>
    by_cases hb : s.inBounds a
    · rw [storeBytes, storeByte_eq_ok b hb] at h
      obtain ⟨m, rfl, hin, hwf⟩ := ih h
      refine ⟨m, rfl, fun k hk => ?_, fun hs => hwf (Memory.wf_memSet _ _ _ _ ?_ hs)⟩
      · rcases k with _ | k
        · simpa using hb
        · have := hin k (by simpa using hk)
          simp only [State.inBounds, setMem_config] at this ⊢
          omega
      · rw [setMem_config]; simp only [State.inBounds] at hb; omega
    · rw [storeBytes, storeByte_eq_error b hb] at h
      cases h

/-- A block of writes in bounds: memory alone changes, and every byte reads as the block or as before. -/
theorem storeBytes_ok (s : State) (a : Nat) (bs : List Byte)
    (h : bs = [] ∨ a + bs.length ≤ s.config.memSize.bytes) :
    ∃ m, storeBytes s a bs = .ok (s.setMem m)
      ∧ ∀ j, memGet m j
        = if j < a then memGet s.mem j else bs[j - a]?.getD (memGet s.mem j) := by
  induction bs generalizing s a with
  | nil => exact ⟨s.mem, rfl, by simp⟩
  | cons b bs ih =>
    simp only [reduceCtorEq, List.length_cons, false_or] at h
    have hb : s.inBounds a := by simp only [State.inBounds]; omega
    obtain ⟨m, hm, hg⟩ := ih (s.setMem (memSet s.mem a b)) (a + 1) (by rw [setMem_config]; omega)
    refine ⟨m, ?_, fun j => ?_⟩
    · rw [storeBytes, storeByte_eq_ok b hb]
      exact_mod_cast hm
    · rw [hg j, setMem_mem, memGet_memSet]
      rcases Nat.lt_trichotomy j a with hj | hj | hj
      · simp [hj, hj.ne, Nat.lt_succ_of_lt hj]
      · simp [hj]
      · have : j - a = j - (a + 1) + 1 := by omega
        simp [Nat.not_lt.2 hj.le, hj.ne', this, show ¬ j < a + 1 by omega]

/-- A block of writes that does not fit faults at the first address outside (R191, R192). -/
theorem storeBytes_error (s : State) (a : Nat) (bs : List Byte) (hne : bs ≠ [])
    (h : s.config.memSize.bytes < a + bs.length) :
    storeBytes s a bs
      = .error (.outOfBoundsAccess (max a s.config.memSize.bytes : Nat)) := by
  induction bs generalizing s a with
  | nil => exact absurd rfl hne
  | cons b bs ih =>
    by_cases hb : s.inBounds a
    · simp only [State.inBounds] at hb
      rw [storeBytes, storeByte_eq_ok b (by simpa [State.inBounds] using hb)]
      have hbs : bs ≠ [] := by rintro rfl; simp at h; omega
      have := ih (s.setMem (memSet s.mem a b)) (a + 1) hbs (by simp at h ⊢; omega)
      rw [setMem_config] at this
      simp only [Int.toNat_natCast]
      refine Eq.trans ?_ (this.trans ?_)
      · norm_cast
      · simp only [max_eq_right (show a + 1 ≤ s.config.memSize.bytes by omega),
          max_eq_right (show a ≤ s.config.memSize.bytes by omega)]
    · rw [storeBytes, storeByte_eq_error b hb]
      simp only [State.inBounds] at hb
      rw [max_eq_left (by omega)]; rfl

/-- A block of reads in bounds. -/
theorem loadBytes_ok (s : State) (a n : Nat) (h : n = 0 ∨ a + n ≤ s.config.memSize.bytes) :
    loadBytes s a n = .ok ((List.range n).map fun k => memGet s.mem (a + k)) := by
  induction n generalizing a with
  | zero => rfl
  | succ n ih =>
    have hb : s.inBounds a := by simp only [State.inBounds]; omega
    rw [loadBytes, loadByte_eq_ok hb]
    have := ih (a + 1) (by omega)
    rw [List.range_succ_eq_map, List.map_cons, List.map_map]
    show (do let bs ← loadBytes s (a + 1) n; Except.ok (_ :: bs)) = _
    rw [show ((a : Int) + 1) = ((a + 1 : Nat) : Int) by push_cast; rfl, this]
    show Except.ok _ = _
    simp only [Int.toNat_natCast, Nat.add_zero, Function.comp_def, Nat.succ_eq_add_one]
    simp only [Nat.add_assoc, Nat.add_comm 1]

/-- A block of reads that does not fit faults at the first address outside (R191, R192). -/
theorem loadBytes_error (s : State) (a n : Nat) (hn : n ≠ 0)
    (h : s.config.memSize.bytes < a + n) :
    loadBytes s a n = .error (.outOfBoundsAccess (max a s.config.memSize.bytes : Nat)) := by
  induction n generalizing a with
  | zero => exact absurd rfl hn
  | succ n ih =>
    by_cases hb : s.inBounds a
    · rw [loadBytes, loadByte_eq_ok hb]
      simp only [State.inBounds] at hb
      show (do let bs ← loadBytes s (a + 1) n; Except.ok (_ :: bs)) = _
      rw [show ((a : Int) + 1) = ((a + 1 : Nat) : Int) by push_cast; rfl,
        ih (a + 1) (by omega) (by omega)]
      show Except.error _ = _
      simp only [max_eq_right (show a + 1 ≤ s.config.memSize.bytes by omega),
          max_eq_right (show a ≤ s.config.memSize.bytes by omega)]
    · rw [loadBytes, loadByte_eq_error hb]
      simp only [State.inBounds] at hb
      rw [max_eq_left (by omega)]; rfl

/-! ## Fetch and stack -/

/-- The value of two bytes, high byte first (R45). -/
theorem wordOfBytes_eq (hi lo : Byte) :
    wordOfBytes hi lo = BitVec.ofNat 16 (hi.toNat * 256 + lo.toNat) := by
  apply BitVec.eq_of_toNat_eq
  have := hi.isLt; have := lo.isLt
  simp only [wordOfBytes, BitVec.toNat_append, BitVec.toNat_ofNat]
  rw [← Nat.shiftLeft_add_eq_or_of_lt (by omega), Nat.shiftLeft_eq]
  omega

/-- The memory after a push in bounds: low byte at `SP`, high byte at `SP + 1`. -/
def pushedMem (s : State) (w : Word) : List Host.Cell :=
  memSet (memSet s.mem s.sp.toNat (w.extractLsb' 0 8)) (s.sp.toNat + 1) (w.extractLsb' 8 8)

/-- A push whose two bytes are in bounds (R84). -/
theorem push_eq_ok {s : State} (w : Word) (h₁ : s.inBounds s.sp.toNat)
    (h₂ : s.inBounds (s.sp.toNat + 1)) :
    push s w = .ok ((s.setMem (pushedMem s w)).setSP (s.sp + 2)) := by
  have h₃ := storeByte_eq_ok (s := s.setMem (memSet s.mem s.sp.toNat (w.extractLsb' 0 8)))
    (w.extractLsb' 8 8) h₂
  unfold push
  rw [storeByte_eq_ok _ h₁, ok_bind, Int.toNat_natCast, h₃]
  rfl

/-- A push that does not fit faults at `SP`, or at `SP + 1` (R84, R192). -/
theorem push_eq_error {s : State} (w : Word) :
    (¬ s.inBounds s.sp.toNat → push s w = .error (.outOfBoundsAccess s.sp.toNat))
    ∧ (s.inBounds s.sp.toNat → ¬ s.inBounds (s.sp.toNat + 1) →
        push s w = .error (.outOfBoundsAccess (s.sp.toNat + 1))) := by
  refine ⟨fun h₁ => ?_, fun h₁ h₂ => ?_⟩
  · unfold push
    rw [storeByte_eq_error _ h₁]
    rfl
  · have h₃ := storeByte_eq_error
      (s := s.setMem (memSet s.mem s.sp.toNat (w.extractLsb' 0 8))) (w.extractLsb' 8 8) h₂
    unfold push
    rw [storeByte_eq_ok _ h₁, ok_bind, Int.toNat_natCast, h₃, error_bind]

/-- Everything a push can do (R84). -/
theorem push_cases {s t : State} {w : Word} (h : push s w = .ok t) :
    s.inBounds s.sp.toNat ∧ s.inBounds (s.sp.toNat + 1)
      ∧ t = (s.setMem (pushedMem s w)).setSP (s.sp + 2) := by
  by_cases h₁ : s.inBounds s.sp.toNat
  · by_cases h₂ : s.inBounds (s.sp.toNat + 1)
    · exact ⟨h₁, h₂, Except.ok.inj (h.symm.trans (push_eq_ok w h₁ h₂))⟩
    · cases h.symm.trans ((push_eq_error w).2 h₁ h₂)
  · cases h.symm.trans ((push_eq_error w).1 h₁)

/-- A pop whose two bytes are in bounds (R85). -/
theorem pop_eq_ok {s : State} (h₁ : 2 ≤ s.sp.toNat) (h₂ : s.sp.toNat ≤ s.config.memSize.bytes) :
    pop s = .ok (wordOfBytes (memGet s.mem (s.sp.toNat - 1)) (memGet s.mem (s.sp.toNat - 2)),
      s.setSP (s.sp - 2)) := by
  unfold pop
  rw [loadByte_eq_ok (by simp only [State.inBounds]; omega),
    loadByte_eq_ok (by simp only [State.inBounds]; omega), ok_bind, ok_bind,
    show ((s.sp.toNat : Int) - 1).toNat = s.sp.toNat - 1 by omega,
    show ((s.sp.toNat : Int) - 2).toNat = s.sp.toNat - 2 by omega]

/-- A pop that is not in bounds faults at `SP - 1`, or at -1 (R44, R85). -/
theorem pop_eq_error {s : State} :
    (s.sp.toNat < 2 → pop s = .error (.outOfBoundsAccess (-1)))
    ∧ (s.config.memSize.bytes < s.sp.toNat →
        pop s = .error (.outOfBoundsAccess (s.sp.toNat - 1))) := by
  refine ⟨fun h => ?_, fun h => ?_⟩
  · unfold pop
    by_cases h₀ : s.sp.toNat = 0
    · rw [loadByte_eq_error (by simp only [State.inBounds]; omega), error_bind, h₀]
      rfl
    · have h₁ : s.sp.toNat = 1 := by omega
      have hpos : 0 < s.config.memSize.bytes := by cases s.config.memSize <;> decide
      rw [loadByte_eq_ok (by simp only [State.inBounds]; omega), ok_bind,
        loadByte_eq_error (by simp only [State.inBounds]; omega), error_bind, h₁]
      rfl
  · unfold pop
    rw [loadByte_eq_error (by simp only [State.inBounds]; omega), error_bind]

/-- Everything a pop can do (R85). -/
theorem pop_cases {s t : State} {w : Word} (h : pop s = .ok (w, t)) :
    2 ≤ s.sp.toNat ∧ s.sp.toNat ≤ s.config.memSize.bytes ∧ t = s.setSP (s.sp - 2)
      ∧ w = wordOfBytes (memGet s.mem (s.sp.toNat - 1)) (memGet s.mem (s.sp.toNat - 2)) := by
  unfold pop at h
  by_cases h₁ : s.inBounds (s.sp.toNat - 1)
  · by_cases h₂ : s.inBounds (s.sp.toNat - 2)
    · rw [loadByte_eq_ok h₁, loadByte_eq_ok h₂] at h
      simp only [State.inBounds] at h₁ h₂
      cases h
      refine ⟨by omega, by omega, rfl, ?_⟩
      congr 2 <;> omega
    · rw [loadByte_eq_ok h₁, loadByte_eq_error h₂] at h
      cases h
  · rw [loadByte_eq_error h₁] at h
    cases h

/-- Everything a fetch can do (R45, R80). -/
theorem fetch_cases {s : State} {op : Word} (h : fetch s = .ok op) :
    s.pc.toNat + 1 < s.config.memSize.bytes
      ∧ op = wordOfBytes (memGet s.mem s.pc.toNat) (memGet s.mem (s.pc.toNat + 1)) := by
  unfold fetch at h
  by_cases h₁ : s.inBounds s.pc.toNat
  · by_cases h₂ : s.inBounds (s.pc.toNat + 1)
    · rw [loadByte_eq_ok h₁, loadByte_eq_ok h₂] at h
      cases h
      simp only [State.inBounds] at h₂
      exact ⟨by omega, rfl⟩
    · rw [loadByte_eq_ok h₁, loadByte_eq_error h₂] at h
      cases h
  · rw [loadByte_eq_error h₁] at h
    cases h

/-- `finish` answers a next state exactly when the accesses all succeeded. -/
theorem finish_eq_next {r : Except Fault State} {t : State} :
    finish r = .next t ↔ r = .ok t := by
  cases r <;> simp [finish]

theorem finish_eq_fault {r : Except Fault State} {f : Fault} :
    finish r = .fault f ↔ r = .error f := by
  cases r <;> simp [finish]

theorem finish_ne_refused {r : Except Fault State} {f : Refusal} : finish r ≠ .refused f := by
  cases r <;> simp [finish]

end Sys2Proof.Machine
end

