-- ==== Sys2Proof/Laws/Display.lean ====
section
/-! SUPPORT. The laws of the display engine: what a pixel reads after each primitive (R140 to R147), that
each primitive keeps the canonical form of a plane, what an operation on the selected planes does to
each plane (R148), and what drawing a list of landed bits does (R160). -/

namespace Sys2Proof.Machine

/-! ## Pixels of one plane -/

@[simp] theorem planeGet_nil (px py : Nat) : planeGet [] px py = false := rfl

theorem planeGet_eq_true {p : Plane} {px py : Nat} : planeGet p px py = true ↔ (px, py) ∈ p := by
  simp [planeGet]

theorem mem_pixelInsert (q r : Pixel) (p : Plane) : r ∈ pixelInsert q p ↔ r = q ∨ r ∈ p := by
  induction p with
  | nil => simp [pixelInsert]
  | cons a p ih =>
    unfold pixelInsert
    split
    · simp
    · simp only [List.mem_cons, ih]; tauto

/-- draw-pixel sets one bit and leaves every other pixel (R141), for every list of pixels. -/
theorem planeGet_planePut (p : Plane) (x y px py : Nat) (b : Bool) :
    planeGet (planePut p x y b) px py = if (px, py) = (x, y) then b else planeGet p px py := by
  unfold planePut planeGet
  cases b
  · by_cases h : (px, py) = (x, y) <;> simp [h]
  · by_cases h : (px, py) = (x, y) <;> simp [h, mem_pixelInsert]

/-! ## The canonical form of a plane -/

theorem planeWf_iff (m : Mode) (p : Plane) :
    planeWf m p = true ↔ p.Pairwise Pixel.before
      ∧ ∀ q ∈ p, q.1 < m.width ∧ q.2 < m.height := by
  simp [planeWf]

theorem planeWf_nil (m : Mode) : planeWf m [] = true := by simp [planeWf_iff]

theorem planeWf_filter (m : Mode) (p : Plane) (f : Pixel → Bool) (h : planeWf m p = true) :
    planeWf m (p.filter f) = true := by
  rw [planeWf_iff] at *
  exact ⟨h.1.filter _, fun q hq => h.2 q (List.mem_filter.1 hq).1⟩

theorem planeWf_pixelInsert (m : Mode) (p : Plane) (q : Pixel) (hq : q.1 < m.width ∧ q.2 < m.height)
    (hn : q ∉ p) (h : planeWf m p = true) : planeWf m (pixelInsert q p) = true := by
  rw [planeWf_iff] at *
  refine ⟨?_, fun r hr => ?_⟩
  · replace h := h.1
    induction p with
    | nil => simp [pixelInsert]
    | cons a p ih =>
      rw [List.pairwise_cons] at h
      have hqa : q ≠ a := fun e => hn (by simp [e])
      unfold pixelInsert
      split
      · rename_i hb
        refine List.pairwise_cons.2 ⟨fun r hr => ?_, List.pairwise_cons.2 h⟩
        rcases List.mem_cons.1 hr with rfl | hr
        · exact hb
        · have := h.1 r hr
          simp only [Pixel.before] at *
          omega
      · rename_i hb
        refine List.pairwise_cons.2 ⟨fun r hr => ?_, ih (fun e => hn (by simp [e])) h.2⟩
        rcases (mem_pixelInsert ..).1 hr with rfl | hr
        · simp only [Pixel.before, ne_eq, Prod.ext_iff] at *
          omega
        · exact h.1 r hr
  · rcases (mem_pixelInsert ..).1 hr with rfl | hr
    · exact hq
    · exact h.2 r hr

theorem planeWf_planePut (m : Mode) (p : Plane) (x y : Nat) (b : Bool)
    (hq : x < m.width ∧ y < m.height) (h : planeWf m p = true) :
    planeWf m (planePut p x y b) = true := by
  unfold planePut
  split
  · exact planeWf_pixelInsert _ _ _ hq (by simp) (planeWf_filter _ _ _ h)
  · exact planeWf_filter _ _ _ h

/-- A move of pixels that keeps raster order and stays inside keeps the canonical form. -/
theorem planeWf_filterMap (m : Mode) (p : Plane) (f : Pixel → Option Pixel)
    (hin : ∀ q r, q.1 < m.width → q.2 < m.height → f q = some r →
      r.1 < m.width ∧ r.2 < m.height)
    (hmono : ∀ a b c d, Pixel.before a b → f a = some c → f b = some d → Pixel.before c d)
    (h : planeWf m p = true) : planeWf m (p.filterMap f) = true := by
  rw [planeWf_iff] at *
  refine ⟨List.Pairwise.filterMap f (fun a b hab c hc d hd => hmono a b c d hab hc hd) h.1,
    fun r hr => ?_⟩
  obtain ⟨q, hq, hqr⟩ := List.mem_filterMap.1 hr
  exact hin q r (h.2 q hq).1 (h.2 q hq).2 hqr

/-! ## Scrolls, pixel by pixel (R143 to R146) -/

theorem planeGet_scrollDown (m : Mode) (k : Nat) (p : Plane) (px py : Nat) (hy : py < m.height) :
    planeGet (scrollDown m k p) px py = if k ≤ py then planeGet p px (py - k) else false := by
  rw [Bool.eq_iff_iff, planeGet_eq_true]
  simp only [scrollDown, List.mem_filterMap]
  split
  · rename_i hk
    rw [planeGet_eq_true]
    constructor
    · rintro ⟨q, hq, h⟩
      split at h <;> simp only [Option.some.injEq, Prod.mk.injEq, reduceCtorEq] at h
      obtain ⟨rfl, rfl⟩ := h
      simpa using hq
    · intro h
      exact ⟨_, h, by rw [if_pos (by simp only; omega)]; simp; omega⟩
  · rename_i hk
    constructor
    · rintro ⟨q, hq, h⟩
      split at h <;> simp only [Option.some.injEq, Prod.mk.injEq, reduceCtorEq] at h
      omega
    · intro h; cases h

theorem planeGet_scrollUp (m : Mode) (k : Nat) (p : Plane) (px py : Nat) (hy : py < m.height) :
    planeGet (scrollUp m k p) px py
      = if py + k < m.height then planeGet p px (py + k) else false := by
  rw [Bool.eq_iff_iff, planeGet_eq_true]
  simp only [scrollUp, List.mem_filterMap]
  split
  · rename_i hk
    rw [planeGet_eq_true]
    constructor
    · rintro ⟨q, hq, h⟩
      split at h <;> simp only [Option.some.injEq, Prod.mk.injEq, reduceCtorEq] at h
      rename_i hc
      obtain ⟨rfl, rfl⟩ := h
      rwa [Nat.sub_add_cancel hc.1]
    · intro h
      exact ⟨_, h, by rw [if_pos (by simp only; omega)]; simp⟩
  · rename_i hk
    constructor
    · rintro ⟨q, hq, h⟩
      split at h <;> simp only [Option.some.injEq, Prod.mk.injEq, reduceCtorEq] at h
      omega
    · intro h; cases h

theorem planeGet_scrollRight (m : Mode) (p : Plane) (px py : Nat) (hx : px < m.width) :
    planeGet (scrollRight m p) px py = if 4 ≤ px then planeGet p (px - 4) py else false := by
  have hs : scrollColumns = 4 := rfl
  rw [Bool.eq_iff_iff, planeGet_eq_true]
  simp only [scrollRight, List.mem_filterMap]
  generalize scrollColumns = k at *
  subst hs
  split
  · rename_i hk
    rw [planeGet_eq_true]
    constructor
    · rintro ⟨q, hq, h⟩
      split at h <;> simp only [Option.some.injEq, Prod.mk.injEq, reduceCtorEq] at h
      obtain ⟨rfl, rfl⟩ := h
      simpa using hq
    · intro h
      exact ⟨_, h, by rw [if_pos (by simp only; omega)]; simp; omega⟩
  · rename_i hk
    constructor
    · rintro ⟨q, hq, h⟩
      split at h <;> simp only [Option.some.injEq, Prod.mk.injEq, reduceCtorEq] at h
      omega
    · intro h; cases h

theorem planeGet_scrollLeft (m : Mode) (p : Plane) (px py : Nat) (hx : px < m.width) :
    planeGet (scrollLeft m p) px py
      = if px + 4 < m.width then planeGet p (px + 4) py else false := by
  have hs : scrollColumns = 4 := rfl
  rw [Bool.eq_iff_iff, planeGet_eq_true]
  simp only [scrollLeft, List.mem_filterMap]
  generalize scrollColumns = k at *
  subst hs
  split
  · rename_i hk
    rw [planeGet_eq_true]
    constructor
    · rintro ⟨q, hq, h⟩
      split at h <;> simp only [Option.some.injEq, Prod.mk.injEq, reduceCtorEq] at h
      rename_i hc
      obtain ⟨rfl, rfl⟩ := h
      rwa [Nat.sub_add_cancel hc.1]
    · intro h
      exact ⟨_, h, by rw [if_pos (by simp only; omega)]; simp⟩
  · rename_i hk
    constructor
    · rintro ⟨q, hq, h⟩
      split at h <;> simp only [Option.some.injEq, Prod.mk.injEq, reduceCtorEq] at h
      omega
    · intro h; cases h

theorem planeWf_scrollDown (m : Mode) (k : Nat) (p : Plane) (h : planeWf m p = true) :
    planeWf m (scrollDown m k p) = true := by
  refine planeWf_filterMap m p _ (fun q r h₁ h₂ hf => ?_) (fun a b c d hab hc hd => ?_) h
  · split at hf <;> simp only [Option.some.injEq, reduceCtorEq] at hf
    subst hf; exact ⟨h₁, by assumption⟩
  · split at hc <;> split at hd <;> simp only [Option.some.injEq, reduceCtorEq] at hc hd
    subst hc hd; simp only [Pixel.before] at *; omega

theorem planeWf_scrollUp (m : Mode) (k : Nat) (p : Plane) (h : planeWf m p = true) :
    planeWf m (scrollUp m k p) = true := by
  refine planeWf_filterMap m p _ (fun q r h₁ h₂ hf => ?_) (fun a b c d hab hc hd => ?_) h
  · split at hf <;> simp only [Option.some.injEq, reduceCtorEq] at hf
    subst hf; exact ⟨h₁, by simp only; omega⟩
  · split at hc <;> split at hd <;> simp only [Option.some.injEq, reduceCtorEq] at hc hd
    subst hc hd; simp only [Pixel.before] at *; omega

theorem planeWf_scrollRight (m : Mode) (p : Plane) (h : planeWf m p = true) :
    planeWf m (scrollRight m p) = true := by
  refine planeWf_filterMap m p _ (fun q r h₁ h₂ hf => ?_) (fun a b c d hab hc hd => ?_) h
  · split at hf <;> simp only [Option.some.injEq, reduceCtorEq] at hf
    subst hf; exact ⟨by assumption, h₂⟩
  · split at hc <;> split at hd <;> simp only [Option.some.injEq, reduceCtorEq] at hc hd
    subst hc hd; simp only [Pixel.before] at *; omega

theorem planeWf_scrollLeft (m : Mode) (p : Plane) (h : planeWf m p = true) :
    planeWf m (scrollLeft m p) = true := by
  refine planeWf_filterMap m p _ (fun q r h₁ h₂ hf => ?_) (fun a b c d hab hc hd => ?_) h
  · split at hf <;> simp only [Option.some.injEq, reduceCtorEq] at hf
    subst hf; exact ⟨by simp only [scrollColumns]; omega, h₂⟩
  · split at hc <;> split at hd <;> simp only [Option.some.injEq, reduceCtorEq] at hc hd
    subst hc hd; simp only [Pixel.before, scrollColumns] at *; omega

/-! ## The selected planes (R148) -/

theorem mem_selectedPlanes (s : State) (id : PlaneId) :
    id ∈ selectedPlanes s.plane ↔ PlaneSelected s id := by
  unfold selectedPlanes
  cases id <;> simp only [PlaneSelected] <;> split <;> split <;> simp_all

theorem selectedPlanes_nodup (m : BitVec 2) : (selectedPlanes m).Nodup := by
  unfold selectedPlanes
  split <;> split <;> simp

/-- An operation on the selected planes in closed form: each selected plane by `f`, nothing else. -/
theorem mapSelected_eq (s : State) (f : Plane → Plane) :
    mapSelected s f = { s with
      p1 := if s.plane.getLsbD 0 then f s.p1 else s.p1
      p2 := if s.plane.getLsbD 1 then f s.p2 else s.p2 } := by
  unfold mapSelected selectedPlanes
  generalize s.plane.getLsbD 0 = b₀
  generalize s.plane.getLsbD 1 = b₁
  cases b₀ <;> cases b₁ <;> rfl

theorem getPlane_mapSelected (s : State) (f : Plane → Plane) (id : PlaneId) :
    (PlaneSelected s id → (mapSelected s f).getPlane id = f (s.getPlane id))
      ∧ (¬ PlaneSelected s id → (mapSelected s f).getPlane id = s.getPlane id) := by
  rw [mapSelected_eq]
  cases id <;> simp only [PlaneSelected, State.getPlane] <;>
    exact ⟨fun h => if_pos h, fun h => if_neg h⟩

/-! ## Drawing -/

/-- One landed bit: the pixel is inverted, every other pixel stays, and the flag is kept or set. -/
theorem planeGet_flipPixel (acc : Plane × Bool) (q : Pixel) (px py : Nat) :
    planeGet (flipPixel acc q).1 px py = (planeGet acc.1 px py ^^ decide ((px, py) = q)) := by
  obtain ⟨x, y⟩ := q
  simp only [flipPixel, planeGet_planePut]
  by_cases h : (px, py) = (x, y)
  · obtain ⟨rfl, rfl⟩ := Prod.mk.inj h; simp
  · simp [h]

theorem planeGet_foldl_flipPixel (qs : List Pixel) (acc : Plane × Bool) (hn : qs.Nodup)
    (px py : Nat) :
    planeGet (qs.foldl flipPixel acc).1 px py = (planeGet acc.1 px py ^^ decide ((px, py) ∈ qs)) := by
  induction qs generalizing acc with
  | nil => simp
  | cons q qs ih =>
    rw [List.nodup_cons] at hn
    rw [List.foldl_cons, ih _ hn.2, planeGet_flipPixel]
    by_cases h : (px, py) = q
    · subst h; simp [hn.1]
    · simp [h]

theorem snd_foldl_flipPixel (qs : List Pixel) (acc : Plane × Bool) (hn : qs.Nodup) :
    (qs.foldl flipPixel acc).2 = (acc.2 || qs.any fun q => planeGet acc.1 q.1 q.2) := by
  induction qs generalizing acc with
  | nil => simp
  | cons q qs ih =>
    rw [List.nodup_cons] at hn
    rw [List.foldl_cons, ih _ hn.2, List.any_cons, ← Bool.or_assoc]
    have h₁ : (flipPixel acc q).2 = (acc.2 || planeGet acc.1 q.1 q.2) := rfl
    rw [h₁]
    congr 1
    rw [Bool.eq_iff_iff, List.any_eq_true, List.any_eq_true]
    refine exists_congr fun r => and_congr_right fun hr => ?_
    rw [planeGet_flipPixel, show decide ((r.1, r.2) = q) = false by
      simp only [Prod.mk.eta, decide_eq_false_iff_not]
      rintro rfl; exact hn.1 hr]
    simp

/-- Landed bits at different pixels: each inverts its pixel (R160). -/
theorem planeGet_flipPixels (p : Plane) (qs : List Pixel) (hn : qs.Nodup) (px py : Nat) :
    planeGet (flipPixels p qs).1 px py = (planeGet p px py ^^ decide ((px, py) ∈ qs)) :=
  planeGet_foldl_flipPixel qs (p, false) hn px py

/-- Landed bits at different pixels: a collision is a landed bit on a pixel that was on before the draw
(R160, R161). -/
theorem snd_flipPixels (p : Plane) (qs : List Pixel) (hn : qs.Nodup) :
    (flipPixels p qs).2 = qs.any fun q => planeGet p q.1 q.2 :=
  (snd_foldl_flipPixel qs (p, false) hn).trans (Bool.false_or _)

theorem planeWf_flipPixels (m : Mode) (p : Plane) (qs : List Pixel)
    (hq : ∀ q ∈ qs, q.1 < m.width ∧ q.2 < m.height) (h : planeWf m p = true) :
    planeWf m (flipPixels p qs).1 = true := by
  unfold flipPixels
  generalize hacc : (p, false) = acc
  have hp : planeWf m acc.1 = true := by rw [← hacc]; exact h
  clear hacc
  induction qs generalizing acc with
  | nil => exact hp
  | cons q qs ih =>
    exact ih (fun r hr => hq r (by simp [hr])) _
      (planeWf_planePut m acc.1 q.1 q.2 _ (hq q (by simp)) hp)

/-- The 1-bits of a sprite: byte `k` holds row `k / rowBytes` and the columns from
`8 * (k % rowBytes)`, bit 7 leftmost (R158). -/
theorem mem_spriteBits (rowBytes : Nat) (bytes : List Byte) (c r : Nat) :
    (c, r) ∈ spriteBits rowBytes bytes ↔
      ∃ k j, ∃ h : k < bytes.length, j < 8 ∧ bytes[k].getLsbD (7 - j) = true
        ∧ c = 8 * (k % rowBytes) + j ∧ r = k / rowBytes := by
  simp only [spriteBits, List.mem_flatMap, List.mem_filterMap, List.mem_range]
  constructor
  · rintro ⟨⟨b, k⟩, hbk, j, hj, h⟩
    obtain ⟨hk, rfl⟩ := List.mk_mem_zipIdx_iff_getElem?.1 hbk |> List.getElem?_eq_some_iff.1
    split at h <;> simp only [Option.some.injEq, Prod.mk.injEq, reduceCtorEq] at h
    exact ⟨k, j, hk, hj, by assumption, h.1.symm, h.2.symm⟩
  · rintro ⟨k, j, hk, hj, hb, rfl, rfl⟩
    refine ⟨(bytes[k], k), List.mk_mem_zipIdx_iff_getElem?.2 (by simp [hk]), j, hj, ?_⟩
    simp [hb]

/-- Where landed bits are (R159). -/
theorem mem_landedPixels (clip : Bool) (m : Mode) (vx vy rowBytes : Nat) (bytes : List Byte)
    (px py : Nat) :
    (px, py) ∈ landedPixels clip m vx vy rowBytes bytes ↔
      ∃ c r, (c, r) ∈ spriteBits rowBytes bytes
        ∧ if clip then vx + c = px ∧ vy + r = py ∧ px < m.width ∧ py < m.height
          else (vx + c) % m.width = px ∧ (vy + r) % m.height = py := by
  simp only [landedPixels, List.mem_filterMap, landing, Prod.exists]
  refine exists_congr fun c => exists_congr fun r => and_congr_right fun _ => ?_
  cases clip
  · simp
  · simp only [if_true]
    constructor
    · intro h
      split at h <;> simp only [Option.some.injEq, Prod.mk.injEq, reduceCtorEq] at h
      rename_i hin
      obtain ⟨rfl, rfl⟩ := h
      exact ⟨rfl, rfl, hin⟩
    · rintro ⟨rfl, rfl, hin⟩
      rw [if_pos hin]

theorem Mode.width_pos (m : Mode) : 0 < m.width := by cases m <;> decide

theorem Mode.height_pos (m : Mode) : 0 < m.height := by cases m <;> decide

/-- Every landed bit is inside the screen. -/
theorem landedPixels_inside (clip : Bool) (m : Mode) (vx vy rowBytes : Nat) (bytes : List Byte)
    (q : Pixel) (hq : q ∈ landedPixels clip m vx vy rowBytes bytes) :
    q.1 < m.width ∧ q.2 < m.height := by
  obtain ⟨px, py⟩ := q
  obtain ⟨c, r, -, h⟩ := (mem_landedPixels ..).1 hq
  cases clip
  · obtain ⟨rfl, rfl⟩ := h
    exact ⟨Nat.mod_lt _ m.width_pos, Nat.mod_lt _ m.height_pos⟩
  · exact h.2.2

/-- One plane of a draw whose bytes are in bounds: it is drawn, and the draw goes on with the next plane's
bytes (R158, R160). -/
theorem drawPlanes_cons_ok (s : State) (vx vy rowBytes len base : Nat) (hit : Bool) (id : PlaneId)
    (ids : List PlaneId) (h : len = 0 ∨ base + len ≤ s.config.memSize.bytes) :
    drawPlanes s vx vy rowBytes len base hit (id :: ids)
      = drawPlanes (s.setPlane id (flipPixels (s.getPlane id) (landedPixels s.config.quirks.clip
            s.mode vx vy rowBytes ((List.range len).map fun k => memGet s.mem (base + k)))).1)
          vx vy rowBytes len (base + len : Nat)
          (hit || (flipPixels (s.getPlane id) (landedPixels s.config.quirks.clip s.mode vx vy
            rowBytes ((List.range len).map fun k => memGet s.mem (base + k)))).2) ids := by
  rw [drawPlanes, loadBytes_ok s base len h, ok_bind]
  push_cast
  rfl

/-- One plane of a draw whose bytes are not all in bounds: the fault is at the first address outside. -/
theorem drawPlanes_cons_error (s : State) (vx vy rowBytes len base : Nat) (hit : Bool) (id : PlaneId)
    (ids : List PlaneId) (hn : len ≠ 0) (h : s.config.memSize.bytes < base + len) :
    drawPlanes s vx vy rowBytes len base hit (id :: ids)
      = .error (.outOfBoundsAccess (max base s.config.memSize.bytes : Nat)) := by
  rw [drawPlanes, loadBytes_error s base len hn h, error_bind]

/-- Everything a draw of planes can do: it changes the two planes alone and keeps their canonical
form. -/
theorem drawPlanes_cases {vx vy rowBytes len : Nat} {ids : List PlaneId} :
    ∀ {s t : State} {base : Int} {hit h : Bool},
      drawPlanes s vx vy rowBytes len base hit ids = .ok (t, h) →
      (∃ p₁ p₂, t = { s with p1 := p₁, p2 := p₂ })
        ∧ (planeWf s.mode s.p1 = true → planeWf s.mode s.p2 = true →
          planeWf s.mode t.p1 = true ∧ planeWf s.mode t.p2 = true) := by
  induction ids with
  | nil =>
    intro s t base hit h e
    obtain ⟨rfl, -⟩ := Prod.mk.inj (Except.ok.inj e)
    exact ⟨⟨s.p1, s.p2, rfl⟩, fun h₁ h₂ => ⟨h₁, h₂⟩⟩
  | cons id ids ih =>
    intro s t base hit h e
    rw [drawPlanes] at e
    cases hb : loadBytes s base len with
    | error f => rw [hb] at e; cases e
    | ok bytes =>
      rw [hb, ok_bind] at e
      obtain ⟨⟨p₁, p₂, rfl⟩, hwf⟩ := ih e
      have hw := fun p => planeWf_flipPixels s.mode p _
        (landedPixels_inside s.config.quirks.clip s.mode vx vy rowBytes bytes)
      cases id
      · exact ⟨⟨p₁, p₂, rfl⟩, fun h₁ h₂ => hwf (hw _ h₁) h₂⟩
      · exact ⟨⟨p₁, p₂, rfl⟩, fun h₁ h₂ => hwf h₁ (hw _ h₂)⟩

end Sys2Proof.Machine
end

