-- ==== Sys2Proof/Laws/Frame.lean ====
section
/-! SUPPORT. The frame of each shared operation: the parts of the state it may change and no other, and how
frames compose. -/

namespace Sys2Proof.Machine

/-- Two states with the same memory and capacity load the same everywhere. -/
theorem loadByte_eq_of_mem {s t : State} (hm : t.mem = s.mem) (hc : t.config = s.config) (a : Int) :
    loadByte t a = loadByte s a :=
  loadByte_congr (congrArg Config.memSize hc) a (by rw [hm])

theorem ChangesOnly.refl (s : State) (parts : List Part) : ChangesOnly s s parts := by
  intro p _
  cases p <;> simp only [Part.same, implies_true]

theorem Part.same_trans {s t u : State} {p : Part} (h₁ : p.same s t) (h₂ : p.same t u) :
    p.same s u := by
  cases p <;> simp only [Part.same] at * <;> first | exact h₂.trans h₁ | exact fun a => (h₂ a).trans (h₁ a)

theorem ChangesOnly.mono {s t : State} {ps qs : List Part} (h : ChangesOnly s t ps)
    (hsub : ∀ p ∈ ps, p ∈ qs) : ChangesOnly s t qs :=
  fun p hp => h p fun hin => hp (hsub p hin)

theorem ChangesOnly.trans {s t u : State} {ps : List Part} (h₁ : ChangesOnly s t ps)
    (h₂ : ChangesOnly t u ps) : ChangesOnly s u ps :=
  fun p hp => Part.same_trans (h₁ p hp) (h₂ p hp)

/-- One operation after another: what either changes. -/
theorem ChangesOnly.append {s t u : State} {ps qs : List Part} (h₁ : ChangesOnly s t ps)
    (h₂ : ChangesOnly t u qs) : ChangesOnly s u (ps ++ qs) :=
  (h₁.mono fun _ h => List.mem_append_left _ h).trans (h₂.mono fun _ h => List.mem_append_right _ h)

/-! ## The operations -/

theorem setPC_changesOnly (s : State) (w : Word) : ChangesOnly s (s.setPC w) [.pc] := by
  intro p hp
  cases p <;> simp [Part.same] at hp ⊢
  exact loadByte_eq_of_mem rfl rfl

theorem setSP_changesOnly (s : State) (w : Word) : ChangesOnly s (s.setSP w) [.sp] := by
  intro p hp
  cases p <;> simp [Part.same] at hp ⊢
  exact loadByte_eq_of_mem rfl rfl

theorem setI_changesOnly (s : State) (w : Word) : ChangesOnly s (s.setI w) [.i] := by
  intro p hp
  cases p <;> simp [Part.same] at hp ⊢
  exact loadByte_eq_of_mem rfl rfl

theorem setRun_changesOnly (s : State) (r : RunState) : ChangesOnly s (s.setRun r) [.run] := by
  intro p hp
  cases p <;> simp [Part.same] at hp ⊢
  exact loadByte_eq_of_mem rfl rfl

theorem setMem_changesOnly (s : State) (m : List Host.Cell) : ChangesOnly s (s.setMem m) [.mem] := by
  intro p hp
  cases p <;> simp [Part.same] at hp ⊢

/-- Taking events off the agenda. -/
theorem withAgenda_changesOnly (s : State) (rest : List Event) :
    ChangesOnly s { s with agenda := rest } [.agenda] := by
  intro p hp
  cases p <;> simp [Part.same, State.getV] at hp ⊢
  exact loadByte_eq_of_mem rfl rfl

/-- Setting the key inputs. -/
theorem withKeys_changesOnly (s : State) (keys : Vector Bool 16) :
    ChangesOnly s { s with keys := keys } [.keys] := by
  intro p hp
  cases p <;> simp [Part.same, State.getV] at hp ⊢
  exact loadByte_eq_of_mem rfl rfl

theorem setV_changesOnly (s : State) (r : Reg) (b : Byte) : ChangesOnly s (s.setV r b) [.v r] := by
  intro p hp
  cases p <;> simp [Part.same] at hp ⊢
  · exact fun h => absurd h hp
  · exact loadByte_eq_of_mem rfl rfl

theorem mem_lowVParts (x r : Reg) : Part.v r ∈ lowVParts x ↔ r ≤ x := by
  simp [lowVParts]

theorem mem_lowRplParts (x r : Reg) : Part.rpl r ∈ lowRplParts x ↔ r ≤ x := by
  simp [lowRplParts]

theorem setLowV_changesOnly (s : State) (x : Reg) (f : Reg → Byte) :
    ChangesOnly s (s.setLowV x f) (lowVParts x) := by
  intro p hp
  cases p with
  | v r =>
    rw [mem_lowVParts] at hp
    rw [Part.same, getV_setLowV, if_neg hp]
  | mem => exact loadByte_eq_of_mem (setLowV_mem ..) (setLowV_config ..)
  | _ => simp only [Part.same, setLowV_rpl, setLowV_i, setLowV_pc, setLowV_sp, setLowV_dt, setLowV_st,
      setLowV_pitch, setLowV_plane, setLowV_mode, setLowV_p1, setLowV_p2, setLowV_run, setLowV_keyreg,
      setLowV_config, setLowV_keys, setLowV_fresh, setLowV_agenda]

theorem setLowRpl_changesOnly (s : State) (x : Reg) (f : Reg → Byte) :
    ChangesOnly s (s.setLowRpl x f) (lowRplParts x) := by
  intro p hp
  cases p with
  | v r => simp only [Part.same, State.getV, setLowRpl_v]
  | rpl r =>
    rw [mem_lowRplParts] at hp
    rw [Part.same, rpl_setLowRpl, if_neg hp]
  | mem => exact loadByte_eq_of_mem (setLowRpl_mem ..) (setLowRpl_config ..)
  | _ => simp only [Part.same, setLowRpl_i, setLowRpl_pc, setLowRpl_sp, setLowRpl_dt, setLowRpl_st,
      setLowRpl_pitch, setLowRpl_plane, setLowRpl_mode, setLowRpl_p1, setLowRpl_p2, setLowRpl_run,
      setLowRpl_keyreg, setLowRpl_config, setLowRpl_keys, setLowRpl_fresh, setLowRpl_agenda]

theorem setFlag_changesOnly (s : State) (f : Bool) : ChangesOnly s (s.setFlag f) [.v vf] :=
  setV_changesOnly s vf (flagByte f)

theorem resultWithFlag_changesOnly (s : State) (x : Reg) (b : Byte) (f : Bool) :
    ChangesOnly s (resultWithFlag s x b f) [.v x, .v vf] :=
  (setV_changesOnly s x b).append (setFlag_changesOnly (s.setV x b) f)

/-- The logic quirk: `VF` is written only when it is on. -/
theorem logicResult_changesOnly (s : State) (x : Reg) (b : Byte) :
    ChangesOnly s (logicResult s x b)
      (if s.config.quirks.logic then [.v x, .v vf] else [.v x]) := by
  unfold logicResult
  split
  · exact resultWithFlag_changesOnly s x b false
  · exact setV_changesOnly s x b

theorem skipIf_changesOnly (c : Bool) (s : State) : ChangesOnly s (skipIf c s) [.pc] := by
  cases c
  · exact ChangesOnly.refl s _
  · exact setPC_changesOnly s _

/-- The draw of a free byte touches no state of the spec. -/
theorem drawByte_changesOnly (s : State) : ChangesOnly s (drawByte s).2 [.fresh] := by
  intro p hp
  cases p <;> simp [Part.same, drawByte, State.getV] at hp ⊢
  exact loadByte_eq_of_mem rfl rfl

/-- Any change of the two planes alone. -/
theorem planes_changesOnly (s : State) (p₁ p₂ : Plane) :
    ChangesOnly s { s with p1 := p₁, p2 := p₂ } [.p1, .p2] := by
  intro p hp
  cases p <;> simp [Part.same, State.getV] at hp ⊢
  exact loadByte_eq_of_mem rfl rfl

theorem mapSelected_changesOnly (s : State) (f : Plane → Plane) :
    ChangesOnly s (mapSelected s f) [.p1, .p2] := by
  rw [mapSelected_eq]
  exact planes_changesOnly s _ _

theorem setMode_changesOnly (s : State) (m : Mode) :
    ChangesOnly s (setMode s m) [.mode, .p1, .p2] := by
  intro p hp
  cases p <;> simp [Part.same] at hp ⊢
  exact loadByte_eq_of_mem rfl rfl

/-- A push writes memory and `SP` alone, and of memory only the two bytes at `SP`. -/
theorem push_changesOnly {s t : State} {w : Word} (h : push s w = .ok t) :
    ChangesOnly s t [.mem, .sp] ∧ MemChangesOnly s t s.sp.toNat 2 := by
  obtain ⟨-, -, rfl⟩ := push_cases h
  refine ⟨(setMem_changesOnly s _).append (setSP_changesOnly _ _), fun a ha => ?_⟩
  refine (loadByte_eq_of_mem (setSP_mem ..) (setSP_config ..) a).trans ?_
  by_cases hin : s.inBounds a
  · refine loadByte_congr (congrArg Config.memSize (setMem_config ..)) a ?_
    have := hin.1
    simp only [setMem_mem, pushedMem, memGet_memSet]
    rw [if_neg (by omega), if_neg (by omega)]
  · rw [loadByte_eq_error hin, loadByte_eq_error (by rwa [State.inBounds, setMem_config])]

/-- A block of writes changes memory alone, and of memory only the bytes of the block. -/
theorem storeBytes_changesOnly {s t : State} {a : Int} {bs : List Byte}
    (h : storeBytes s a bs = .ok t) :
    ChangesOnly s t [.mem] ∧ MemChangesOnly s t a bs.length := by
  refine ⟨?_, ?_⟩
  · obtain ⟨m, rfl, -⟩ := storeBytes_cases h
    exact setMem_changesOnly s m
  · induction bs generalizing s a with
    | nil =>
      obtain rfl : s = t := Except.ok.inj h
      exact fun _ _ => rfl
    | cons b bs ih =>
      intro c hc
      by_cases hb : s.inBounds a
      · rw [storeBytes, storeByte_eq_ok b hb] at h
        rw [ih h c (by simp only [List.length_cons] at hc; omega)]
        by_cases hin : s.inBounds c
        · refine loadByte_congr (congrArg Config.memSize (setMem_config ..)) c ?_
          have := hb.1
          have := hin.1
          simp only [List.length_cons] at hc
          rw [setMem_mem, memGet_memSet, if_neg (by omega)]
        · rw [loadByte_eq_error hin, loadByte_eq_error (by rwa [State.inBounds, setMem_config])]
      · rw [storeBytes, storeByte_eq_error b hb] at h
        cases h

end Sys2Proof.Machine
end

