-- ==== Sys2Proof/Laws/Exec.lean ====
section
/-! SUPPORT. Inversion: for each meaning that can fault, everything it can do when it answers a next state;
and for each block access, where it can fault. -/

namespace Sys2Proof.Machine

/-! ## Next states -/

theorem execRet_cases {s t : State} (h : execRet s = .next t) :
    ∃ w, pop s = .ok (w, s.setSP (s.sp - 2)) ∧ t = (s.setSP (s.sp - 2)).setPC w := by
  unfold execRet at h
  rw [finish_eq_next] at h
  cases hp : pop s with
  | error f => rw [hp] at h; cases h
  | ok r =>
    obtain ⟨w, u⟩ := r
    rw [hp] at h
    obtain ⟨-, -, rfl, -⟩ := pop_cases hp
    cases h
    exact ⟨w, rfl, rfl⟩

theorem execCall_cases {nnn : BitVec 12} {s t : State} (h : execCall nnn s = .next t) :
    ∃ u, push s s.pc = .ok u ∧ t = u.setPC (nnn.setWidth 16) := by
  unfold execCall at h
  rw [finish_eq_next] at h
  cases hp : push s s.pc with
  | error f => rw [hp] at h; cases h
  | ok r => rw [hp] at h; cases h; exact ⟨_, rfl, rfl⟩

theorem execLdB_cases {x : Reg} {s t : State} (h : execLdB x s = .next t) :
    storeBytes s (indexAddr s) (decimalDigits (s.getV x)) = .ok t := by
  unfold execLdB at h
  rwa [finish_eq_next] at h

theorem execStoreRegs_cases {x : Reg} {s t : State} (h : execStoreRegs x s = .next t) :
    ∃ u, storeBytes s (indexAddr s) (s.lowV x) = .ok u ∧ t = u.setI (indexAfter s x) := by
  unfold execStoreRegs at h
  rw [finish_eq_next] at h
  cases hp : storeBytes s (indexAddr s) (s.lowV x) with
  | error f => rw [hp] at h; cases h
  | ok r => rw [hp] at h; cases h; exact ⟨_, rfl, rfl⟩

theorem execLoadRegs_cases {x : Reg} {s t : State} (h : execLoadRegs x s = .next t) :
    ∃ bytes, loadBytes s (indexAddr s) (x.val + 1) = .ok bytes
      ∧ t = (s.setLowV x fun r => bytes.getD r.val 0).setI (indexAfter s x) := by
  unfold execLoadRegs at h
  rw [finish_eq_next] at h
  cases hp : loadBytes s (indexAddr s) (x.val + 1) with
  | error f => rw [hp] at h; cases h
  | ok r => rw [hp] at h; cases h; exact ⟨_, rfl, rfl⟩

/-- A draw changes the planes and `VF` alone, and keeps the canonical form of the planes. -/
theorem execDrw_cases {x y : Reg} {n : Nat} {s t : State} (h : execDrw x y n s = .next t) :
    ∃ p₁ p₂ f, t = State.setFlag { s with p1 := p₁, p2 := p₂ } f
      ∧ (planeWf s.mode s.p1 = true → planeWf s.mode s.p2 = true →
        planeWf s.mode p₁ = true ∧ planeWf s.mode p₂ = true) := by
  unfold execDrw at h
  rw [finish_eq_next] at h
  split at h
  · cases hp : loadBytes s (indexAddr s) (spriteLen s n) with
    | error f => rw [hp] at h; cases h
    | ok r => rw [hp] at h; cases h; exact ⟨s.p1, s.p2, _, rfl, fun h₁ h₂ => ⟨h₁, h₂⟩⟩
  · cases hp : drawPlanes s (s.getV x).toNat (s.getV y).toNat (spriteRowBytes s n)
        (spriteLen s n) (indexAddr s) false (selectedPlanes s.plane) with
    | error f => rw [hp] at h; cases h
    | ok r =>
      obtain ⟨u, hit⟩ := r
      rw [hp] at h
      obtain ⟨⟨p₁, p₂, rfl⟩, hw⟩ := drawPlanes_cases hp
      cases h
      exact ⟨_, _, _, rfl, hw⟩

/-! ## The instruction step -/

/-- The fetch does not read the agenda. -/
theorem fetch_withAgenda (s : State) (rest : List Event) :
    fetch { s with agenda := rest } = fetch s := rfl

/-- An instruction step whose fetch faults stops with that fault (R80). -/
theorem instructionStep_fetch_error {s : State} {f : Fault} (h : fetch s = .error f) :
    instructionStep s = .fault f := by
  simp only [instructionStep, h]

/-! ## Where a block access faults -/

theorem loadByte_error_cases {s : State} {a : Int} {f : Fault} (h : loadByte s a = .error f) :
    f = .outOfBoundsAccess a ∧ ¬ s.inBounds a := by
  by_cases hb : s.inBounds a
  · rw [loadByte_eq_ok hb] at h; cases h
  · rw [loadByte_eq_error hb] at h; cases h; exact ⟨rfl, hb⟩

theorem loadBytes_error_cases {s : State} {n : Nat} {a : Int} {f : Fault}
    (h : loadBytes s a n = .error f) : ∃ b : Int, f = .outOfBoundsAccess b ∧ ¬ s.inBounds b := by
  induction n generalizing a with
  | zero => cases h
  | succ n ih =>
    rw [loadBytes] at h
    cases hb : loadByte s a with
    | error e => rw [hb] at h; cases h; exact ⟨a, loadByte_error_cases hb⟩
    | ok b =>
      rw [hb, ok_bind] at h
      cases hc : loadBytes s (a + 1) n with
      | error e => rw [hc] at h; cases h; exact ih hc
      | ok b => rw [hc] at h; cases h

theorem storeBytes_error_cases {s : State} {bs : List Byte} {a : Int} {f : Fault}
    (h : storeBytes s a bs = .error f) : ∃ b : Int, f = .outOfBoundsAccess b ∧ ¬ s.inBounds b := by
  induction bs generalizing s a with
  | nil => cases h
  | cons b bs ih =>
    by_cases hb : s.inBounds a
    · rw [storeBytes, storeByte_eq_ok _ hb, ok_bind] at h
      obtain ⟨c, h₁, h₂⟩ := ih h
      exact ⟨c, h₁, by rwa [State.inBounds, setMem_config] at h₂⟩
    · rw [storeBytes, storeByte_eq_error _ hb] at h; cases h; exact ⟨a, rfl, hb⟩

theorem drawPlanes_error_cases {ids : List PlaneId} {vx vy rowBytes len : Nat} {f : Fault} :
    ∀ {s : State} {base : Int} {hit : Bool},
      drawPlanes s vx vy rowBytes len base hit ids = .error f →
      ∃ b : Int, f = .outOfBoundsAccess b ∧ ¬ s.inBounds b := by
  induction ids with
  | nil => intro s base hit h; cases h
  | cons id ids ih =>
    intro s base hit h
    rw [drawPlanes] at h
    cases hb : loadBytes s base len with
    | error e => rw [hb] at h; cases h; exact loadBytes_error_cases hb
    | ok bs =>
      rw [hb, ok_bind] at h
      obtain ⟨b, h₁, h₂⟩ := ih h
      exact ⟨b, h₁, by cases id <;> exact h₂⟩

/-! ## Memory stays canonical -/

theorem reset_memory_wf : Memory.wf State.reset.config.memSize State.reset.mem = true :=
  Memory.wf_nil _

theorem push_memory_wf {s t : State} {w : Word} (h : push s w = .ok t)
    (hs : Memory.wf s.config.memSize s.mem = true) :
    Memory.wf t.config.memSize t.mem = true := by
  obtain ⟨h₁, h₂, rfl⟩ := push_cases h
  simp only [State.inBounds] at h₁ h₂
  simp only [setSP_config, setMem_config, setSP_mem, setMem_mem, pushedMem]
  exact Memory.wf_memSet _ _ _ _ (by omega) (Memory.wf_memSet _ _ _ _ (by omega) hs)

theorem storeBytes_memory_wf {s t : State} {a : Int} {bs : List Byte}
    (h : storeBytes s a bs = .ok t) (hs : Memory.wf s.config.memSize s.mem = true) :
    Memory.wf t.config.memSize t.mem = true := by
  obtain ⟨m, rfl, -, hm⟩ := storeBytes_cases h
  rw [setMem_config, setMem_mem]
  exact hm hs

/-! ## The keypad (R170) -/

theorem mem_downKeys (keys : Vector Bool 16) (k : Reg) : k ∈ downKeys keys ↔ keys[k] = true := by
  simp [downKeys]

/-- `currentKey()` is none exactly when no key is down, and otherwise a key that is down (R170, U5). -/
theorem currentKey_cases (keys : Vector Bool 16) (n : Nat) :
    (currentKey keys n = none ↔ ∀ k : Reg, keys[k] = false)
      ∧ ∀ k, currentKey keys n = some k → keys[k] = true := by
  have hm := mem_downKeys keys
  unfold currentKey
  generalize downKeys keys = l at *
  match l with
  | [] =>
    refine ⟨⟨fun _ k => ?_, fun _ => rfl⟩, fun k hk => (by cases hk)⟩
    rw [← Bool.not_eq_true, ← hm k]
    exact List.not_mem_nil
  | [k] =>
    have hk : keys[k] = true := (hm k).1 (List.mem_singleton.2 rfl)
    refine ⟨⟨fun e => (by cases e), fun h => ?_⟩, fun j hj => ?_⟩
    · rw [h k] at hk; cases hk
    · rw [← Option.some.inj hj]; exact hk
  | k :: k' :: ks =>
    have hk : keys[k] = true := (hm k).1 (by simp)
    refine ⟨⟨fun e => (by cases e), fun h => ?_⟩, fun j hj => (hm j).1 ?_⟩
    · rw [h k] at hk; cases hk
    · rw [← Option.some.inj hj, List.getD_eq_getElem _ _ (Nat.mod_lt _ (by simp))]
      exact List.getElem_mem _

end Sys2Proof.Machine
end

