-- ==== Sys2Proof/Laws/PerInstr.lean ====
section
/-! SUPPORT. Facts of each instruction as syntax, one lemma for each constructor.  Family `TableRow`: the
word of an instruction lies in its row of the opcode map (R66), whatever its operands. -/

namespace Sys2Proof

/-! ## Masks of the word formats (R62) -/

theorem packXI_and_f000 (f : BitVec 4) (x : Reg) (nn : Byte) :
    packXI f x nn &&& 0xF000 = f ++ (0 : BitVec 12) := by
  unfold packXI
  generalize (BitVec.ofFin x : BitVec 4) = b
  apply BitVec.eq_of_getLsbD_eq
  intro i hi
  simp only [BitVec.getLsbD_and, BitVec.getLsbD_append]
  interval_cases i <;> simp

theorem packXI_and_f0ff (f : BitVec 4) (x : Reg) (nn : Byte) :
    packXI f x nn &&& 0xF0FF = f ++ (0 : BitVec 4) ++ nn := by
  unfold packXI
  generalize (BitVec.ofFin x : BitVec 4) = b
  apply BitVec.eq_of_getLsbD_eq
  intro i hi
  simp only [BitVec.getLsbD_and, BitVec.getLsbD_append]
  interval_cases i <;> simp

theorem packA_and_f000 (f : BitVec 4) (nnn : BitVec 12) :
    packA f nnn &&& 0xF000 = f ++ (0 : BitVec 12) := by
  unfold packA
  apply BitVec.eq_of_getLsbD_eq
  intro i hi
  simp only [BitVec.getLsbD_and, BitVec.getLsbD_append]
  interval_cases i <;> simp

theorem packNibbles_and_f000 (a b c d : BitVec 4) :
    packNibbles a b c d &&& 0xF000 = a ++ (0 : BitVec 12) := by
  unfold packNibbles
  apply BitVec.eq_of_getLsbD_eq
  intro i hi
  simp only [BitVec.getLsbD_and, BitVec.getLsbD_append]
  interval_cases i <;> simp

theorem packNibbles_and_f00f (a b c d : BitVec 4) :
    packNibbles a b c d &&& 0xF00F = a ++ (0 : BitVec 8) ++ d := by
  unfold packNibbles
  apply BitVec.eq_of_getLsbD_eq
  intro i hi
  simp only [BitVec.getLsbD_and, BitVec.getLsbD_append]
  interval_cases i <;> simp

theorem packNibbles_and_f0f0 (a b c d : BitVec 4) :
    packNibbles a b c d &&& 0xF0F0 = a ++ (0 : BitVec 4) ++ c ++ (0 : BitVec 4) := by
  unfold packNibbles
  apply BitVec.eq_of_getLsbD_eq
  intro i hi
  simp only [BitVec.getLsbD_and, BitVec.getLsbD_append]
  interval_cases i <;> simp

theorem packNibbles_and_f0ff (a b c d : BitVec 4) :
    packNibbles a b c d &&& 0xF0FF = a ++ (0 : BitVec 4) ++ c ++ d := by
  unfold packNibbles
  apply BitVec.eq_of_getLsbD_eq
  intro i hi
  simp only [BitVec.getLsbD_and, BitVec.getLsbD_append]
  interval_cases i <;> simp

/-- Every constructor's row is a row of the opcode map. -/
theorem Instr.tableRow_mem (i : Instr) : i.tableRow ∈ opcodeMap := by
  cases i <;> simp only [Instr.tableRow] <;> decide

end Sys2Proof

namespace Sys2Proof.Laws.TableRow

/-- The word of the instruction matches the instruction's row: `op & mask = match` (R66). -/
def Statement (i : Instr) : Prop := encode i &&& i.tableRow.1 = i.tableRow.2

theorem scd (n : Nat) : Statement (.scd n) := packNibbles_and_f0f0 ..

theorem scu (n : Nat) : Statement (.scu n) := packNibbles_and_f0f0 ..

theorem cls : Statement .cls := rfl

theorem ret : Statement .ret := rfl

theorem scr : Statement .scr := rfl

theorem scl : Statement .scl := rfl

theorem exit : Statement .exit := rfl

theorem low : Statement .low := rfl

theorem high : Statement .high := rfl

theorem jp (nnn : BitVec 12) : Statement (.jp nnn) := packA_and_f000 ..

theorem call (nnn : BitVec 12) : Statement (.call nnn) := packA_and_f000 ..

theorem seImm (x : Reg) (nn : Byte) : Statement (.seImm x nn) := packXI_and_f000 ..

theorem sneImm (x : Reg) (nn : Byte) : Statement (.sneImm x nn) := packXI_and_f000 ..

theorem seReg (x y : Reg) : Statement (.seReg x y) := packNibbles_and_f000 ..

theorem ldImm (x : Reg) (nn : Byte) : Statement (.ldImm x nn) := packXI_and_f000 ..

theorem addImm (x : Reg) (nn : Byte) : Statement (.addImm x nn) := packXI_and_f000 ..

theorem ldReg (x y : Reg) : Statement (.ldReg x y) := packNibbles_and_f00f ..

theorem orReg (x y : Reg) : Statement (.orReg x y) := packNibbles_and_f00f ..

theorem andReg (x y : Reg) : Statement (.andReg x y) := packNibbles_and_f00f ..

theorem xorReg (x y : Reg) : Statement (.xorReg x y) := packNibbles_and_f00f ..

theorem addReg (x y : Reg) : Statement (.addReg x y) := packNibbles_and_f00f ..

theorem subReg (x y : Reg) : Statement (.subReg x y) := packNibbles_and_f00f ..

theorem shrReg (x y : Reg) : Statement (.shrReg x y) := packNibbles_and_f00f ..

theorem subnReg (x y : Reg) : Statement (.subnReg x y) := packNibbles_and_f00f ..

theorem shlReg (x y : Reg) : Statement (.shlReg x y) := packNibbles_and_f00f ..

theorem sneReg (x y : Reg) : Statement (.sneReg x y) := packNibbles_and_f000 ..

theorem ldI (nnn : BitVec 12) : Statement (.ldI nnn) := packA_and_f000 ..

theorem jpV0 (nnn : BitVec 12) : Statement (.jpV0 nnn) := packA_and_f000 ..

theorem rnd (x : Reg) (nn : Byte) : Statement (.rnd x nn) := packXI_and_f000 ..

theorem drw (x y : Reg) (n : Nat) : Statement (.drw x y n) := packNibbles_and_f000 ..

theorem skp (x : Reg) : Statement (.skp x) := packXI_and_f0ff ..

theorem sknp (x : Reg) : Statement (.sknp x) := packXI_and_f0ff ..

theorem plane (n : BitVec 4) : Statement (.plane n) := packNibbles_and_f0ff ..

theorem ldVxDt (x : Reg) : Statement (.ldVxDt x) := packXI_and_f0ff ..

theorem ldVxK (x : Reg) : Statement (.ldVxK x) := packXI_and_f0ff ..

theorem ldDtVx (x : Reg) : Statement (.ldDtVx x) := packXI_and_f0ff ..

theorem ldStVx (x : Reg) : Statement (.ldStVx x) := packXI_and_f0ff ..

theorem addI (x : Reg) : Statement (.addI x) := packXI_and_f0ff ..

theorem ldF (x : Reg) : Statement (.ldF x) := packXI_and_f0ff ..

theorem ldHf (x : Reg) : Statement (.ldHf x) := packXI_and_f0ff ..

theorem ldB (x : Reg) : Statement (.ldB x) := packXI_and_f0ff ..

theorem pitch (x : Reg) : Statement (.pitch x) := packXI_and_f0ff ..

theorem storeRegs (x : Reg) : Statement (.storeRegs x) := packXI_and_f0ff ..

theorem loadRegs (x : Reg) : Statement (.loadRegs x) := packXI_and_f0ff ..

theorem storeRpl (x : Reg) : Statement (.storeRpl x) := packXI_and_f0ff ..

theorem loadRpl (x : Reg) : Statement (.loadRpl x) := packXI_and_f0ff ..

end Sys2Proof.Laws.TableRow
end

