-- ==== Sys2Proof/Tests/Slice0.lean ====
section
/-! SUPPORT. Tests.  Expected results are from spec/95_test_vectors.md and the rules' worked examples, never
from the model.  Four parts: what `wellFormed` refuses; words written out from the encoding rules and
what they decode to; one step of each instruction; a state that meets the hypotheses of each statement. -/

namespace Sys2Proof.Tests

open Sys2Proof Sys2Proof.Machine

/-! ## Well-formedness: a count that does not fit `op[3:0]` is refused (R61, R70) -/

theorem test_wf_refuses_scd_16 : (Instr.scd 16).wellFormed = false := by decide
theorem test_wf_refuses_scu_16 : (Instr.scu 16).wellFormed = false := by decide
theorem test_wf_refuses_drw_16 : (Instr.drw 0 1 16).wellFormed = false := by decide
theorem test_wf_accepts_15 :
    (Instr.scd 15).wellFormed && (Instr.scu 15).wellFormed && (Instr.drw 15 15 15).wellFormed
      = true := by decide

/-! ## Words (R66; T-ENC-1, T-ENC-2) -/

theorem test_decode_family_0 :
    [0x00C0, 0x0ACF, 0x00D3, 0x00E0, 0x0FE0, 0x00EE, 0x00FB, 0x00FC, 0x00FD, 0x00FE, 0x00FF].map
        decodeWord
      = [some (.scd 0), some (.scd 15), some (.scu 3), some .cls, some .cls, some .ret, some .scr,
         some .scl, some .exit, some .low, some .high] := by decide
theorem test_decode_families_1_to_7 :
    [0x1ABC, 0x220A, 0x3542, 0x4307, 0x5AB7, 0x6F2A, 0x70FF].map decodeWord
      = [some (.jp 0xABC), some (.call 0x20A), some (.seImm 5 0x42), some (.sneImm 3 7),
         some (.seReg 0xA 0xB), some (.ldImm 0xF 0x2A), some (.addImm 0 0xFF)] := by decide
theorem test_decode_family_8 :
    [0x8120, 0x8121, 0x8122, 0x8123, 0x8124, 0x8125, 0x8126, 0x8127, 0x8ABE].map decodeWord
      = [some (.ldReg 1 2), some (.orReg 1 2), some (.andReg 1 2), some (.xorReg 1 2),
         some (.addReg 1 2), some (.subReg 1 2), some (.shrReg 1 2), some (.subnReg 1 2),
         some (.shlReg 0xA 0xB)] := by decide
theorem test_decode_families_9_to_E :
    [0x9AB3, 0xA300, 0xB210, 0xC00F, 0xD12A, 0xEA9E, 0xE5A1].map decodeWord
      = [some (.sneReg 0xA 0xB), some (.ldI 0x300), some (.jpV0 0x210), some (.rnd 0 0x0F),
         some (.drw 1 2 10), some (.skp 0xA), some (.sknp 5)] := by decide
theorem test_decode_family_F :
    [0xF701, 0xF107, 0xF30A, 0xF215, 0xF418, 0xFF1E, 0xF629].map decodeWord
      = [some (.plane 7), some (.ldVxDt 1), some (.ldVxK 3), some (.ldDtVx 2), some (.ldStVx 4),
         some (.addI 0xF), some (.ldF 6)] := by decide
theorem test_decode_family_F_memory :
    [0xF830, 0xF933, 0xF03A, 0xF255, 0xF365, 0xF175, 0xFF85].map decodeWord
      = [some (.ldHf 8), some (.ldB 9), some (.pitch 0), some (.storeRegs 2), some (.loadRegs 3),
         some (.storeRpl 1), some (.loadRpl 0xF)] := by decide
theorem test_decode_unsupported :
    [0x0000, 0x0123, 0x00BF, 0x00E1, 0x00ED, 0x00EF, 0x00FA, 0x8AB8, 0x8ABF, 0xE09D, 0xE0A2, 0xF002,
      0xF0FF, 0xF066].all (fun w => decodeWord w == none) = true := by decide
theorem test_decode_bytes_big_endian :
    decode [0x6A, 0x0B, 0x00] = .ok (.ldImm 0xA 0x0B, [0x00]) := by decide
theorem test_decode_truncated : decode [0x6A] = .error .truncated := by decide
theorem test_table_word_unsupported : decodeTableWord 16 0xF000 = none := by decide

/-! ## One step on a small state -/

/-- A launched core with a chosen quirk setting, 4096 bytes, nothing listed, `BIG_FONT_BASE` = 0x50. -/
def boot (q : Quirks) : State := State.launch ⟨.kb4, q, 0x50⟩ []

/-- Quirks off, the setting of the vectors. -/
def off : State := boot Quirks.allOff

/-- All quirks on. -/
def on : State := boot ⟨true, true, true, true, true⟩

/-- A core of 65536 bytes. -/
def big : State := State.launch ⟨.kb64, Quirks.allOff, 0x50⟩ []

/-- What `f` sees after one step that runs the word `w` at `PC`. -/
def after {α : Type} (s : State) (w : Nat) (f : State → α) : Option α :=
  match step (s.withFetchWord 16 w) with
  | .next t => some (f t)
  | .fault _ => none
  | .refused _ => none

/-- The address a faulting step reports. -/
def faultAt (s : State) (w : Nat) : Option Int := faultOut (step (s.withFetchWord 16 w))

/-- Set two registers. -/
def two (s : State) (x : Reg) (a : Byte) (y : Reg) (b : Byte) : State := (s.setV x a).setV y b

theorem test_ldImm : after off 0x6005 (fun t => (t.getV 0, t.pc)) = some (5, 0x202) := by decide
theorem test_addImm_wraps_no_flag :
    after (off.setV 0 0xFF) 0x7001 (fun t => (t.getV 0, t.getV vf)) = some (0, 0) := by decide
theorem test_ldReg : after (off.setV 1 0x2A) 0x8010 (fun t => t.getV 0) = some 0x2A := by decide
theorem test_orReg_off :
    after (two (off.setV vf 1) 0 0xF0 1 0x0F) 0x8011 (fun t => (t.getV 0, t.getV vf))
      = some (0xFF, 1) := by decide
theorem test_orReg_on_flag_last :
    after (two on 0xF 0x0F 1 0xF0) 0x8F11 (fun t => t.getV vf) = some 0 := by decide
theorem test_andReg_on :
    after (two (on.setV vf 1) 0 0xF3 1 0x3C) 0x8012 (fun t => (t.getV 0, t.getV vf))
      = some (0x30, 0) := by decide
theorem test_xorReg_off :
    after (two (off.setV vf 1) 0 0xFF 1 0x0F) 0x8013 (fun t => (t.getV 0, t.getV vf))
      = some (0xF0, 1) := by decide
theorem test_addReg_carry :
    after (two off 0 200 1 100) 0x8014 (fun t => (t.getV 0, t.getV vf)) = some (0x2C, 1) := by decide
theorem test_addReg_flag_last :
    after (two off 0xF 0x10 0xE 0x20) 0x8FE4 (fun t => t.getV vf) = some 0 := by decide
theorem test_subReg_borrow :
    after (two off 0 5 1 7) 0x8015 (fun t => (t.getV 0, t.getV vf)) = some (0xFE, 0) := by decide
theorem test_subReg_equal :
    after (off.setV vf 0x33) 0x8FF5 (fun t => t.getV vf) = some 1 := by decide
theorem test_subnReg :
    after (two off 0 5 1 7) 0x8017 (fun t => (t.getV 0, t.getV vf)) = some (2, 1) := by decide
theorem test_shrReg_off :
    after (two off 0 0xFF 1 0x05) 0x8016 (fun t => (t.getV 0, t.getV vf)) = some (2, 1) := by decide
theorem test_shrReg_on :
    after (two on 0 0x01 1 0x00) 0x8016 (fun t => (t.getV 0, t.getV vf)) = some (0, 1) := by decide
theorem test_shlReg_off :
    after (two off 0 0x80 1 0x7F) 0x801E (fun t => (t.getV 0, t.getV vf)) = some (0xFE, 0) := by decide
theorem test_shlReg_on :
    after (two on 0 0xFF 1 0x00) 0x801E (fun t => (t.getV 0, t.getV vf)) = some (0xFE, 1) := by decide
/-- The draw is a free byte, so only what R112 guarantees is tested: the mask 0 gives 0. -/
theorem test_rnd_mask_zero : after (off.setV 0 0x77) 0xC000 (fun t => t.getV 0) = some 0 := by
  have h : ∀ b : Byte, (b &&& 0) = 0 := by decide
  exact congrArg some (h _)

theorem test_jp : after off 0x1ABC (fun t => t.pc) = some 0xABC := by decide
theorem test_jpV0_off : after (off.setV 0 0xFF) 0xBFFF (fun t => t.pc) = some 0x10FE := by decide
theorem test_jpV0_on :
    after (two on 0 4 2 0x10) 0xB210 (fun t => t.pc) = some 0x220 := by decide
theorem test_call_stack_bytes :
    after off 0x2ABC (fun t => (t.pc, t.sp, memGet t.mem 0x52, memGet t.mem 0x53))
      = some (0xABC, 0x54, 0x02, 0x02) := by decide
theorem test_call_past_memory : faultAt (off.setSP 0x0FFF) 0x2300 = some 0x1000 := by decide
theorem test_ret :
    after (off.setMem [(0x50, 0x34), (0x51, 0x02)]) 0x00EE (fun t => (t.pc, t.sp))
      = some (0x234, 0x50) := by decide
theorem test_ret_below_zero : faultAt (off.setSP 1) 0x00EE = some (-1) := by decide
theorem test_seImm : after off 0x3000 (fun t => t.pc) = some 0x204 := by decide
theorem test_seImm_not : after (off.setV 0 1) 0x3000 (fun t => t.pc) = some 0x202 := by decide
theorem test_sneImm : after (off.setV 3 7) 0x4308 (fun t => t.pc) = some 0x204 := by decide
theorem test_sneImm_not : after (off.setV 3 7) 0x4307 (fun t => t.pc) = some 0x202 := by decide
theorem test_seReg : after (two off 1 9 2 9) 0x5122 (fun t => t.pc) = some 0x204 := by decide
theorem test_sneReg : after (two off 1 9 2 8) 0x9120 (fun t => t.pc) = some 0x204 := by decide
theorem test_skip_wraps :
    after (big.setPC 0xFFFC) 0x3000 (fun t => t.pc) = some 0 := by decide
theorem test_exit : after off 0x00FD (fun t => (t.run, t.pc)) = some (.stopped, 0x202) := by decide

theorem test_ldI : after off 0xAFFF (fun t => t.i) = some 0xFFF := by decide
theorem test_addI_no_flag :
    after ((off.setI 0x0FFF).setV 0 2) 0xF01E (fun t => (t.i, t.getV vf)) = some (0x1001, 0) := by decide
theorem test_addI_wraps : after ((big.setI 0xFFFF).setV 0 2) 0xF01E (fun t => t.i) = some 1 := by decide
theorem test_ldF_not_masked : after (off.setV 0 0xFF) 0xF029 (fun t => t.i) = some 0x4FB := by decide
theorem test_ldHf : after (off.setV 0 15) 0xF030 (fun t => t.i) = some 0xE6 := by decide
theorem test_ldB :
    after ((off.setI 0x300).setV 0 234) 0xF033
      (fun t => ([0x300, 0x301, 0x302].map (memGet t.mem), t.i)) = some ([2, 3, 4], 0x300) := by decide
theorem test_ldB_past_memory : faultAt ((off.setI 0xFFE).setV 0 234) 0xF033 = some 0x1000 := by decide
theorem test_storeRegs_off :
    after ((two (off.setI 0x300) 0 1 1 2).setV 2 3) 0xF255
      (fun t => ([0x300, 0x301, 0x302, 0x303].map (memGet t.mem), t.i))
      = some ([1, 2, 3, 0], 0x303) := by decide
theorem test_storeRegs_on :
    after ((on.setI 0x300).setV 0 0xAB) 0xF055 (fun t => (memGet t.mem 0x300, t.i))
      = some (0xAB, 0x300) := by decide
theorem test_loadRegs_off :
    after (((off.setI 0x300).setV 3 9).setMem [(0x300, 2), (0x301, 3), (0x302, 4)]) 0xF265
      (fun t => ([0, 1, 2, 3].map t.getV, t.i)) = some ([2, 3, 4, 9], 0x303) := by decide
theorem test_loadRegs_past_memory : faultAt (off.setI 0x1001) 0xF065 = some 0x1001 := by decide
theorem test_storeRpl :
    after ((two off 0 9 1 8).setV 2 7) 0xF175 (fun t => (t.rpl[0], t.rpl[1], t.rpl[2]))
      = some (9, 8, 0) := by decide
theorem test_loadRpl :
    after (off.setLowRpl 1 fun r => if r = 0 then 9 else 8) 0xF185
      (fun t => (t.getV 0, t.getV 1, t.getV 2)) = some (9, 8, 0) := by decide

/-- Both planes at once. -/
def planes (t : State) : Plane × Plane := (t.p1, t.p2)

theorem test_cls_one_plane :
    after ((off.setPlane .one [(3, 3)]).setPlane .two [(3, 3)]) 0x00E0 planes
      = some ([], [(3, 3)]) := by decide
theorem test_scd :
    after ((off.setPlane .one [(0, 0), (10, 10), (63, 31)]).setPlane .two [(5, 5)]) 0x00C3 planes
      = some ([(0, 3), (10, 13)], [(5, 5)]) := by decide
theorem test_scu :
    after (off.setPlane .one [(0, 3), (10, 13)]) 0x00D4 planes = some ([(10, 9)], []) := by decide
theorem test_scr_normal :
    after (off.setPlane .one [(59, 0), (60, 0)]) 0x00FB planes = some ([(63, 0)], []) := by decide
theorem test_scr_extended :
    after ((setMode off .extended).setPlane .one [(123, 0), (124, 0)]) 0x00FB planes
      = some ([(127, 0)], []) := by decide
theorem test_scl :
    after (off.setPlane .one [(3, 0), (4, 0)]) 0x00FC planes = some ([(0, 0)], []) := by decide
theorem test_low_clears_without_a_change :
    after ((off.setPlane .one [(1, 1)]).setPlane .two [(2, 2)]) 0x00FE (fun t => (t.mode, planes t))
      = some (.normal, [], []) := by decide
theorem test_high :
    after (off.setPlane .two [(2, 2)]) 0x00FF (fun t => (t.mode, planes t, t.plane))
      = some (.extended, ([], []), 1) := by decide
theorem test_plane_low_two_bits :
    after off 0xF701 (fun t => t.plane) = some 3 := by decide
theorem test_plane_four_is_none : after off 0xF401 (fun t => t.plane) = some 0 := by decide
theorem test_drw_bit_order :
    after ((off.setI 0x300).setMem [(0x300, 0xAA)]) 0xD011 (fun t => (t.p1, t.p2, t.getV vf, t.i))
      = some ([(0, 0), (2, 0), (4, 0), (6, 0)], [], 0, 0x300) := by decide
/-- T-DRW-3b: a collision and pixels that stay, on one draw. -/
theorem test_drw_collision :
    after (((off.setI 0x300).setMem [(0x300, 0xAA)]).setPlane .one [(0, 0)]) 0xD011
      (fun t => (t.p1, t.getV vf)) = some ([(2, 0), (4, 0), (6, 0)], 1) := by decide
/-- T-DRW-5b: the wrapped bit collides, the clipped bit does not. -/
theorem test_drw_wraps :
    after (((two off 0 63 1 0).setI 0x300 |>.setMem [(0x300, 0xC0)]).setPlane .one [(0, 0)]) 0xD011
      (fun t => (t.p1, t.getV vf)) = some ([(63, 0)], 1) := by decide
theorem test_drw_clips :
    after (((two on 0 63 1 0).setI 0x300 |>.setMem [(0x300, 0xC0)]).setPlane .one [(0, 0)]) 0xD011
      (fun t => (t.p1, t.getV vf)) = some ([(0, 0), (63, 0)], 0) := by decide
theorem test_drw_past_memory : faultAt (off.setI 0xFFF) 0xD012 = some 0x1000 := by decide

/-- One key down. -/
def press (s : State) (k : Reg) : State := { s with keys := s.keys.set k true }

theorem test_skp : after (press (off.setV 0 5) 5) 0xE09E (fun t => t.pc) = some 0x204 := by decide
theorem test_skp_not_masked :
    after (press (off.setV 0 0x15) 5) 0xE09E (fun t => t.pc) = some 0x202 := by decide
theorem test_sknp : after (off.setV 0 5) 0xE0A1 (fun t => t.pc) = some 0x204 := by decide
theorem test_sknp_down : after (press (off.setV 0 5) 5) 0xE0A1 (fun t => t.pc) = some 0x202 := by decide
theorem test_ldVxK :
    after off 0xF30A (fun t => (t.run, t.keyreg, t.pc)) = some (.awaitingKey, 3, 0x202) := by decide
theorem test_key_poll :
    keyPollStep (press { off.setRun .awaitingKey with keyreg := 3 } 0xB)
      = { (press { off with keyreg := 3 } 0xB).setV 3 0x0B with fresh := 1 } := by decide
theorem test_ldVxDt : after { off with dt := 0x3C } 0xF007 (fun t => t.getV 0) = some 0x3C := by decide
theorem test_ldDtVx : after (off.setV 0 5) 0xF015 (fun t => t.dt) = some 5 := by decide
theorem test_ldStVx :
    after (off.setV 0 2) 0xF018 (fun t => (t.st, toneOn t)) = some (2, true) := by decide
theorem test_pitch : after (off.setV 0 0x70) 0xF03A tonePitch = some 0x70 := by decide
theorem test_tick_no_wrap :
    (tickStep { off with dt := 1 }).dt = 0 ∧ (tickStep { off with dt := 0 }).dt = 0 := by decide
theorem test_tick_not_when_stopped :
    tickStep { off.setRun .stopped with dt := 9, st := 9 }
      = { off.setRun .stopped with dt := 9, st := 9 } := by decide
theorem test_no_op :
    after off 0xF000 (fun t => (t.pc, t.i, t.run)) = some (0x202, 0, .running) := by decide
theorem test_fetch_odd_pc :
    after (off.setPC 0x201) 0x6A0B (fun t => (t.getV 0xA, t.pc)) = some (0x0B, 0x203) := by decide
theorem test_fetch_second_byte_outside :
    faultOut (step (off.setPC 0xFFF)) = some 0x1000 := by decide
theorem test_key_level :
    perform (.keyLevel 15 true) off = .next (press off 15)
      ∧ perform (.keyLevel 15 false) (press off 15) = .next off := ⟨rfl, rfl⟩
/-- The four colours (R25, R149): off, plane 1, plane 2, both. -/
theorem test_colours :
    [0, 1, 2, 3].map (colourAt ((off.setPlane .one [(1, 0), (3, 0)]).setPlane .two [(2, 0), (3, 0)]) · 0)
      = [0, 1, 2, 3] := by decide
theorem test_rate_of_64 : playbackRate 64 = 4000 := if_pos rfl

/-! ## Witnesses: states and operands that meet the hypotheses of each statement, clause by clause, at the
boundary of each range -/

/-- A core with one instruction word at `PC` and the given agenda. -/
def withWord (w : Nat) (agenda : List Event) : State :=
  { off with
    mem := [(0x200, BitVec.ofNat 8 (w / 256)), (0x201, BitVec.ofNat 8 w)], agenda := agenda }

theorem witness_ResetIsIdempotentAndForgets :
    off ≠ off.setV 1 7 ∧ off.mem = (off.setV 1 7).mem ∧ off.config = (off.setV 1 7).config
      ∧ off.keys = (off.setV 1 7).keys ∧ off.fresh = (off.setV 1 7).fresh
      ∧ off.agenda = (off.setV 1 7).agenda := by decide
theorem witness_OnlyLegalConfigurationsAreBuilt :
    ((4096 = 4096 ∨ 4096 = 65536) ∧ 4095 < 4096) ∧ ((65536 = 4096 ∨ 65536 = 65536) ∧ 65535 < 65536)
      ∧ ¬ (4095 = 4096 ∨ 4095 = 65536)
      ∧ ((4096 = 4096 ∨ 4096 = 65536) ∧ 4096 ≤ 4096) := by decide
theorem witness_MemoryReadsWhatWasWritten :
    off.inBounds 0 ∧ off.inBounds 4095 ∧ big.inBounds 65535
      ∧ ¬ off.inBounds (-1) ∧ ¬ off.inBounds 4096 ∧ ¬ big.inBounds 65536 := by decide
theorem witness_FetchSeesStoresAtOnce :
    (off.setPC 0xFFE).pc.toNat + 1 < (off.setPC 0xFFE).config.memSize.bytes := by decide
theorem witness_DecodingFollowsTheOpcodeMap :
    (0xF0F0, 0x00C0) ∈ opcodeMap ∧ (0x0ACF : Word) &&& 0xF0F0 = 0x00C0
      ∧ decodeWord 0x0ACF = some (.scd 15) := by decide
theorem witness_DecodeOfEncodeIsTheInstruction : (Instr.drw 15 15 15).wellFormed = true := by decide
theorem witness_EncodeOfDecodeDropsOnlyIgnoredBits :
    decodeWord 0x5AB7 = some (.seReg 0xA 0xB) ∧ decodeWord 0x0FE0 = some .cls := by decide
/-- Both ways to choose the instruction step, the last fetchable `PC` among them. -/
theorem witness_StepRunsTheDecodedInstruction :
    (off.run = .running ∧ off.agenda = [])
      ∧ (withWord 0x6005 [.instruction, .tick]).agenda = .instruction :: [.tick]
      ∧ loadByte (withWord 0x6005 []) (withWord 0x6005 []).pc.toNat = .ok 0x60
      ∧ loadByte (withWord 0x6005 []) ((withWord 0x6005 []).pc.toNat + 1) = .ok 0x05
      ∧ loadByte ((withWord 0x6005 []).setPC 0xFFE) (0xFFE + 1) = .ok 0
      ∧ decodeWord (BitVec.ofNat 16 ((0x60 : Byte).toNat * 256 + (0x05 : Byte).toNat))
        = some (.ldImm 0 5) := by decide
theorem word_0123_in_no_row :
    ∀ row ∈ opcodeMap,
      BitVec.ofNat 16 ((0x01 : Byte).toNat * 256 + (0x23 : Byte).toNat) &&& row.1 ≠ row.2 := by
  have h : (opcodeMap.all fun row => decide (BitVec.ofNat 16
      ((0x01 : Byte).toNat * 256 + (0x23 : Byte).toNat) &&& row.1 ≠ row.2)) = true := by decide
  exact fun row hr => of_decide_eq_true (List.all_eq_true.1 h row hr)
theorem witness_UnsupportedWordIsANoOp :
    (withWord 0x0123 []).run = .running ∧ (withWord 0x0123 []).agenda = []
      ∧ loadByte (withWord 0x0123 []) (withWord 0x0123 []).pc.toNat = .ok 0x01
      ∧ loadByte (withWord 0x0123 []) ((withWord 0x0123 []).pc.toNat + 1) = .ok 0x23
      ∧ ∀ row ∈ opcodeMap,
        BitVec.ofNat 16 ((0x01 : Byte).toNat * 256 + (0x23 : Byte).toNat) &&& row.1 ≠ row.2 :=
  ⟨by decide, by decide, by decide, by decide, word_0123_in_no_row⟩
theorem witness_FetchIsBigEndianAndFaultsAtTheFirstByteOutside :
    (off.setPC 0xFFE).pc.toNat + 1 < off.config.memSize.bytes
      ∧ off.config.memSize.bytes ≤ (off.setPC 0x1000).pc.toNat
      ∧ (off.setPC 0xFFF).pc.toNat + 1 = off.config.memSize.bytes
      ∧ (off.setPC 0xFFF).run = .running ∧ (off.setPC 0xFFF).agenda = []
      ∧ ((withWord 0 [.instruction, .tick]).setPC 0xFFF).run = .running
      ∧ ((withWord 0 [.instruction, .tick]).setPC 0xFFF).agenda = .instruction :: [.tick] := by
  decide
theorem witness_LogicResultsAndTheLogicQuirk :
    ((0 : Reg) ≠ vf ∨ off.config.quirks.logic = false)
      ∧ on.config.quirks.logic = true ∧ off.config.quirks.logic = false
      ∧ ∃ (i : Instr) (pattern : Word) (f : Bool → Bool → Bool),
        (i, pattern, f) = (Instr.xorReg 0 1, 0x8003, fun a b => a ^^ b) :=
  ⟨by decide, by decide, by decide, _, _, _, rfl⟩
theorem witness_AddAndSubtractResultsAndFlags : (14 : Reg) ≠ vf := by decide
theorem witness_ShiftResultsAndTheShiftQuirk :
    (5 : Nat) = (if off.config.quirks.shift then ((two off 0 9 1 5).getV 0).toNat
        else ((two off 0 9 1 5).getV 1).toNat)
      ∧ (9 : Nat) = (if on.config.quirks.shift then ((two on 0 9 1 5).getV 0).toNat
        else ((two on 0 9 1 5).getV 1).toNat) ∧ (0 : Reg) ≠ vf := by decide
theorem witness_JumpTargets :
    (0 : Reg).val = (if off.config.quirks.jump then (0xFFF : BitVec 12).toNat / 256 else 0)
      ∧ (15 : Reg).val = (if on.config.quirks.jump then (0xFFF : BitVec 12).toNat / 256 else 0) := by
  decide
theorem witness_CallPushesTheReturnAddress :
    (off.setSP 0xFFE).sp.toNat + 1 < off.config.memSize.bytes
      ∧ off.config.memSize.bytes ≤ (off.setSP 0x1000).sp.toNat
      ∧ (off.setSP 0xFFF).sp.toNat + 1 = off.config.memSize.bytes := by decide
theorem witness_ReturnPopsTheAddress :
    (2 ≤ (off.setSP 2).sp.toNat ∧ (off.setSP 0x1000).sp.toNat ≤ off.config.memSize.bytes)
      ∧ (off.setSP 1).sp.toNat < 2
      ∧ off.config.memSize.bytes < (off.setSP 0x1001).sp.toNat := by decide
theorem witness_CallThenReturnComesBack :
    ((big.setSP 0xFFFD).sp.toNat + 1 < big.config.memSize.bytes
        ∧ (big.setSP 0xFFFD).sp.toNat + 2 < 65536)
      ∧ ((big.setSP 0xFFFE).sp.toNat + 1 < big.config.memSize.bytes
        ∧ (big.setSP 0xFFFE).sp.toNat + 2 = 65536) := by decide
theorem witness_ExitStopsTheRun : off.run = .running := by decide
theorem witness_DecimalStore :
    (off.setI 0xFFD).i.toNat + 2 < off.config.memSize.bytes
      ∧ off.config.memSize.bytes ≤ (off.setI 0xFFE).i.toNat + 2 := by decide
theorem witness_BlockStore :
    (off.setI 0xFF0).i.toNat + (15 : Reg).val < off.config.memSize.bytes ∧ (15 : Reg) ≤ 15
      ∧ off.config.memSize.bytes ≤ (off.setI 0xFF1).i.toNat + (15 : Reg).val := by decide
/-- The round trip: the state after the store, with `I` set to the base again. -/
theorem witness_BlockLoad :
    (off.setI 0xFF0).i.toNat + (15 : Reg).val < off.config.memSize.bytes ∧ (15 : Reg) ≤ 15
      ∧ off.config.memSize.bytes ≤ (off.setI 0xFF1).i.toNat + (15 : Reg).val
      ∧ ∃ t u : State, exec (.storeRegs 15) (off.setI 0xFF0) = .next t
        ∧ u.i = (off.setI 0xFF0).i ∧ ∀ a : Int, loadByte u a = loadByte t a :=
  ⟨by decide, by decide, by decide, _, (off.setI 0xFF0), rfl, rfl, fun _ => rfl⟩
theorem witness_RplCopies : (15 : Reg) ≤ 15 ∧ (0 : Reg) ≤ 0 := by decide
/-- `PLANE` = 1 selects plane 1 and not plane 2; the corner pixel is inside the screen. -/
theorem witness_ClearScreen_VerticalScrolls_HorizontalScrolls :
    PlaneSelected off .one ∧ ¬ PlaneSelected off .two
      ∧ 63 < off.mode.width ∧ 31 < off.mode.height := by
  unfold PlaneSelected; decide
/-- No byte read; the last byte of memory read; one byte more. -/
theorem witness_DrawIsXorWithCollision :
    spriteBytesRead off (0 : Fin 16).val = 0
      ∧ (off.setI 0xFF1).i.toNat + spriteBytesRead (off.setI 0xFF1) (15 : Fin 16).val
        ≤ off.config.memSize.bytes
      ∧ spriteBytesRead (off.setI 0xFF2) (15 : Fin 16).val ≠ 0
      ∧ off.config.memSize.bytes
        < (off.setI 0xFF2).i.toNat + spriteBytesRead (off.setI 0xFF2) (15 : Fin 16).val
      ∧ PlaneSelected off .one ∧ ¬ PlaneSelected off .two
      ∧ 63 < off.mode.width ∧ 31 < off.mode.height := by
  unfold PlaneSelected; decide
theorem witness_DrawingTwiceRestoresTheScreen :
    (0 : Reg) ≠ vf ∧ (14 : Reg) ≠ vf
      ∧ (spriteBytesRead off (1 : Fin 16).val = 0
        ∨ (off.setI 0xFFF).i.toNat + spriteBytesRead (off.setI 0xFFF) (1 : Fin 16).val
          ≤ off.config.memSize.bytes) ∧ 63 < off.mode.width ∧ 31 < off.mode.height := by decide
theorem witness_SpriteNeverOverlapsItself :
    (2 = 1 ∨ 2 = 2) ∧ (List.replicate 32 (0xFF : Byte)).length ≤ 16 * 2
      ∧ landedPixels false .extended 120 60 1 [0x81, 0, 0, 0, 0x01]
        = [(120, 60), (127, 60), (127, 0)] := by decide
theorem witness_NoPlaneSelectedDrawsNothing :
    ({ off with plane := 0, i := 0xFFF } : State).plane = 0
      ∧ ({ off with plane := 0, i := 0xFFF } : State).i.toNat
        + spriteLen { off with plane := 0, i := 0xFFF } (1 : Fin 16).val ≤ off.config.memSize.bytes
      ∧ spriteLen { off with plane := 0, i := 0xFFF } (2 : Fin 16).val ≠ 0
      ∧ off.config.memSize.bytes < ({ off with plane := 0, i := 0xFFF } : State).i.toNat
        + spriteLen { off with plane := 0, i := 0xFFF } (2 : Fin 16).val := by decide
theorem witness_KeySkips_down :
    (∀ h : ((press (off.setV 0 15) 15).getV 0).toNat < 16,
        true = (press (off.setV 0 15) 15).keys[((press (off.setV 0 15) 15).getV 0).toNat])
      ∧ (16 ≤ ((press (off.setV 0 15) 15).getV 0).toNat → true = false) := by decide
theorem witness_KeySkips_code_16 :
    (∀ h : ((off.setV 0 16).getV 0).toNat < 16,
        false = (off.setV 0 16).keys[((off.setV 0 16).getV 0).toNat])
      ∧ (16 ≤ ((off.setV 0 16).getV 0).toNat → false = false) := by decide
theorem witness_KeyPollEndsTheWait :
    off.run ≠ .awaitingKey ∧ (off.setRun .awaitingKey).run = .awaitingKey
      ∧ (off.setRun .awaitingKey).agenda = []
      ∧ (∀ k : Reg, (off.setRun .awaitingKey).keys[k] = false)
      ∧ (∃ k : Reg, (press (off.setRun .awaitingKey) 15).keys[k] = true)
      ∧ ∀ j : Reg, (press (off.setRun .awaitingKey) 15).keys[j] = true ↔ j = 15 := by decide
theorem witness_run_states :
    off.run = .running ∧ (off.setRun .awaitingKey).run = .awaitingKey
      ∧ (off.setRun .stopped).run = .stopped ∧ (off.setRun .fatal).run = .fatal := by decide
theorem witness_TicksInARowReachZero :
    (off.run = .running ∨ off.run = .awaitingKey)
      ∧ (withWord 0 [.tick, .tick, .kill]).agenda = List.replicate 2 .tick ++ [.kill] := by decide
theorem witness_OnlyResetLeavesStoppedAndFatal :
    (∀ q, Event.tick ≠ .reset q)
      ∧ ∃ t, perform .tick (off.setRun .fatal) = .next t :=
  ⟨fun _ h => (by cases h), _, rfl⟩
/-- A load that ends at the last byte of memory, one byte more, and a load of nothing. -/
theorem witness_HostLoadsOnlyBetweenRuns :
    (off.setRun .stopped).run = .stopped
      ∧ 4094 + ([0x12, 0x34] : List Byte).length ≤ off.config.memSize.bytes
      ∧ ([0x12, 0x34] : List Byte) ≠ []
      ∧ off.config.memSize.bytes < 4095 + ([0x12, 0x34] : List Byte).length
      ∧ perform (.load 4095 [0x12, 0x34]) (off.setRun .stopped) = .refused .loadBeyondMemory
      ∧ perform (.load 5000 []) (off.setRun .stopped) = .next (off.setRun .stopped) :=
  ⟨rfl, by decide, by decide, by decide, rfl, rfl⟩
theorem witness_KeyLevelEventSetsOneKey :
    (withWord 0 [.keyLevel 15 true, .tick]).agenda = .keyLevel 15 true :: [.tick]
      ∧ (0 : Reg) ≠ 15 := by decide
theorem witness_DisplayOutputIsTheColourIndices :
    63 < off.mode.width ∧ 31 < off.mode.height ∧ 127 < (setMode off .extended).mode.width
      ∧ 63 < (setMode off .extended).mode.height := by decide
theorem witness_EveryStepKeepsTheInvariant_ConfigurationIsConstant :
    off.wf ∧ (∃ t, step off = .next t) ∧ ∀ q rest, off.agenda ≠ .reset (some q) :: rest :=
  ⟨by decide, ⟨_, rfl⟩, fun _ _ h => (by cases h)⟩
theorem witness_InstructionsChangeOnlyWhatTheyWrite_RunStateChangesOnlyByKeyWaitAndExit :
    ∃ t, exec (.storeRegs 15) (off.setI 0x300) = .next t := ⟨_, rfl⟩
theorem witness_OnlyMemoryInstructionsFault :
    Instr.cls.accessesMemory = false
      ∧ exec .ret (off.setSP 0) = .fault (.outOfBoundsAccess (-1)) := ⟨rfl, rfl⟩
theorem witness_QuirksAreIndependent :
    (Instr.drw 0 1 5).quirk ≠ some .shift ∧ (Instr.shrReg 0 1).quirk ≠ some .clip := by decide

end Sys2Proof.Tests
end

section
/-! PROOFS. The construction check of spec/00_scope.md R6: what `Config.build` answers on each side of
R5's table, stated over the model's two capacities. -/

namespace Sys2Proof

/-- R5: the sizes of the table are the capacities that `MemSize` names. -/
theorem MemSize.exists_bytes_eq_iff {size : Nat} :
    (∃ m : MemSize, m.bytes = size) ↔ size = 4096 ∨ size = 65536 := by
  constructor
  · rintro ⟨_ | _, rfl⟩
    · exact .inl rfl
    · exact .inr rfl
  · rintro (rfl | rfl)
    · exact ⟨.kb4, rfl⟩
    · exact ⟨.kb64, rfl⟩

theorem Config.build_bytes_of_lt (m : MemSize) (q : Quirks) {base : Nat} (h : base < m.bytes) :
    Config.build m.bytes q base = .ok ⟨m, q, base⟩ := by
  cases m <;> exact if_pos h

theorem Config.build_bytes_of_le (m : MemSize) (q : Quirks) {base : Nat} (h : m.bytes ≤ base) :
    Config.build m.bytes q base = .error (.badFontBase base) := by
  cases m <;> exact if_neg h.not_gt

theorem Config.build_of_not_size {size : Nat} (q : Quirks) (base : Nat)
    (h : ¬ (size = 4096 ∨ size = 65536)) :
    Config.build size q base = .error (.badMemSize size) :=
  if_neg h

/-- Settles O4: a size of the table is the size of one of the two capacities, and there the bound on
the base alone decides; any other size is turned down before the base is looked at. -/
theorem onlyLegalConfigurationsAreBuilt : Obligations.OnlyLegalConfigurationsAreBuilt := by
  intro size q base
  refine ⟨fun hsize hbase => ?_, Config.build_of_not_size q base, fun hsize hbase => ?_⟩
  · obtain ⟨m, rfl⟩ := MemSize.exists_bytes_eq_iff.mpr hsize
    exact ⟨⟨m, q, base⟩, Config.build_bytes_of_lt m q hbase, rfl, rfl, rfl, hbase⟩
  · obtain ⟨m, rfl⟩ := MemSize.exists_bytes_eq_iff.mpr hsize
    exact Config.build_bytes_of_le m q hbase

end Sys2Proof
end

section
/-! PROOFS. The byte primitives of spec/20_memory.md: what a successful write leaves to be read at its
address (R43, R42) and what it keeps, derived from the laws of cell lists and of block writes. -/

namespace Sys2Proof.Machine

/-- A write succeeds in bounds only, and its state is the state before it with the one cell set. -/
theorem storeByte_cases {s t : State} {a : Int} {b : Byte} (h : storeByte s a b = .ok t) :
    s.inBounds a ∧ t = s.setMem (memSet s.mem a.toNat b) := by
  by_cases hin : s.inBounds a
  · rw [storeByte_eq_ok b hin] at h
    exact ⟨hin, (Except.ok.inj h).symm⟩
  · rw [storeByte_eq_error b hin] at h
    cases h

theorem loadByte_storeByte_same {s t : State} {a : Int} {b : Byte} (h : storeByte s a b = .ok t) :
    loadByte t a = .ok b := by
  obtain ⟨hin, rfl⟩ := storeByte_cases h
  rw [loadByte_eq_ok (by rwa [State.inBounds, setMem_config]), setMem_mem, memGet_memSet, if_pos rfl]

/-- A write of one byte is a block of writes of length 1. -/
theorem storeBytes_singleton {s t : State} {a : Int} {b : Byte} (h : storeByte s a b = .ok t) :
    storeBytes s a [b] = .ok t := by
  rw [storeBytes, h, ok_bind, storeBytes]

theorem storeByte_changesOnly {s t : State} {a : Int} {b : Byte} (h : storeByte s a b = .ok t) :
    ChangesOnly s t [.mem] :=
  (storeBytes_changesOnly (storeBytes_singleton h)).1

theorem loadByte_storeByte_other {s t : State} {a c : Int} {b : Byte} (h : storeByte s a b = .ok t)
    (hc : c ≠ a) : loadByte t c = loadByte s c :=
  (storeBytes_changesOnly (storeBytes_singleton h)).2 c (by simp only [List.length_singleton]; omega)

end Sys2Proof.Machine

namespace Sys2Proof

open Machine

/-- Settles O5: in bounds the write has a state, and the rules of one write say what it reads; out of
bounds both primitives answer the fault at once. -/
theorem memoryReadsWhatWasWritten : Obligations.MemoryReadsWhatWasWritten := by
  intro s a v
  refine ⟨fun hin => ⟨⟨_, loadByte_eq_ok hin⟩, ?_⟩, fun hout => ?_⟩
  · have hw := storeByte_eq_ok v hin
    exact ⟨_, hw, loadByte_storeByte_same hw, fun _ => loadByte_storeByte_other hw,
      storeByte_changesOnly hw⟩
  · exact ⟨loadByte_eq_error hout, storeByte_eq_error v hout⟩

end Sys2Proof
end


section
/-! PROOFS. The opcode map of spec/30_encoding.md R66: which fields of a word (R61) a row's mask keeps,
and that the two-level dispatch of R63 to R65 finds the row of a word from those fields alone. -/

namespace Sys2Proof

/-! ## A word as its fields (R61) -/

theorem eq_packNibbles_extractLsb' (op : Word) :
    op = packNibbles (op.extractLsb' 12 4) (op.extractLsb' 8 4) (op.extractLsb' 4 4)
      (op.extractLsb' 0 4) := by
  unfold packNibbles
  rw [BitVec.extractLsb'_append_extractLsb'_eq_extractLsb' (by rfl),
    BitVec.extractLsb'_append_extractLsb'_eq_extractLsb' (by rfl),
    BitVec.extractLsb'_append_extractLsb'_eq_extractLsb' (by rfl)]
  exact BitVec.extractLsb'_eq_self.symm

theorem eq_packXI_fields (op : Word) :
    op = packXI (op.extractLsb' 12 4) (fieldX op) (fieldNN op) := by
  unfold packXI fieldX fieldNN
  rw [BitVec.ofFin_toFin, BitVec.extractLsb'_append_extractLsb'_eq_extractLsb' (by rfl),
    BitVec.extractLsb'_append_extractLsb'_eq_extractLsb' (by rfl)]
  exact BitVec.extractLsb'_eq_self.symm

/-- `y` is the high nibble of `nn`. -/
theorem fieldY_val_eq (op : Word) : (fieldY op).val = (fieldNN op).toNat / 16 := by
  simp only [fieldY, fieldNN, BitVec.val_toFin, BitVec.extractLsb'_toNat, Nat.shiftRight_eq_div_pow]
  omega

/-! ## The fields a mask keeps: `op & mask = match` field by field (R66) -/

theorem extractLsb'_eq_of_and_eq {op v mask : Word} (start len : Nat) (h : op &&& mask = v &&& mask)
    (hmask : mask.extractLsb' start len = BitVec.allOnes len) :
    op.extractLsb' start len = v.extractLsb' start len := by
  simpa [BitVec.extractLsb'_and, hmask] using congrArg (BitVec.extractLsb' start len) h

section

variable {op v : Word}

theorem and_f000_eq_iff (hv : v &&& 0xF000 = v) :
    op &&& 0xF000 = v ↔ familyOf op = familyOf v := by
  constructor
  · intro h
    have h' := h.trans hv.symm
    exact congrArg BitVec.toNat (extractLsb'_eq_of_and_eq 12 4 h' rfl)
  · intro h
    rw [← hv, eq_packNibbles_extractLsb' op, eq_packNibbles_extractLsb' v, packNibbles_and_f000,
      packNibbles_and_f000, BitVec.eq_of_toNat_eq h]

theorem and_f00f_eq_iff (hv : v &&& 0xF00F = v) :
    op &&& 0xF00F = v ↔ familyOf op = familyOf v ∧ fieldN op = fieldN v := by
  constructor
  · intro h
    have h' := h.trans hv.symm
    exact ⟨congrArg BitVec.toNat (extractLsb'_eq_of_and_eq 12 4 h' rfl),
      congrArg BitVec.toNat (extractLsb'_eq_of_and_eq 0 4 h' rfl)⟩
  · rintro ⟨hf, hn⟩
    rw [← hv, eq_packNibbles_extractLsb' op, eq_packNibbles_extractLsb' v, packNibbles_and_f00f,
      packNibbles_and_f00f, BitVec.eq_of_toNat_eq hf, BitVec.eq_of_toNat_eq hn]

theorem and_f0f0_eq_iff (hv : v &&& 0xF0F0 = v) :
    op &&& 0xF0F0 = v ↔ familyOf op = familyOf v ∧ fieldY op = fieldY v := by
  constructor
  · intro h
    have h' := h.trans hv.symm
    exact ⟨congrArg BitVec.toNat (extractLsb'_eq_of_and_eq 12 4 h' rfl),
      congrArg BitVec.toFin (extractLsb'_eq_of_and_eq 4 4 h' rfl)⟩
  · rintro ⟨hf, hy⟩
    rw [← hv, eq_packNibbles_extractLsb' op, eq_packNibbles_extractLsb' v, packNibbles_and_f0f0,
      packNibbles_and_f0f0, BitVec.eq_of_toNat_eq hf, BitVec.toFin_inj.1 hy]

theorem and_f0ff_eq_iff (hv : v &&& 0xF0FF = v) :
    op &&& 0xF0FF = v ↔ familyOf op = familyOf v ∧ fieldNN op = fieldNN v := by
  constructor
  · intro h
    have h' := h.trans hv.symm
    exact ⟨congrArg BitVec.toNat (extractLsb'_eq_of_and_eq 12 4 h' rfl),
      extractLsb'_eq_of_and_eq 0 8 h' rfl⟩
  · rintro ⟨hf, hnn⟩
    rw [← hv, eq_packXI_fields op, eq_packXI_fields v, packXI_and_f0ff, packXI_and_f0ff,
      BitVec.eq_of_toNat_eq hf, hnn]

end

/-! ## The second level of the dispatch (R64, R65) -/

section

variable {op : Word}

theorem decodeWord_of_family0 (hf : familyOf op = 0x0) : decodeWord op = decodeFamily0 op := by
  simp only [decodeWord, hf]

theorem decodeWord_of_family8 (hf : familyOf op = 0x8) : decodeWord op = decodeFamily8 op := by
  simp only [decodeWord, hf]

theorem decodeWord_of_familyE (hf : familyOf op = 0xE) : decodeWord op = decodeFamilyE op := by
  simp only [decodeWord, hf]

theorem decodeWord_of_familyF (hf : familyOf op = 0xF) : decodeWord op = decodeFamilyF op := by
  simp only [decodeWord, hf]

/-- No low byte that names an instruction of family 0 begins with the nibble C. -/
theorem decodeFamily0_of_fieldY_c (hy : (fieldY op).val = 0xC) :
    decodeFamily0 op = some (.scd (fieldN op)) := by
  have hnn := fieldY_val_eq op
  unfold decodeFamily0
  split
  case h_8 => simp only [hy]
  all_goals omega

theorem decodeFamily0_of_fieldY_d (hy : (fieldY op).val = 0xD) :
    decodeFamily0 op = some (.scu (fieldN op)) := by
  have hnn := fieldY_val_eq op
  unfold decodeFamily0
  split
  case h_8 => simp only [hy]
  all_goals omega

end

/-! ## The row the dispatch finds -/

/-- The row of the instruction that a word decodes to. -/
def rowOf (op : Word) : Option (Word × Word) := (decodeWord op).map Instr.tableRow

theorem rowOf_eq_some_iff {op : Word} {row : Word × Word} :
    rowOf op = some row ↔ ∃ i, decodeWord op = some i ∧ i.tableRow = row :=
  Option.map_eq_some_iff

section

variable {op v : Word}

/-- The families without a second level: the family decides the row (R63). -/
theorem rowOf_congr_of_family
    (hv : familyOf v ∈ [0x1, 0x2, 0x3, 0x4, 0x5, 0x6, 0x7, 0x9, 0xA, 0xB, 0xC, 0xD])
    (hf : familyOf op = familyOf v) : rowOf op = rowOf v := by
  unfold rowOf decodeWord
  rw [hf]
  generalize familyOf v = f at hv ⊢
  fin_cases hv <;> rfl

/-- Family 8: the low nibble decides the row (R65). -/
theorem rowOf_congr_of_fieldN (hv : familyOf v = 0x8) (hf : familyOf op = familyOf v)
    (hn : fieldN op = fieldN v) : rowOf op = rowOf v := by
  rw [rowOf, rowOf, decodeWord_of_family8 (hf.trans hv), decodeWord_of_family8 hv]
  simp only [decodeFamily8, hn]
  split <;> rfl

/-- Families 0, E and F: the low byte decides the row (R64, R65). -/
theorem rowOf_congr_of_fieldNN (hv : familyOf v = 0x0 ∨ familyOf v = 0xE ∨ familyOf v = 0xF)
    (hf : familyOf op = familyOf v) (hnn : fieldNN op = fieldNN v) : rowOf op = rowOf v := by
  have hy : (fieldY op).val = (fieldY v).val := by rw [fieldY_val_eq, fieldY_val_eq, hnn]
  unfold rowOf
  rcases hv with hv | hv | hv
  · rw [decodeWord_of_family0 (hf.trans hv), decodeWord_of_family0 hv]
    simp only [decodeFamily0, hnn, hy]
    repeat' split
    all_goals rfl
  · rw [decodeWord_of_familyE (hf.trans hv), decodeWord_of_familyE hv]
    simp only [decodeFamilyE, hnn]
    split <;> rfl
  · rw [decodeWord_of_familyF (hf.trans hv), decodeWord_of_familyF hv]
    simp only [decodeFamilyF, hnn]
    split <;> rfl

/-- The scrolls of family 0: the high nibble of the low byte decides the row (R64). -/
theorem rowOf_congr_of_fieldY (hv : v = 0x00C0 ∨ v = 0x00D0) (hf : familyOf op = familyOf v)
    (hy : fieldY op = fieldY v) : rowOf op = rowOf v := by
  rcases hv with rfl | rfl
  · rw [rowOf, decodeWord_of_family0 hf, decodeFamily0_of_fieldY_c (congrArg Fin.val hy)]
    rfl
  · rw [rowOf, decodeWord_of_family0 hf, decodeFamily0_of_fieldY_d (congrArg Fin.val hy)]
    rfl

end

/-- The mask of a row keeps the fields that the dispatch reads in the row's family. -/
theorem opcodeMap_masks : ∀ row ∈ opcodeMap, row.2 &&& row.1 = row.2 ∧
    ((row.1 = 0xF000
        ∧ familyOf row.2 ∈ [0x1, 0x2, 0x3, 0x4, 0x5, 0x6, 0x7, 0x9, 0xA, 0xB, 0xC, 0xD])
      ∨ (row.1 = 0xF00F ∧ familyOf row.2 = 0x8)
      ∨ (row.1 = 0xF0FF
        ∧ (familyOf row.2 = 0x0 ∨ familyOf row.2 = 0xE ∨ familyOf row.2 = 0xF))
      ∨ (row.1 = 0xF0F0 ∧ (row.2 = 0x00C0 ∨ row.2 = 0x00D0))) :=
  List.forall_iff_forall_mem.1 (by decide)

theorem rowOf_match : ∀ row ∈ opcodeMap, rowOf row.2 = some row :=
  List.forall_iff_forall_mem.1 (by decide)

/-- The word and the row's match have the same fields under the mask, so the dispatch finds the same
row for both. -/
theorem rowOf_of_matches {op : Word} {row : Word × Word} (hrow : row ∈ opcodeMap)
    (h : op &&& row.1 = row.2) : rowOf op = some row := by
  rw [← rowOf_match row hrow]
  obtain ⟨hself, hmask⟩ := opcodeMap_masks row hrow
  rcases hmask with ⟨hm, hv⟩ | ⟨hm, hv⟩ | ⟨hm, hv⟩ | ⟨hm, hv⟩ <;> rw [hm] at h hself
  · exact rowOf_congr_of_family hv ((and_f000_eq_iff hself).1 h)
  · obtain ⟨hf, hn⟩ := (and_f00f_eq_iff hself).1 h
    exact rowOf_congr_of_fieldN hv hf hn
  · obtain ⟨hf, hnn⟩ := (and_f0ff_eq_iff hself).1 h
    exact rowOf_congr_of_fieldNN hv hf hnn
  · obtain ⟨hf, hy⟩ := (and_f0f0_eq_iff hself).1 h
    exact rowOf_congr_of_fieldY hv hf hy

/-! ## The row of an instruction that a word decodes to -/

theorem decodeFamily0_matches {op : Word} {i : Instr} (hf : familyOf op = 0x0)
    (h : decodeFamily0 op = some i) : op &&& i.tableRow.1 = i.tableRow.2 := by
  unfold decodeFamily0 at h
  split at h
  case h_8 =>
    split at h <;> rename_i hy <;> cases h <;> dsimp only [Instr.tableRow]
    all_goals exact (and_f0f0_eq_iff rfl).2 ⟨hf, Fin.ext hy⟩
  all_goals
    rename_i hnn
    cases h
    exact (and_f0ff_eq_iff rfl).2 ⟨hf, BitVec.eq_of_toNat_eq hnn⟩

theorem decodeFamily8_matches {op : Word} {i : Instr} (hf : familyOf op = 0x8)
    (h : decodeFamily8 op = some i) : op &&& i.tableRow.1 = i.tableRow.2 := by
  unfold decodeFamily8 at h
  split at h <;> rename_i hn <;> cases h <;> dsimp only [Instr.tableRow]
  all_goals exact (and_f00f_eq_iff rfl).2 ⟨hf, hn⟩

theorem decodeFamilyE_matches {op : Word} {i : Instr} (hf : familyOf op = 0xE)
    (h : decodeFamilyE op = some i) : op &&& i.tableRow.1 = i.tableRow.2 := by
  unfold decodeFamilyE at h
  split at h <;> rename_i hnn <;> cases h <;> dsimp only [Instr.tableRow]
  all_goals exact (and_f0ff_eq_iff rfl).2 ⟨hf, BitVec.eq_of_toNat_eq hnn⟩

theorem decodeFamilyF_matches {op : Word} {i : Instr} (hf : familyOf op = 0xF)
    (h : decodeFamilyF op = some i) : op &&& i.tableRow.1 = i.tableRow.2 := by
  unfold decodeFamilyF at h
  split at h <;> rename_i hnn <;> cases h <;> dsimp only [Instr.tableRow]
  all_goals exact (and_f0ff_eq_iff rfl).2 ⟨hf, BitVec.eq_of_toNat_eq hnn⟩

theorem decodeWord_matches {op : Word} {i : Instr} (h : decodeWord op = some i) :
    op &&& i.tableRow.1 = i.tableRow.2 := by
  unfold decodeWord at h
  split at h <;> rename_i hf
  case h_1 => exact decodeFamily0_matches hf h
  case h_9 => exact decodeFamily8_matches hf h
  case h_15 => exact decodeFamilyE_matches hf h
  case h_16 => exact decodeFamilyF_matches hf h
  all_goals cases h <;> dsimp only [Instr.tableRow]
  all_goals exact (and_f000_eq_iff rfl).2 hf

/-- Settles O7: a matching word finds the row (`rowOf_of_matches`), so no two rows can share a word, and
a word that decodes has the fields of its instruction's row (`decodeWord_matches`). -/
theorem decodingFollowsTheOpcodeMap : Obligations.DecodingFollowsTheOpcodeMap := by
  refine ⟨rfl, fun op row hrow h => ?_, fun op i h => ?_, fun op row hrow row' hrow' h h' => ?_⟩
  · exact rowOf_eq_some_iff.1 (rowOf_of_matches hrow h)
  · exact ⟨i.tableRow_mem, decodeWord_matches h⟩
  · exact Option.some.inj ((rowOf_of_matches hrow h).symm.trans (rowOf_of_matches hrow' h'))

end Sys2Proof
end

section
/-! PROOFS. The encoder against the dispatch of spec/30_encoding.md: which fields (R61) the word of
each format (R62) holds, and that the word of an instruction decodes to it (R66). -/

namespace Sys2Proof

/-! ## The fields of a packed word -/

section

variable (f : BitVec 4)

@[simp] theorem familyOf_packA (nnn : BitVec 12) : familyOf (packA f nnn) = f.toNat := by
  rw [familyOf, packA, BitVec.extractLsb'_append_eq_left]

@[simp] theorem fieldNNN_packA (nnn : BitVec 12) : fieldNNN (packA f nnn) = nnn :=
  BitVec.extractLsb'_append_eq_right

@[simp] theorem familyOf_packXI (x : Reg) (nn : Byte) : familyOf (packXI f x nn) = f.toNat := by
  rw [familyOf, packXI, BitVec.extractLsb'_append_eq_of_le (by decide),
    BitVec.extractLsb'_append_eq_left]

@[simp] theorem fieldX_packXI (x : Reg) (nn : Byte) : fieldX (packXI f x nn) = x := by
  rw [fieldX, packXI, BitVec.extractLsb'_append_eq_of_le (by decide),
    BitVec.extractLsb'_append_eq_right]

@[simp] theorem fieldNN_packXI (x : Reg) (nn : Byte) : fieldNN (packXI f x nn) = nn :=
  BitVec.extractLsb'_append_eq_right

@[simp] theorem familyOf_packNibbles (b c d : BitVec 4) :
    familyOf (packNibbles f b c d) = f.toNat := by
  rw [familyOf, packNibbles, BitVec.extractLsb'_append_eq_of_le (by decide),
    BitVec.extractLsb'_append_eq_of_le (by decide), BitVec.extractLsb'_append_eq_left]

@[simp] theorem fieldX_packNibbles (b c d : BitVec 4) :
    fieldX (packNibbles f b c d) = b.toFin := by
  rw [fieldX, packNibbles, BitVec.extractLsb'_append_eq_of_le (by decide),
    BitVec.extractLsb'_append_eq_of_le (by decide), BitVec.extractLsb'_append_eq_right]

@[simp] theorem fieldMask_packNibbles (b c d : BitVec 4) :
    fieldMask (packNibbles f b c d) = b := by
  rw [fieldMask, packNibbles, BitVec.extractLsb'_append_eq_of_le (by decide),
    BitVec.extractLsb'_append_eq_of_le (by decide), BitVec.extractLsb'_append_eq_right]

@[simp] theorem fieldY_packNibbles (b c d : BitVec 4) :
    fieldY (packNibbles f b c d) = c.toFin := by
  rw [fieldY, packNibbles, BitVec.extractLsb'_append_eq_of_le (by decide),
    BitVec.extractLsb'_append_eq_right]

@[simp] theorem fieldN_packNibbles (b c d : BitVec 4) :
    fieldN (packNibbles f b c d) = d.toNat := by
  rw [fieldN, packNibbles, BitVec.extractLsb'_append_eq_right]

/-- A row count that fits the field is read back (R70). -/
theorem fieldN_packNibbles_ofNat (b c : BitVec 4) {n : Nat} (h : n < 16) :
    fieldN (packNibbles f b c (BitVec.ofNat 4 n)) = n := by
  rw [fieldN_packNibbles, BitVec.toNat_ofNat, Nat.mod_eq_of_lt h]

@[simp] theorem fieldNN_packNibbles (b c d : BitVec 4) :
    fieldNN (packNibbles f b c d) = c ++ d := by
  rw [fieldNN, packNibbles, BitVec.append_assoc, BitVec.cast_eq, BitVec.extractLsb'_append_eq_right]

end

/-! ## The decoder on the encoder's words -/

/-- R66, R70: the fields of the word select the constructor, and its operands are read back. -/
theorem decodeWord_encode {i : Instr} (h : i.wellFormed) : decodeWord (encode i) = some i := by
  cases i with
  | cls | ret | scr | scl | exit | low | high => rfl
  | scd n =>
    rw [encode, decodeWord_of_family0 (familyOf_packNibbles ..),
      decodeFamily0_of_fieldY_c (congrArg Fin.val (fieldY_packNibbles ..)),
      fieldN_packNibbles_ofNat _ _ _ (of_decide_eq_true h)]
  | scu n =>
    rw [encode, decodeWord_of_family0 (familyOf_packNibbles ..),
      decodeFamily0_of_fieldY_d (congrArg Fin.val (fieldY_packNibbles ..)),
      fieldN_packNibbles_ofNat _ _ _ (of_decide_eq_true h)]
  | drw x y n =>
    have hn : n < 16 := of_decide_eq_true h
    simp [encode, packXY, decodeWord, fieldN_packNibbles_ofNat _ _ _ hn]
  | ldReg | orReg | andReg | xorReg | addReg | subReg | shrReg | subnReg | shlReg =>
    simp [encode, packXY, decodeWord, decodeFamily8]
  | skp | sknp => simp [encode, decodeWord, decodeFamilyE]
  | plane | ldVxDt | ldVxK | ldDtVx | ldStVx | addI | ldF | ldHf | ldB | pitch | storeRegs | loadRegs
  | storeRpl | loadRpl => simp [encode, decodeWord, decodeFamilyF]
  | _ => simp [encode, packXY, decodeWord]

namespace Machine

/-- An instruction whose word lies in its row of the opcode map (`Laws.TableRow`) is encoded as that
row (R66). -/
theorem encodedAs_tableRow {i : Instr} (hrow : Laws.TableRow.Statement i) (hwf : i.wellFormed) :
    EncodedAs i i.tableRow.1 i.tableRow.2 :=
  ⟨hrow, decodeWord_encode hwf⟩

end Machine

end Sys2Proof
end

section
/-! PROOFS. Control transfer (spec/40_control_flow.md): jumps and skips write `PC` alone (R82,
R87 to R92). -/

namespace Sys2Proof.Machine

/-! ## What the meanings answer -/

section

variable (x y : Reg) (nn : Byte) (nnn : BitVec 12) (s : State)

theorem exec_jp : exec (.jp nnn) s = .next (s.setPC (nnn.setWidth 16)) := rfl

theorem exec_jpV0 : exec (.jpV0 nnn) s =
    .next (s.setPC (nnn.setWidth 16 + (s.getV (jumpOffsetReg s nnn)).setWidth 16)) := rfl

theorem exec_seImm : exec (.seImm x nn) s = .next (skipIf (decide (s.getV x = nn)) s) := rfl

theorem exec_sneImm : exec (.sneImm x nn) s = .next (skipIf (decide (s.getV x ≠ nn)) s) := rfl

theorem exec_seReg : exec (.seReg x y) s = .next (skipIf (decide (s.getV x = s.getV y)) s) := rfl

theorem exec_sneReg : exec (.sneReg x y) s = .next (skipIf (decide (s.getV x ≠ s.getV y)) s) := rfl

/-! ## Jump targets (R82, R90) -/

/-- The high nibble of `nnn` is the quotient by 256. -/
theorem jumpOffsetReg_val : (jumpOffsetReg s nnn).val =
    if s.config.quirks.jump then nnn.toNat / 256 else 0 := by
  unfold jumpOffsetReg
  split
  · have := nnn.isLt
    rw [BitVec.val_toFin, BitVec.extractLsb'_toNat, Nat.shiftRight_eq_div_pow]
    omega
  · rfl

/-- The sum of a 12-bit immediate and a byte fits `PC`: nothing is reduced. -/
theorem toNat_immediate_add_byte (b : Byte) :
    (nnn.setWidth 16 + b.setWidth 16 : Word).toNat = nnn.toNat + b.toNat := by
  have := nnn.isLt
  have := b.isLt
  rw [BitVec.toNat_add, BitVec.toNat_setWidth_of_le (by decide),
    BitVec.toNat_setWidth_of_le (by decide)]
  omega

/-! ## Skips (R92) -/

theorem toNat_skipIf_pc (c : Bool) :
    (skipIf c s).pc.toNat = if c then (s.pc.toNat + 2) % 65536 else s.pc.toNat := by
  cases c <;> rfl

/-- Skip on equality: the comparison is of the bytes as numbers (R87, R89). -/
theorem toNat_skipIf_eq_pc (a b : Byte) : (skipIf (decide (a = b)) s).pc.toNat =
    if a.toNat = b.toNat then (s.pc.toNat + 2) % 65536 else s.pc.toNat := by
  rw [toNat_skipIf_pc]
  simp only [decide_eq_true_eq, BitVec.toNat_inj]

/-- Skip on difference (R88, R91). -/
theorem toNat_skipIf_ne_pc (a b : Byte) : (skipIf (decide (a ≠ b)) s).pc.toNat =
    if a.toNat = b.toNat then s.pc.toNat else (s.pc.toNat + 2) % 65536 := by
  rw [toNat_skipIf_pc]
  simp only [decide_eq_true_eq, BitVec.toNat_inj, ite_not]

end

end Sys2Proof.Machine

namespace Sys2Proof

open Machine

/-- Settles O20: both jumps set `PC`; the offset register is the one with the number asked for. -/
theorem jumpTargets : Obligations.JumpTargets := by
  intro nnn s r hr
  refine ⟨⟨encodedAs_tableRow (Laws.TableRow.jp nnn) rfl, _, exec_jp nnn s,
      BitVec.toNat_setWidth_of_le (by decide), setPC_changesOnly _ _⟩,
    encodedAs_tableRow (Laws.TableRow.jpV0 nnn) rfl, _, exec_jpV0 nnn s, ?_, setPC_changesOnly _ _⟩
  obtain rfl : jumpOffsetReg s nnn = r := Fin.ext ((jumpOffsetReg_val nnn s).trans hr.symm)
  exact toNat_immediate_add_byte nnn _

/-- Settles O24: each of the four is `skipIf` on an equality of bytes or on its negation. -/
theorem conditionalSkips : Obligations.ConditionalSkips := by
  intro x y nn s
  exact ⟨⟨encodedAs_tableRow (Laws.TableRow.seImm x nn) rfl, _, exec_seImm x nn s,
      toNat_skipIf_eq_pc s _ _, skipIf_changesOnly _ _⟩,
    ⟨encodedAs_tableRow (Laws.TableRow.sneImm x nn) rfl, _, exec_sneImm x nn s,
      toNat_skipIf_ne_pc s _ _, skipIf_changesOnly _ _⟩,
    ⟨encodedAs_tableRow (Laws.TableRow.seReg x y) rfl, _, exec_seReg x y s,
      toNat_skipIf_eq_pc s _ _, skipIf_changesOnly _ _⟩,
    ⟨encodedAs_tableRow (Laws.TableRow.sneReg x y) rfl, _, exec_sneReg x y s,
      toNat_skipIf_ne_pc s _ _, skipIf_changesOnly _ _⟩⟩

end Sys2Proof
end

section
/-! PROOFS. Subroutine call and return (spec/40_control_flow.md R83 to R85) over the push and the
pop of the call stack. -/

namespace Sys2Proof.Machine

/-! ## The two bytes of a word (R45, R46), and what a jump leaves of memory -/

theorem extractLsb'_low_byte (w : Word) : w.extractLsb' 0 8 = BitVec.ofNat 8 (w.toNat % 256) := by
  apply BitVec.eq_of_toNat_eq
  rw [BitVec.extractLsb'_toNat, BitVec.toNat_ofNat, Nat.shiftRight_zero]
  omega

theorem extractLsb'_high_byte (w : Word) : w.extractLsb' 8 8 = BitVec.ofNat 8 (w.toNat / 256) := by
  apply BitVec.eq_of_toNat_eq
  rw [BitVec.extractLsb'_toNat, BitVec.toNat_ofNat, Nat.shiftRight_eq_div_pow]

theorem toNat_wordOfBytes (hi lo : Byte) :
    (wordOfBytes hi lo).toNat = hi.toNat * 256 + lo.toNat := by
  have := hi.isLt
  have := lo.isLt
  rw [wordOfBytes_eq, BitVec.toNat_ofNat]
  omega

@[simp] theorem loadByte_setPC (s : State) (w : Word) (a : Int) :
    loadByte (s.setPC w) a = loadByte s a :=
  loadByte_eq_of_mem (setPC_mem ..) (setPC_config ..) a

/-! ## What a push leaves (R84) -/

section

variable {s t : State} {w : Word}

theorem loadByte_push_low (h : push s w = .ok t) :
    loadByte t s.sp.toNat = .ok (BitVec.ofNat 8 (w.toNat % 256)) := by
  obtain ⟨hlow, -, rfl⟩ := push_cases h
  rw [loadByte_eq_ok (by rwa [State.inBounds, setSP_config, setMem_config]), setSP_mem, setMem_mem,
    pushedMem, memGet_memSet, memGet_memSet, if_neg (by omega), if_pos (Int.toNat_natCast _),
    extractLsb'_low_byte]

theorem loadByte_push_high (h : push s w = .ok t) :
    loadByte t (s.sp.toNat + 1) = .ok (BitVec.ofNat 8 (w.toNat / 256)) := by
  obtain ⟨-, hhigh, rfl⟩ := push_cases h
  rw [loadByte_eq_ok (by rwa [State.inBounds, setSP_config, setMem_config]), setSP_mem, setMem_mem,
    pushedMem, memGet_memSet, if_pos (by omega), extractLsb'_high_byte]

theorem toNat_push_sp (h : push s w = .ok t) : t.sp.toNat = (s.sp.toNat + 2) % 65536 := by
  obtain ⟨-, -, rfl⟩ := push_cases h
  rfl

end

/-! ## What the two meanings answer -/

section

variable {s t : State} {w : Word} {f : Fault}

theorem exec_call_of_push (nnn : BitVec 12) (h : push s s.pc = .ok t) :
    exec (.call nnn) s = .next (t.setPC (nnn.setWidth 16)) := by
  rw [exec, execCall, h]
  rfl

theorem exec_call_of_push_error (nnn : BitVec 12) (h : push s s.pc = .error f) :
    exec (.call nnn) s = .fault f := by
  rw [exec, execCall, h]
  rfl

theorem exec_ret_of_pop (h : pop s = .ok (w, t)) : exec .ret s = .next (t.setPC w) := by
  rw [exec, execRet, h]
  rfl

theorem exec_ret_of_pop_error (h : pop s = .error f) : exec .ret s = .fault f := by
  rw [exec, execRet, h]
  rfl

end

end Sys2Proof.Machine

namespace Sys2Proof

open Machine

/-- Settles O21: the push decides; where it succeeds the jump after it writes `PC` alone. -/
theorem callPushesTheReturnAddress : Obligations.CallPushesTheReturnAddress := by
  intro nnn s
  refine ⟨encodedAs_tableRow (Laws.TableRow.call nnn) rfl, fun hin => ?_, fun hout => ?_,
    fun hlast => ?_⟩
  · obtain ⟨t, hpush⟩ : ∃ t, push s s.pc = .ok t :=
      ⟨_, push_eq_ok s.pc ⟨by omega, by omega⟩ ⟨by omega, by omega⟩⟩
    obtain ⟨hparts, hmem⟩ := push_changesOnly hpush
    refine ⟨_, exec_call_of_push nnn hpush, ?_⟩
    rw [loadByte_setPC, loadByte_setPC, setPC_sp, setPC_pc]
    exact ⟨loadByte_push_low hpush, loadByte_push_high hpush, toNat_push_sp hpush,
      BitVec.toNat_setWidth_of_le (by decide), fun a ha => (loadByte_setPC ..).trans (hmem a ha),
      hparts.append (setPC_changesOnly _ _)⟩
  · have hlow : ¬ s.inBounds s.sp.toNat := fun ⟨_, hlt⟩ => by omega
    exact exec_call_of_push_error nnn ((push_eq_error s.pc).1 hlow)
  · have hhigh : ¬ s.inBounds (s.sp.toNat + 1) := fun ⟨_, hlt⟩ => by omega
    exact exec_call_of_push_error nnn ((push_eq_error s.pc).2 ⟨by omega, by omega⟩ hhigh)

/-- Settles O22: the pop decides, and the loaded word goes to `PC`. -/
theorem returnPopsTheAddress : Obligations.ReturnPopsTheAddress := by
  intro s
  refine ⟨encodedAs_tableRow Laws.TableRow.ret rfl, fun hlow hhigh => ?_,
    fun h => exec_ret_of_pop_error (pop_eq_error.1 h),
    fun h => exec_ret_of_pop_error (pop_eq_error.2 h)⟩
  refine ⟨_, exec_ret_of_pop (pop_eq_ok hlow hhigh), toNat_wordOfBytes .., ?_,
    (setSP_changesOnly _ _).append (setPC_changesOnly _ _)⟩
  rw [setPC_sp, setSP_sp]
  exact BitVec.toNat_sub_of_le hlow

end Sys2Proof
end

section
/-! PROOFS. Register move, arithmetic, logic and shift (spec/41_alu.md R100 to R111): each meaning
writes `V[x]`, and those with a flag write `VF` after it (R113). -/

namespace Sys2Proof.Machine

/-! ## What the meanings answer -/

section

variable (x y : Reg) (nn : Byte) (s : State)

theorem exec_ldImm : exec (.ldImm x nn) s = .next (s.setV x nn) := rfl

theorem exec_addImm : exec (.addImm x nn) s = .next (s.setV x (s.getV x + nn)) := rfl

theorem exec_ldReg : exec (.ldReg x y) s = .next (s.setV x (s.getV y)) := rfl

theorem exec_orReg : exec (.orReg x y) s = .next (logicResult s x (s.getV x ||| s.getV y)) := rfl

theorem exec_andReg : exec (.andReg x y) s = .next (logicResult s x (s.getV x &&& s.getV y)) := rfl

theorem exec_xorReg : exec (.xorReg x y) s = .next (logicResult s x (s.getV x ^^^ s.getV y)) := rfl

theorem exec_addReg : exec (.addReg x y) s =
    .next (resultWithFlag s x (s.getV x + s.getV y) (addCarry (s.getV x) (s.getV y))) := rfl

theorem exec_subReg : exec (.subReg x y) s =
    .next (resultWithFlag s x (s.getV x - s.getV y) (noBorrow (s.getV x) (s.getV y))) := rfl

theorem exec_subnReg : exec (.subnReg x y) s =
    .next (resultWithFlag s x (s.getV y - s.getV x) (noBorrow (s.getV y) (s.getV x))) := rfl

theorem exec_shrReg : exec (.shrReg x y) s =
    .next (resultWithFlag s x (shiftSource s x y >>> 1) (shiftOutRight (shiftSource s x y))) := rfl

theorem exec_shlReg : exec (.shlReg x y) s =
    .next (resultWithFlag s x (shiftSource s x y <<< 1) (shiftOutLeft (shiftSource s x y))) := rfl

end

/-! ## The destination and the flag after a result (R113) -/

section

variable {s : State} {x : Reg}

theorem getV_setV_same (b : Byte) : (s.setV x b).getV x = b := by
  rw [getV_setV, if_pos rfl]

theorem getV_vf_resultWithFlag (b : Byte) (c : Bool) :
    (resultWithFlag s x b c).getV vf = flagByte c := by
  rw [getV_resultWithFlag, if_pos rfl]

theorem getV_dest_resultWithFlag (b : Byte) (c : Bool) (hx : x ≠ vf) :
    (resultWithFlag s x b c).getV x = b := by
  rw [getV_resultWithFlag, if_neg hx, if_pos rfl]

theorem logicResult_of_quirk (b : Byte) (h : s.config.quirks.logic = true) :
    logicResult s x b = resultWithFlag s x b false :=
  if_pos h

theorem logicResult_of_no_quirk (b : Byte) (h : s.config.quirks.logic = false) :
    logicResult s x b = s.setV x b :=
  if_neg (Bool.eq_false_iff.mp h)

theorem getV_dest_logicResult (b : Byte) (h : x ≠ vf ∨ s.config.quirks.logic = false) :
    (logicResult s x b).getV x = b := by
  cases hq : s.config.quirks.logic with
  | false => rw [logicResult_of_no_quirk b hq, getV_setV_same]
  | true =>
    have hx : x ≠ vf := h.resolve_right (by simp [hq])
    rw [logicResult_of_quirk b hq, getV_dest_resultWithFlag b false hx]

/-- R103 to R105 for any byte function `f` of bits: what one logic instruction leaves, by
`logicQuirks`. -/
theorem logicResult_bitwise {a b r : Byte} {f : Bool → Bool → Bool}
    (hr : ∀ k, r.getLsbD k = f (a.getLsbD k) (b.getLsbD k)) :
    ((x ≠ vf ∨ s.config.quirks.logic = false) → ∀ k, k < 8 →
        ((logicResult s x r).getV x).getLsbD k = f (a.getLsbD k) (b.getLsbD k))
      ∧ (s.config.quirks.logic = true →
        (logicResult s x r).getV vf = 0 ∧ ChangesOnly s (logicResult s x r) [.v x, .v vf])
      ∧ (s.config.quirks.logic = false → ChangesOnly s (logicResult s x r) [.v x]) := by
  refine ⟨fun h k _ => ?_, fun hq => ?_, fun hq => ?_⟩
  · rw [getV_dest_logicResult r h, hr]
  · rw [logicResult_of_quirk r hq]
    exact ⟨getV_vf_resultWithFlag r false, resultWithFlag_changesOnly s x r false⟩
  · rw [logicResult_of_no_quirk r hq]
    exact setV_changesOnly s x r

end

/-! ## Results and flags as numbers (R14, R106 to R111) -/

section

variable (a b : Byte)

theorem toNat_flagByte (c : Bool) : (flagByte c).toNat = if c then 1 else 0 := by
  cases c <;> rfl

theorem toNat_flagByte_decide (p : Prop) [Decidable p] :
    (flagByte (decide p)).toNat = if p then 1 else 0 := by
  rw [toNat_flagByte]
  simp only [decide_eq_true_eq]

/-- The difference modulo 256 as an integer: a borrow wraps. -/
theorem toNat_byte_sub_cast :
    ((a - b).toNat : Int) = ((a.toNat : Int) - b.toNat) % 256 := by
  have := a.isLt
  have := b.isLt
  rw [BitVec.toNat_sub]
  omega

theorem toNat_byte_shiftRight_one : (a >>> 1).toNat = a.toNat / 2 :=
  BitVec.toNat_ushiftRight ..

theorem toNat_byte_shiftLeft_one : (a <<< 1).toNat = 2 * a.toNat % 256 := by
  rw [BitVec.toNat_shiftLeft, Nat.shiftLeft_eq, Nat.mul_comm]

/-- Bit 0 is the parity. -/
theorem toNat_flagByte_shiftOutRight : (flagByte (shiftOutRight a)).toNat = a.toNat % 2 := by
  rw [shiftOutRight, BitVec.getLsbD, Nat.testBit_zero, toNat_flagByte_decide]
  split <;> omega

/-- Bit 7, the top one of a byte, is the quotient by 128. -/
theorem toNat_flagByte_shiftOutLeft : (flagByte (shiftOutLeft a)).toNat = a.toNat / 128 := by
  have := a.isLt
  rw [shiftOutLeft, BitVec.getLsbD, Nat.testBit_eq_decide_div_mod_eq, toNat_flagByte_decide]
  split <;> omega

theorem toNat_shiftSource (s : State) (x y : Reg) : (shiftSource s x y).toNat =
    if s.config.quirks.shift then (s.getV x).toNat else (s.getV y).toNat :=
  apply_ite BitVec.toNat ..

end

end Sys2Proof.Machine

namespace Sys2Proof

open Machine

/-- Settles O16: the three are `logicResult` of the bitwise operation of the two bytes. -/
theorem logicResultsAndTheLogicQuirk : Obligations.LogicResultsAndTheLogicQuirk := by
  intro x y s i pattern f hi
  obtain h | h | h := hi <;> cases h
  · exact ⟨encodedAs_tableRow (Laws.TableRow.orReg x y) rfl, _, exec_orReg x y s,
      logicResult_bitwise fun _ => BitVec.getLsbD_or⟩
  · exact ⟨encodedAs_tableRow (Laws.TableRow.andReg x y) rfl, _, exec_andReg x y s,
      logicResult_bitwise fun _ => BitVec.getLsbD_and⟩
  · exact ⟨encodedAs_tableRow (Laws.TableRow.xorReg x y) rfl, _, exec_xorReg x y s,
      logicResult_bitwise fun _ => BitVec.getLsbD_xor⟩

/-- Settles O17: each of the three is a result with its flag; both are read as numbers. -/
theorem addAndSubtractResultsAndFlags : Obligations.AddAndSubtractResultsAndFlags := by
  intro x y s
  refine ⟨⟨encodedAs_tableRow (Laws.TableRow.addReg x y) rfl, _, exec_addReg x y s,
      fun hx => ?_, ?_, resultWithFlag_changesOnly _ _ _ _⟩,
    ⟨encodedAs_tableRow (Laws.TableRow.subReg x y) rfl, _, exec_subReg x y s,
      fun hx => ?_, ?_, resultWithFlag_changesOnly _ _ _ _⟩,
    ⟨encodedAs_tableRow (Laws.TableRow.subnReg x y) rfl, _, exec_subnReg x y s,
      fun hx => ?_, ?_, resultWithFlag_changesOnly _ _ _ _⟩⟩
  · rw [getV_dest_resultWithFlag _ _ hx, BitVec.toNat_add]
  · rw [getV_vf_resultWithFlag, addCarry, toNat_flagByte_decide]
  · rw [getV_dest_resultWithFlag _ _ hx, toNat_byte_sub_cast]
  · rw [getV_vf_resultWithFlag, noBorrow, toNat_flagByte_decide]
  · rw [getV_dest_resultWithFlag _ _ hx, toNat_byte_sub_cast]
  · rw [getV_vf_resultWithFlag, noBorrow, toNat_flagByte_decide]

/-- Settles O18: both shift the byte that `shiftQuirks` selects, whose value is the one asked for. -/
theorem shiftResultsAndTheShiftQuirk : Obligations.ShiftResultsAndTheShiftQuirk := by
  intro x y s src hsrc
  obtain rfl : (shiftSource s x y).toNat = src := (toNat_shiftSource s x y).trans hsrc.symm
  refine ⟨⟨encodedAs_tableRow (Laws.TableRow.shrReg x y) rfl, _, exec_shrReg x y s,
      fun hx => ?_, ?_, resultWithFlag_changesOnly _ _ _ _⟩,
    ⟨encodedAs_tableRow (Laws.TableRow.shlReg x y) rfl, _, exec_shlReg x y s,
      fun hx => ?_, ?_, resultWithFlag_changesOnly _ _ _ _⟩⟩
  · rw [getV_dest_resultWithFlag _ _ hx, toNat_byte_shiftRight_one]
  · rw [getV_vf_resultWithFlag, toNat_flagByte_shiftOutRight]
  · rw [getV_dest_resultWithFlag _ _ hx, toNat_byte_shiftLeft_one]
  · rw [getV_vf_resultWithFlag, toNat_flagByte_shiftOutLeft]

/-- Settles O15: each of the three is one register write. -/
theorem loadAndAddImmediateResults : Obligations.LoadAndAddImmediateResults := by
  intro x y nn s
  refine ⟨⟨encodedAs_tableRow (Laws.TableRow.ldImm x nn) rfl, _, exec_ldImm x nn s,
      getV_setV_same nn, setV_changesOnly _ _ _⟩,
    ⟨encodedAs_tableRow (Laws.TableRow.addImm x nn) rfl, _, exec_addImm x nn s,
      ?_, setV_changesOnly _ _ _⟩,
    encodedAs_tableRow (Laws.TableRow.ldReg x y) rfl, _, exec_ldReg x y s,
      getV_setV_same _, setV_changesOnly _ _ _⟩
  rw [getV_setV_same, BitVec.toNat_add]

end Sys2Proof
end

section
/-! PROOFS. Index register, memory transfers and RPL bank (spec/42_index_memory.md R120 to R128): what a
block write leaves to be read and what a block read finds, byte by byte; the registers and the digits
that make up a block; the new `I`. -/

namespace Sys2Proof.Machine

/-! ## Blocks of bytes (R41) -/

section

variable {s t : State} {a : Int} {bs : List Byte}

/-- The address of a block's byte `k + 1` is the one of byte `k` of the block at the next address. -/
theorem add_natCast_succ (a : Int) (k : Nat) : a + (k + 1 : Nat) = a + 1 + k := by
  omega

/-- A block of reads is the first read, then the block at the next address. -/
theorem loadBytes_succ_cases {n : Nat} (h : loadBytes s a (n + 1) = .ok bs) :
    ∃ b rest, loadByte s a = .ok b ∧ loadBytes s (a + 1) n = .ok rest ∧ bs = b :: rest := by
  rw [loadBytes] at h
  cases hb : loadByte s a with
  | error f => rw [hb] at h; cases h
  | ok b =>
    cases hrest : loadBytes s (a + 1) n with
    | error f => rw [hb, hrest] at h; cases h
    | ok rest => rw [hb, hrest] at h; cases h; exact ⟨b, rest, rfl, rfl, rfl⟩

/-- A block of writes is the first write, then the block at the next address. -/
theorem storeBytes_cons_cases {b : Byte} (h : storeBytes s a (b :: bs) = .ok t) :
    ∃ u, storeByte s a b = .ok u ∧ storeBytes u (a + 1) bs = .ok t := by
  rw [storeBytes] at h
  cases hb : storeByte s a b with
  | error f => rw [hb] at h; cases h
  | ok u => rw [hb] at h; exact ⟨u, rfl, h⟩

/-- After a block of writes each of its addresses reads the byte written there: a later write of the
block is at a higher address. -/
theorem loadByte_storeBytes {k : Nat} (h : storeBytes s a bs = .ok t) (hk : k < bs.length) :
    loadByte t (a + k) = .ok bs[k] := by
  induction bs generalizing s a k with
  | nil => cases hk
  | cons b bs ih =>
    obtain ⟨u, hb, hrest⟩ := storeBytes_cons_cases h
    cases k with
    | zero =>
      rw [Int.natCast_zero, Int.add_zero, (storeBytes_changesOnly hrest).2 a (.inl (by omega))]
      exact loadByte_storeByte_same hb
    | succ k =>
      rw [add_natCast_succ]
      exact ih hrest (Nat.lt_of_succ_lt_succ hk)

/-- Where the addresses of a block hold the bytes of a list, the block of reads answers that list. -/
theorem loadBytes_eq_of_loadByte (h : ∀ k (hk : k < bs.length), loadByte s (a + k) = .ok bs[k]) :
    loadBytes s a bs.length = .ok bs := by
  induction bs generalizing a with
  | nil => rfl
  | cons b bs ih =>
    have hb : loadByte s a = .ok b := by simpa using h 0 (Nat.succ_pos _)
    have hrest : loadBytes s (a + 1) bs.length = .ok bs := ih fun k hk => by
      rw [← add_natCast_succ]
      exact h (k + 1) (Nat.succ_lt_succ hk)
    rw [List.length_cons, loadBytes, hb, ok_bind, hrest, ok_bind]

/-- Each address of a block of reads holds the byte that the list answers for it. -/
theorem loadByte_of_loadBytes {n k : Nat} (h : loadBytes s a n = .ok bs) (hk : k < n) :
    loadByte s (a + k) = .ok (bs.getD k 0) := by
  induction n generalizing a bs k with
  | zero => cases hk
  | succ n ih =>
    obtain ⟨b, rest, hb, hrest, rfl⟩ := loadBytes_succ_cases h
    cases k with
    | zero => rw [Int.natCast_zero, Int.add_zero, hb, List.getD_cons_zero]
    | succ k =>
      rw [add_natCast_succ, List.getD_cons_succ]
      exact ih hrest (Nat.lt_of_succ_lt_succ hk)

@[simp] theorem loadByte_setI (s : State) (w : Word) (a : Int) :
    loadByte (s.setI w) a = loadByte s a :=
  loadByte_eq_of_mem (setI_mem ..) (setI_config ..) a

end

/-! ## The registers of a block (R125, R126) -/

section

variable (s : State) (x : Reg)

theorem length_lowV : (s.lowV x).length = x.val + 1 := by
  rw [State.lowV, List.length_take, Vector.length_toList]
  omega

theorem lt_length_lowV {x r : Reg} (hr : r ≤ x) : r.val < (s.lowV x).length := by
  rw [length_lowV]
  exact Nat.lt_succ_of_le hr

theorem getElem_lowV {r : Reg} (h : r.val < (s.lowV x).length) : (s.lowV x)[r.val] = s.getV r := by
  simp [State.lowV, State.getV]

/-- `I` after a block transfer as a number: past the block modulo 2^16, or unchanged. -/
theorem toNat_indexAfter : (indexAfter s x).toNat =
    if s.config.quirks.index then s.i.toNat else (s.i.toNat + x.val + 1) % 65536 := by
  rw [indexAfter, apply_ite BitVec.toNat, BitVec.toNat_add, BitVec.toNat_ofNat, Nat.add_mod_mod,
    Nat.add_assoc]

end

/-! ## Decimal digits (R124) -/

/-- The three digits are those of the byte, and the bytes that hold them do not cut them. -/
theorem decimalDigits_cases (b : Byte) : ∃ h d o : Byte, decimalDigits b = [h, d, o]
    ∧ d.toNat < 10 ∧ o.toNat < 10 ∧ 100 * h.toNat + 10 * d.toNat + o.toNat = b.toNat := by
  have := b.isLt
  refine ⟨_, _, _, rfl, ?_⟩
  simp only [BitVec.toNat_ofNat]
  omega

/-! ## What the meanings answer -/

section

variable (nnn : BitVec 12) (x : Reg) (s : State)

theorem exec_ldI : exec (.ldI nnn) s = .next (s.setI (nnn.setWidth 16)) := rfl

theorem exec_addI : exec (.addI x) s = .next (s.setI (s.i + (s.getV x).setWidth 16)) := rfl

theorem exec_ldF : exec (.ldF x) s = .next (s.setI (smallGlyph (s.getV x))) := rfl

theorem exec_ldHf : exec (.ldHf x) s =
    .next (s.setI (largeGlyph s.config.bigFontBase (s.getV x))) := rfl

theorem exec_storeRpl : exec (.storeRpl x) s = .next (s.setLowRpl x s.getV) := rfl

theorem exec_loadRpl : exec (.loadRpl x) s = .next (s.setLowV x fun r => s.rpl[r]) := rfl

theorem exec_ldB : exec (.ldB x) s =
    finish (storeBytes s s.i.toNat (decimalDigits (s.getV x))) := rfl

end

section

variable {s t : State} {x : Reg} {bytes : List Byte} {f : Fault}

theorem exec_storeRegs_of_storeBytes (h : storeBytes s s.i.toNat (s.lowV x) = .ok t) :
    exec (.storeRegs x) s = .next (t.setI (indexAfter s x)) := by
  rw [exec, execStoreRegs, indexAddr, h]
  rfl

theorem exec_storeRegs_of_storeBytes_error (h : storeBytes s s.i.toNat (s.lowV x) = .error f) :
    exec (.storeRegs x) s = .fault f := by
  rw [exec, execStoreRegs, indexAddr, h]
  rfl

theorem exec_loadRegs_of_loadBytes (h : loadBytes s s.i.toNat (x.val + 1) = .ok bytes) :
    exec (.loadRegs x) s =
      .next ((s.setLowV x fun r => bytes.getD r.val 0).setI (indexAfter s x)) := by
  rw [exec, execLoadRegs, indexAddr, h]
  rfl

theorem exec_loadRegs_of_loadBytes_error (h : loadBytes s s.i.toNat (x.val + 1) = .error f) :
    exec (.loadRegs x) s = .fault f := by
  rw [exec, execLoadRegs, indexAddr, h]
  rfl

end

/-! ## The block store and the block load (R125, R126) -/

section

variable {s t : State} {x : Reg}

theorem loadByte_of_storeBytes_lowV {r : Reg} (h : storeBytes s s.i.toNat (s.lowV x) = .ok t)
    (hr : r ≤ x) : loadByte t (s.i.toNat + r.val) = .ok (s.getV r) := by
  rw [loadByte_storeBytes h (lt_length_lowV s hr), getElem_lowV]

/-- The round trip of R126: a state that reads as a block store left it loads the block stored. -/
theorem loadBytes_of_storeBytes_lowV {u : State}
    (h : storeBytes s s.i.toNat (s.lowV x) = .ok t) (hu : ∀ a, loadByte u a = loadByte t a) :
    loadBytes u s.i.toNat (x.val + 1) = .ok (s.lowV x) := by
  rw [← length_lowV s x]
  exact loadBytes_eq_of_loadByte fun k hk => (hu _).trans (loadByte_storeBytes h hk)

end

end Sys2Proof.Machine

namespace Sys2Proof

open Machine

/-- Settles O28: the block store is the block of writes of `V[0..x]`, then the new `I`. -/
theorem blockStore : Obligations.BlockStore := by
  intro x s
  have hlen := length_lowV s x
  refine ⟨encodedAs_tableRow (Laws.TableRow.storeRegs x) rfl, fun hin => ?_, fun hout => ?_⟩
  · obtain ⟨m, hm, -⟩ := storeBytes_ok s s.i.toNat (s.lowV x) (.inr (by omega))
    obtain ⟨hparts, hmem⟩ := storeBytes_changesOnly hm
    refine ⟨_, exec_storeRegs_of_storeBytes hm,
      fun r hr => (loadByte_setI ..).trans (loadByte_of_storeBytes_lowV hm hr),
      toNat_indexAfter s x, fun a ha => (loadByte_setI ..).trans (hmem a (hlen ▸ ha)),
      hparts.append (setI_changesOnly _ _)⟩
  · refine exec_storeRegs_of_storeBytes_error (storeBytes_error s _ _ ?_ (by omega))
    exact List.ne_nil_of_length_eq_add_one hlen

/-- Settles O29: a block load sets `V[0..x]` to the block of reads; after a block store that block is
the one stored. -/
theorem blockLoad : Obligations.BlockLoad := by
  intro x s
  refine ⟨encodedAs_tableRow (Laws.TableRow.loadRegs x) rfl, fun hin => ?_, fun hout => ?_,
    fun hin => ?_⟩
  · have hload := loadBytes_ok s s.i.toNat (x.val + 1) (.inr (by omega))
    refine ⟨_, exec_loadRegs_of_loadBytes hload, fun r hr => ?_,
      toNat_indexAfter s x, ?_⟩
    · rw [getV_setI, getV_setLowV, if_pos hr]
      exact loadByte_of_loadBytes hload (Nat.lt_succ_of_le hr)
    · refine ((setLowV_changesOnly _ _ _).append (setI_changesOnly _ _)).mono fun p hp => ?_
      exact List.mem_cons.2 ((List.mem_append.1 hp).symm.imp_left List.mem_singleton.1)
  · exact exec_loadRegs_of_loadBytes_error
      (loadBytes_error s _ _ (Nat.succ_ne_zero _) (by omega))
  · have hlen := length_lowV s x
    obtain ⟨m, hm, -⟩ := storeBytes_ok s s.i.toNat (s.lowV x) (.inr (by omega))
    refine ⟨_, exec_storeRegs_of_storeBytes hm, fun u hi hu => ?_⟩
    have hload := loadBytes_of_storeBytes_lowV hm fun a => (hu a).trans (loadByte_setI ..)
    refine ⟨_, exec_loadRegs_of_loadBytes (hi ▸ hload), fun r hr => ?_⟩
    rw [getV_setI, getV_setLowV, if_pos hr, List.getD_eq_getElem _ _ (lt_length_lowV s hr),
      getElem_lowV]

/-- Settles O27: the digits are a block of three writes, of which the last address decides. -/
theorem decimalStore : Obligations.DecimalStore := by
  intro x s
  obtain ⟨h, d, o, hdigits, hd, ho, hsum⟩ := decimalDigits_cases (s.getV x)
  refine ⟨encodedAs_tableRow (Laws.TableRow.ldB x) rfl, fun hin => ?_, fun hout => ?_⟩
  · obtain ⟨m, hm, -⟩ := storeBytes_ok s s.i.toNat [h, d, o] (.inr hin)
    have hread := fun k hk => loadByte_storeBytes (k := k) hm hk
    obtain ⟨hparts, hmem⟩ := storeBytes_changesOnly hm
    refine ⟨_, h, d, o, finish_eq_next.2 (hdigits ▸ hm), ?_, hread 1 (by simp), hread 2 (by simp),
      hd, ho, hsum, hmem, hparts⟩
    simpa using hread 0 (by simp)
  · rw [exec_ldB, hdigits, storeBytes_error s s.i.toNat [h, d, o] (List.cons_ne_nil _ _) (by
      rw [List.length_cons]; exact Nat.lt_succ_of_le hout)]
    rfl

/-- Settles O26: each of the four is one write of `I`; a small glyph's address fits it. -/
theorem indexRegisterWriters : Obligations.IndexRegisterWriters := by
  intro nnn x s
  refine ⟨⟨encodedAs_tableRow (Laws.TableRow.ldI nnn) rfl, _, exec_ldI nnn s,
      BitVec.toNat_setWidth_of_le (by decide), setI_changesOnly _ _⟩,
    ⟨encodedAs_tableRow (Laws.TableRow.addI x) rfl, _, exec_addI x s, ?_, setI_changesOnly _ _⟩,
    ⟨encodedAs_tableRow (Laws.TableRow.ldF x) rfl, _, exec_ldF x s, ?_, setI_changesOnly _ _⟩,
    encodedAs_tableRow (Laws.TableRow.ldHf x) rfl, _, exec_ldHf x s,
      BitVec.toNat_ofNat _ _, setI_changesOnly _ _⟩
  · rw [setI_i, BitVec.toNat_add, BitVec.toNat_setWidth_of_le (by decide)]
  · have := (s.getV x).isLt
    rw [setI_i, smallGlyph, BitVec.toNat_ofNat]
    omega

/-- Settles O30: both copies set the bank's entries up to `x` and keep those above. -/
theorem rplCopies : Obligations.RplCopies := by
  intro x s
  refine ⟨⟨encodedAs_tableRow (Laws.TableRow.storeRpl x) rfl, _, exec_storeRpl x s,
      fun r hr => ?_, setLowRpl_changesOnly _ _ _⟩,
    encodedAs_tableRow (Laws.TableRow.loadRpl x) rfl, _, exec_loadRpl x s,
      fun r hr => ?_, setLowV_changesOnly _ _ _⟩
  · rw [rpl_setLowRpl, if_pos hr]
  · rw [getV_setLowV, if_pos hr]

end Sys2Proof
end

section
/-! PROOFS. The display instructions that write whole planes (spec/43_display.md R142 to R147, R150 to
R157): clear, the four scrolls, the mode switches and the plane mask. -/

namespace Sys2Proof.Machine

/-! ## What the meanings answer -/

section

variable (n : Nat) (s : State)

theorem exec_cls : exec .cls s = .next (mapSelected s fun _ => []) := rfl

theorem exec_scd : exec (.scd n) s = .next (mapSelected s (scrollDown s.mode n)) := rfl

theorem exec_scu : exec (.scu n) s = .next (mapSelected s (scrollUp s.mode n)) := rfl

theorem exec_scr : exec .scr s = .next (mapSelected s (scrollRight s.mode)) := rfl

theorem exec_scl : exec .scl s = .next (mapSelected s (scrollLeft s.mode)) := rfl

theorem exec_low : exec .low s = .next (setMode s .normal) := rfl

theorem exec_high : exec .high s = .next (setMode s .extended) := rfl

theorem exec_plane (m : BitVec 4) : exec (.plane m) s = .next { s with plane := planeMask m } := rfl

end

/-! ## Planes after an operation -/

section

variable (s : State)

/-- An operation that answers the pixels `g` inside the screen answers them on every selected plane, and
changes no other plane (R148). -/
theorem mapSelected_pixels {f : Plane → Plane} {g : Plane → Nat → Nat → Bool}
    (hf : ∀ p px py, px < s.mode.width → py < s.mode.height →
      planeGet (f p) px py = g p px py) (id : PlaneId) :
    (PlaneSelected s id → ∀ px py, px < s.mode.width → py < s.mode.height →
        planeGet ((mapSelected s f).getPlane id) px py = g (s.getPlane id) px py)
      ∧ (¬ PlaneSelected s id → (mapSelected s f).getPlane id = s.getPlane id) := by
  obtain ⟨hsel, hother⟩ := getPlane_mapSelected s f id
  refine ⟨fun h px py hx hy => ?_, hother⟩
  rw [hsel h, hf _ px py hx hy]

@[simp] theorem getPlane_setMode (m : Mode) (id : PlaneId) : (setMode s m).getPlane id = [] := by
  cases id <;> rfl

/-- A mode switch clears both planes (R147). -/
theorem planeGet_setMode (m : Mode) (id : PlaneId) (px py : Nat) :
    planeGet ((setMode s m).getPlane id) px py = false := by
  rw [getPlane_setMode, planeGet_nil]

/-- Setting the plane mask. -/
theorem withPlaneMask_changesOnly (m : BitVec 2) :
    ChangesOnly s { s with plane := m } [.plane] := by
  intro p hp
  cases p with
  | plane => exact absurd (List.mem_singleton.2 rfl) hp
  | mem => exact loadByte_eq_of_mem rfl rfl
  | _ => simp only [Part.same, State.getV]

/-- The mask keeps the low two bits of the field (R157). -/
theorem toNat_planeMask (m : BitVec 4) : (planeMask m).toNat = m.toNat % 4 :=
  BitVec.extractLsb'_toNat ..

end

end Sys2Proof.Machine

namespace Sys2Proof

open Machine

/-- Settles O32: both scrolls move each selected plane as `planeGet_scrollDown` and `planeGet_scrollUp`
say. -/
theorem verticalScrolls : Obligations.VerticalScrolls := by
  intro n s
  exact ⟨⟨encodedAs_tableRow (Laws.TableRow.scd n) (decide_eq_true n.isLt), _, exec_scd n s,
      mapSelected_changesOnly _ _,
      mapSelected_pixels s fun p px py _ hy => planeGet_scrollDown s.mode n p px py hy⟩,
    encodedAs_tableRow (Laws.TableRow.scu n) (decide_eq_true n.isLt), _, exec_scu n s,
      mapSelected_changesOnly _ _,
      mapSelected_pixels s fun p px py _ hy => planeGet_scrollUp s.mode n p px py hy⟩

/-- Settles O33: both scrolls move each selected plane as `planeGet_scrollRight` and
`planeGet_scrollLeft` say. -/
theorem horizontalScrolls : Obligations.HorizontalScrolls := by
  intro s
  exact ⟨⟨encodedAs_tableRow Laws.TableRow.scr rfl, _, exec_scr s, mapSelected_changesOnly _ _,
      mapSelected_pixels s fun p px py hx _ => planeGet_scrollRight s.mode p px py hx⟩,
    encodedAs_tableRow Laws.TableRow.scl rfl, _, exec_scl s, mapSelected_changesOnly _ _,
      mapSelected_pixels s fun p px py hx _ => planeGet_scrollLeft s.mode p px py hx⟩

/-- Settles O31: a selected plane becomes the empty one. -/
theorem clearScreen : Obligations.ClearScreen := by
  intro s
  refine ⟨encodedAs_tableRow Laws.TableRow.cls rfl, _, exec_cls s, mapSelected_changesOnly _ _,
    fun id => ?_⟩
  obtain ⟨hsel, hother⟩ := getPlane_mapSelected s (fun _ => []) id
  refine ⟨fun h px py => ?_, hother⟩
  rw [hsel h, planeGet_nil]

/-- Settles O34: both are `setMode`, which does not look at `PLANE` or at the mode before. -/
theorem modeSwitches : Obligations.ModeSwitches := by
  intro s
  exact ⟨⟨encodedAs_tableRow Laws.TableRow.low rfl, _, exec_low s, setMode_mode .., rfl, rfl,
      planeGet_setMode s .normal, setMode_changesOnly _ _⟩,
    encodedAs_tableRow Laws.TableRow.high rfl, _, exec_high s, setMode_mode .., rfl, rfl,
      planeGet_setMode s .extended, setMode_changesOnly _ _⟩

/-- Settles O35: the new mask is the field modulo 4, and nothing else is written. -/
theorem planeSelect : Obligations.PlaneSelect := by
  intro n s
  exact ⟨encodedAs_tableRow (Laws.TableRow.plane n) rfl, _, exec_plane s n, toNat_planeMask n,
    withPlaneMask_changesOnly s _⟩

end Sys2Proof
end

section
/-! PROOFS. The sprite draw (spec/43_display.md R158 to R160): the landed bits of each plane, that no
landed bit meets another, and the draw of all selected planes in closed form. -/

namespace Sys2Proof.Machine

/-! ## No sprite overlaps itself (R159) -/

/-- The offsets of a sprite bit are below 16 in both directions. -/
theorem lt_of_mem_spriteBits {rowBytes : Nat} {bytes : List Byte} {o : Nat × Nat}
    (hrow : rowBytes = 1 ∨ rowBytes = 2) (hlen : bytes.length ≤ 16 * rowBytes)
    (h : o ∈ spriteBits rowBytes bytes) : o.1 < 16 ∧ o.2 < 16 := by
  obtain ⟨k, j, hk, hj, -, hc, hr⟩ := (mem_spriteBits ..).1 h
  rcases hrow with rfl | rfl <;> omega

/-- The bits of one byte differ in the column, and two bytes differ in the row or in the row's byte. -/
theorem spriteBits_nodup (rowBytes : Nat) (bytes : List Byte) :
    (spriteBits rowBytes bytes).Nodup := by
  refine List.nodup_flatMap.2 ⟨fun bk _ => ?_, ?_⟩
  · refine List.nodup_range.filterMap fun c c' o hc hc' => ?_
    simp only [Option.mem_def, Option.ite_none_right_eq_some, Option.some.injEq] at hc hc'
    have := congrArg Prod.fst (hc.2.trans hc'.2.symm)
    omega
  · refine (List.pairwise_map.1 (List.nodup_zipIdx_map_snd bytes)).imp
      fun {bk bk'} hne o ho ho' => hne ?_
    simp only [List.mem_filterMap, List.mem_range, Option.ite_none_right_eq_some,
      Option.some.injEq] at ho ho'
    obtain ⟨c, hc, -, rfl⟩ := ho
    obtain ⟨c', hc', -, he⟩ := ho'
    obtain ⟨hcol, hrow⟩ := Prod.mk.inj he
    exact Nat.ext_div_mod hrow.symm (by omega)

theorem Mode.sixteen_le (m : Mode) : 16 ≤ m.width ∧ 16 ≤ m.height := by
  cases m <;> decide

theorem eq_of_add_mod_eq {v a b w : Nat} (ha : a < w) (hb : b < w)
    (h : (v + a) % w = (v + b) % w) : a = b :=
  (Nat.ModEq.add_left_cancel' v h).eq_of_lt_of_lt ha hb

/-- Different offsets below 16 land on different pixels: the screen is wider and higher than a sprite. -/
theorem landing_inj {clip : Bool} {m : Mode} {vx vy : Nat} {o o' : Nat × Nat} {q : Pixel}
    (ho : o.1 < 16 ∧ o.2 < 16) (ho' : o'.1 < 16 ∧ o'.2 < 16)
    (h : landing clip m vx vy o = some q) (h' : landing clip m vx vy o' = some q) : o = o' := by
  have hw := m.sixteen_le
  have hmod : (vx + o.1) % m.width = (vx + o'.1) % m.width
      ∧ (vy + o.2) % m.height = (vy + o'.2) % m.height := by
    cases clip with
    | false => exact Prod.mk.inj (Option.some.inj (h.trans h'.symm))
    | true =>
      simp only [landing, if_true, Option.ite_none_right_eq_some, Option.some.injEq] at h h'
      obtain ⟨hx, hy⟩ := Prod.mk.inj (h.2.trans h'.2.symm)
      exact ⟨congrArg (· % m.width) hx, congrArg (· % m.height) hy⟩
  exact Prod.ext (eq_of_add_mod_eq (by omega) (by omega) hmod.1)
    (eq_of_add_mod_eq (by omega) (by omega) hmod.2)

theorem landedPixels_nodup (clip : Bool) (m : Mode) (vx vy : Nat) {rowBytes : Nat}
    {bytes : List Byte} (hrow : rowBytes = 1 ∨ rowBytes = 2)
    (hlen : bytes.length ≤ 16 * rowBytes) :
    (landedPixels clip m vx vy rowBytes bytes).Nodup := by
  refine List.pairwise_filterMap.2 ((spriteBits_nodup rowBytes bytes).imp_of_mem ?_)
  rintro o o' ho ho' hne q hq _ hq' rfl
  exact hne (landing_inj (lt_of_mem_spriteBits hrow hlen ho) (lt_of_mem_spriteBits hrow hlen ho')
    hq hq')

/-! ## The sprite on one plane (R158, R160) -/

/-- The bytes of the sprite on a plane. -/
def spriteBytes (s : State) (n : Nat) (id : PlaneId) : List Byte :=
  (List.range (spriteLen s n)).map fun k => memGet s.mem (s.i.toNat + spriteOffset s n id + k)

/-- The pixels that the sprite's 1-bits land on, on a plane. -/
def spritePixels (s : State) (x y : Reg) (n : Nat) (id : PlaneId) : List Pixel :=
  landedPixels s.config.quirks.clip s.mode (s.getV x).toNat (s.getV y).toNat (spriteRowBytes s n)
    (spriteBytes s n id)

/-- A plane with the sprite drawn on it, and whether an on pixel was turned off. -/
def drawnPlane (s : State) (x y : Reg) (n : Nat) (id : PlaneId) : Plane × Bool :=
  flipPixels (s.getPlane id) (spritePixels s x y n id)

section

variable (s : State) (x y : Reg) (n : Nat) (id : PlaneId)

/-- One byte for a row, `n` rows; or two bytes for a row, 16 rows (R158). -/
theorem spriteShape_cases : (spriteRowBytes s n = 1 ∧ spriteLen s n = n)
    ∨ (spriteRowBytes s n = 2 ∧ spriteLen s n = 32) := by
  unfold spriteRowBytes spriteLen
  cases bigSprite s n
  · exact .inl ⟨rfl, rfl⟩
  · exact .inr ⟨rfl, rfl⟩

theorem spriteRowBytes_cases : spriteRowBytes s n = 1 ∨ spriteRowBytes s n = 2 :=
  (spriteShape_cases s n).imp And.left And.left

theorem spriteRowBytes_pos : 0 < spriteRowBytes s n := by
  have := spriteRowBytes_cases s n
  omega

@[simp] theorem length_spriteBytes : (spriteBytes s n id).length = spriteLen s n := by
  simp [spriteBytes]

/-- Bit `7 - j` of byte `k` is the sprite bit at the byte's row and the bit's column. -/
theorem getLsbD_spriteBytes {k j : Nat} (hk : k < (spriteBytes s n id).length) (hj : j < 8) :
    (spriteBytes s n id)[k].getLsbD (7 - j)
      = spriteBit s n id (k / spriteRowBytes s n) (8 * (k % spriteRowBytes s n) + j) := by
  have hbyte : (8 * (k % spriteRowBytes s n) + j) / 8 = k % spriteRowBytes s n := by omega
  have hbit : (8 * (k % spriteRowBytes s n) + j) % 8 = j := by omega
  rw [spriteBit, hbyte, hbit, Nat.div_add_mod']
  simp only [spriteBytes, List.getElem_map, List.getElem_range]

/-- A bit of the sprite's bytes, by row and column. -/
theorem mem_spriteBits_spriteBytes (c r : Nat) :
    (c, r) ∈ spriteBits (spriteRowBytes s n) (spriteBytes s n id) ↔
      r * spriteRowBytes s n < spriteLen s n ∧ c < 8 * spriteRowBytes s n
        ∧ spriteBit s n id r c = true := by
  have hshape := spriteShape_cases s n
  rw [mem_spriteBits]
  constructor
  · rintro ⟨k, j, hk, hj, hbit, rfl, rfl⟩
    rw [getLsbD_spriteBytes s n id hk hj] at hbit
    rw [length_spriteBytes] at hk
    have hcol := Nat.mod_lt k (spriteRowBytes_pos s n)
    exact ⟨(Nat.div_mul_le_self k _).trans_lt hk, by omega, hbit⟩
  · rintro ⟨hr, hc, hbit⟩
    have hrow : (r * spriteRowBytes s n + c / 8) / spriteRowBytes s n = r := by
      rcases hshape with ⟨hrb, -⟩ | ⟨hrb, -⟩ <;> rw [hrb] at hc ⊢ <;> omega
    have hcol : 8 * ((r * spriteRowBytes s n + c / 8) % spriteRowBytes s n) + c % 8 = c := by
      rcases hshape with ⟨hrb, -⟩ | ⟨hrb, -⟩ <;> rw [hrb] at hc ⊢ <;> omega
    have hk : r * spriteRowBytes s n + c / 8 < (spriteBytes s n id).length := by
      rw [length_spriteBytes]
      rcases hshape with ⟨hrb, hlen⟩ | ⟨hrb, hlen⟩ <;> rw [hrb] at hr hc ⊢ <;> omega
    refine ⟨_, c % 8, hk, Nat.mod_lt _ (by decide), ?_, hcol.symm, hrow.symm⟩
    rw [getLsbD_spriteBytes s n id hk (Nat.mod_lt _ (by decide)), hrow, hcol, hbit]

/-- Inside the screen the landed bits are at the pixels that the sprite covers. -/
theorem mem_spritePixels {px py : Nat} (hx : px < s.mode.width) (hy : py < s.mode.height) :
    (px, py) ∈ spritePixels s x y n id ↔ SpriteCovers s x y n id px py := by
  rw [spritePixels, mem_landedPixels, exists_comm]
  refine exists_congr fun r => exists_congr fun c => ?_
  rw [mem_spriteBits_spriteBytes, LandsOn, and_assoc, and_assoc]
  simp only [hx, hy, and_true]

theorem spritePixels_nodup (hn : n < 16) : (spritePixels s x y n id).Nodup := by
  refine landedPixels_nodup _ _ _ _ (spriteRowBytes_cases s n) ?_
  rw [length_spriteBytes]
  have := spriteShape_cases s n
  omega

/-- Drawing inverts the covered pixels (R160). -/
theorem planeGet_drawnPlane (hn : n < 16) {px py : Nat} (hx : px < s.mode.width)
    (hy : py < s.mode.height) :
    planeGet (drawnPlane s x y n id).1 px py = true ↔
      ¬ (planeGet (s.getPlane id) px py = true ↔ SpriteCovers s x y n id px py) := by
  rw [drawnPlane, planeGet_flipPixels _ _ (spritePixels_nodup s x y n id hn),
    ← mem_spritePixels s x y n id hx hy, Bool.xor_iff_ne, ne_eq, Bool.eq_iff_iff,
    decide_eq_true_iff]

/-- A collision is a covered pixel that was on (R160). -/
theorem snd_drawnPlane (hn : n < 16) :
    (drawnPlane s x y n id).2 = true ↔ ∃ px py, px < s.mode.width ∧ py < s.mode.height
      ∧ SpriteCovers s x y n id px py ∧ planeGet (s.getPlane id) px py = true := by
  rw [drawnPlane, snd_flipPixels _ _ (spritePixels_nodup s x y n id hn), List.any_eq_true,
    Prod.exists]
  refine exists_congr fun px => exists_congr fun py => ?_
  constructor
  · rintro ⟨hq, hon⟩
    obtain ⟨hx, hy⟩ := landedPixels_inside _ _ _ _ _ _ _ hq
    exact ⟨hx, hy, (mem_spritePixels s x y n id hx hy).1 hq, hon⟩
  · rintro ⟨hx, hy, hcov, hon⟩
    exact ⟨(mem_spritePixels s x y n id hx hy).2 hcov, hon⟩

end

/-! ## The draw of all selected planes (R160) -/

/-- The state with the sprite drawn on the selected planes. -/
def drawnState (s : State) (x y : Reg) (n : Nat) : State :=
  { s with
    p1 := if s.plane.getLsbD 0 then (drawnPlane s x y n .one).1 else s.p1
    p2 := if s.plane.getLsbD 1 then (drawnPlane s x y n .two).1 else s.p2 }

/-- Whether the draw turns an on pixel of some selected plane off: the OR of D12. -/
def spriteHit (s : State) (x y : Reg) (n : Nat) : Bool :=
  (selectedPlanes s.plane).any fun id => (drawnPlane s x y n id).2

section

variable {s : State} {x y : Reg} {n : Nat}

theorem getPlane_drawnState (id : PlaneId) :
    (PlaneSelected s id → (drawnState s x y n).getPlane id = (drawnPlane s x y n id).1)
      ∧ (¬ PlaneSelected s id → (drawnState s x y n).getPlane id = s.getPlane id) := by
  cases id with
  | one => exact ⟨fun h => if_pos h, fun h => if_neg h⟩
  | two => exact ⟨fun h => if_pos h, fun h => if_neg h⟩

theorem spriteHit_iff (hn : n < 16) : spriteHit s x y n = true ↔ SpriteMeets s x y n true := by
  simp only [spriteHit, List.any_eq_true, mem_selectedPlanes, snd_drawnPlane s x y n _ hn,
    SpriteMeets, exists_and_left]

/-- One plane of the draw: a state that agrees with `s` on what the draw reads gets the plane with the
sprite of `s` drawn on it. -/
theorem drawPlanes_cons_sprite {u : State} {base : Nat} {hit : Bool} {id : PlaneId}
    {ids : List PlaneId} (hmem : u.mem = s.mem) (hconfig : u.config = s.config)
    (hmode : u.mode = s.mode) (hplane : u.getPlane id = s.getPlane id)
    (hbase : base = s.i.toNat + spriteOffset s n id)
    (h : spriteLen s n = 0 ∨ base + spriteLen s n ≤ s.config.memSize.bytes) :
    drawPlanes u (s.getV x).toNat (s.getV y).toNat (spriteRowBytes s n) (spriteLen s n) base hit
        (id :: ids)
      = drawPlanes (u.setPlane id (drawnPlane s x y n id).1) (s.getV x).toNat (s.getV y).toNat
          (spriteRowBytes s n) (spriteLen s n) (base + spriteLen s n : Nat)
          (hit || (drawnPlane s x y n id).2) ids := by
  rw [drawPlanes_cons_ok u _ _ _ _ _ _ _ _ (by rwa [hconfig]), hmem, hconfig, hmode, hplane, hbase]
  rfl

/-- The draw of the selected planes in closed form, by the four values of `PLANE`. -/
theorem drawPlanes_ok
    (h : spriteBytesRead s n = 0 ∨ s.i.toNat + spriteBytesRead s n ≤ s.config.memSize.bytes) :
    drawPlanes s (s.getV x).toNat (s.getV y).toNat (spriteRowBytes s n) (spriteLen s n) s.i.toNat
        false (selectedPlanes s.plane)
      = .ok (drawnState s x y n, spriteHit s x y n) := by
  cases h₁ : s.plane.getLsbD 0 <;> cases h₂ : s.plane.getLsbD 1
  case false.false =>
    have hsel : selectedPlanes s.plane = [] := by rw [selectedPlanes, h₁, h₂]; rfl
    rw [drawnState, spriteHit, hsel, h₁, h₂]
    rfl
  case false.true =>
    have hsel : selectedPlanes s.plane = [.two] := by rw [selectedPlanes, h₁, h₂]; rfl
    have hoff : spriteOffset s n .two = 0 := by rw [spriteOffset, h₁]; rfl
    have hread : spriteBytesRead s n = spriteLen s n := by
      rw [spriteBytesRead, hsel]; exact Nat.mul_one _
    rw [drawnState, spriteHit, hsel, h₁, h₂, List.any_cons, List.any_nil, Bool.or_false,
      drawPlanes_cons_sprite rfl rfl rfl rfl (by rw [hoff]; rfl) (hread ▸ h)]
    rfl
  case true.false =>
    have hsel : selectedPlanes s.plane = [.one] := by rw [selectedPlanes, h₁, h₂]; rfl
    have hread : spriteBytesRead s n = spriteLen s n := by
      rw [spriteBytesRead, hsel]; exact Nat.mul_one _
    rw [drawnState, spriteHit, hsel, h₁, h₂, List.any_cons, List.any_nil, Bool.or_false,
      drawPlanes_cons_sprite rfl rfl rfl rfl (by rfl) (hread ▸ h)]
    rfl
  case true.true =>
    have hsel : selectedPlanes s.plane = [.one, .two] := by rw [selectedPlanes, h₁, h₂]; rfl
    have hoff : spriteOffset s n .two = spriteLen s n := by rw [spriteOffset, h₁]; rfl
    have hread : spriteBytesRead s n = spriteLen s n * 2 := by rw [spriteBytesRead, hsel]; rfl
    rw [hread] at h
    rw [drawnState, spriteHit, hsel, h₁, h₂, List.any_cons, List.any_cons, List.any_nil,
      Bool.or_false, drawPlanes_cons_sprite rfl rfl rfl rfl (by rfl) (by omega),
      drawPlanes_cons_sprite (setPlane_mem ..) (setPlane_config ..) (setPlane_mode ..) (by rfl)
        (by rw [hoff]) (by omega)]
    rfl

/-- Some plane's bytes are not all in bounds: the planes before it are read, and the fault is at the
first address outside. -/
theorem drawPlanes_error {vx vy rowBytes len : Nat} (hlen : len ≠ 0) {ids : List PlaneId}
    (hids : ids ≠ []) {base : Nat} {hit : Bool}
    (h : s.config.memSize.bytes < base + len * ids.length) :
    drawPlanes s vx vy rowBytes len base hit ids
      = .error (.outOfBoundsAccess (max base s.config.memSize.bytes : Nat)) := by
  induction ids generalizing s base hit with
  | nil => exact absurd rfl hids
  | cons id ids ih =>
    rw [List.length_cons, Nat.mul_succ] at h
    by_cases hfirst : s.config.memSize.bytes < base + len
    · exact drawPlanes_cons_error s _ _ _ _ _ _ _ _ hlen hfirst
    · have hrest : ids ≠ [] := by rintro rfl; exact hfirst (by simpa using h)
      rw [drawPlanes_cons_ok s _ _ _ _ _ _ _ _ (.inr (by omega)),
        ih hrest (by rw [setPlane_config]; omega), setPlane_config, max_eq_right (by omega),
        max_eq_right (by omega)]

/-! ## What the meaning answers -/

theorem exec_drw_of_no_plane (h : selectedPlanes s.plane = []) :
    exec (.drw x y n) s = finish (do
      let _ ← loadBytes s s.i.toNat (spriteLen s n)
      .ok (s.setFlag false)) := by
  rw [exec, execDrw, h]
  rfl

theorem exec_drw_of_drawPlanes (h : selectedPlanes s.plane ≠ []) :
    exec (.drw x y n) s = finish (do
      let (t, hit) ← drawPlanes s (s.getV x).toNat (s.getV y).toNat (spriteRowBytes s n)
        (spriteLen s n) s.i.toNat false (selectedPlanes s.plane)
      .ok (t.setFlag hit)) := by
  rw [exec, execDrw]
  split
  · contradiction
  · rfl

theorem exec_drw_ok
    (h : spriteBytesRead s n = 0 ∨ s.i.toNat + spriteBytesRead s n ≤ s.config.memSize.bytes) :
    exec (.drw x y n) s = .next ((drawnState s x y n).setFlag (spriteHit s x y n)) := by
  cases hsel : selectedPlanes s.plane with
  | nil =>
    have hdraw := drawPlanes_ok (x := x) (y := y) h
    rw [hsel, drawPlanes] at hdraw
    rw [spriteBytesRead, hsel] at h
    obtain ⟨ht, hhit⟩ := Prod.mk.inj (Except.ok.inj hdraw)
    rw [exec_drw_of_no_plane hsel, loadBytes_ok s _ _ (by simpa using h), ← ht, ← hhit]
    rfl
  | cons id ids =>
    rw [exec_drw_of_drawPlanes (by simp [hsel]), drawPlanes_ok h]
    rfl

theorem exec_drw_fault (hread : spriteBytesRead s n ≠ 0)
    (h : s.config.memSize.bytes < s.i.toNat + spriteBytesRead s n) :
    exec (.drw x y n) s
      = .fault (.outOfBoundsAccess (max s.i.toNat s.config.memSize.bytes : Nat)) := by
  rw [spriteBytesRead] at hread h
  have hlen : spriteLen s n ≠ 0 := left_ne_zero_of_mul hread
  cases hsel : selectedPlanes s.plane with
  | nil =>
    rw [hsel] at h
    rw [exec_drw_of_no_plane hsel, loadBytes_error s _ _ hlen (by simpa using h)]
    rfl
  | cons id ids =>
    have hids : selectedPlanes s.plane ≠ [] := by simp [hsel]
    rw [max_eq_right (List.length_pos_iff.2 hids)] at h
    rw [exec_drw_of_drawPlanes hids, drawPlanes_error hlen hids h]
    rfl

theorem flagByte_eq_one_iff (c : Bool) : flagByte c = 1 ↔ c = true := by
  cases c <;> decide

theorem flagByte_cases (c : Bool) : flagByte c = 0 ∨ flagByte c = 1 := by
  cases c <;> decide

end

end Sys2Proof.Machine

namespace Sys2Proof

open Machine

/-- Settles O36: the draw leaves `drawnState` with the flag `spriteHit`, or faults at the first byte
outside; a sprite does not overlap itself, so each covered pixel is inverted once. -/
theorem drawIsXorWithCollision : Obligations.DrawIsXorWithCollision := by
  intro x y n s
  refine ⟨encodedAs_tableRow (Laws.TableRow.drw x y n) (decide_eq_true n.isLt), fun hin => ?_,
    exec_drw_fault⟩
  refine ⟨_, exec_drw_ok hin, ?_, fun id => ?_, ?_⟩
  · exact ((planes_changesOnly s _ _).append (setFlag_changesOnly _ _)).mono (by simp)
  · obtain ⟨hsel, hother⟩ := getPlane_drawnState (s := s) (x := x) (y := y) (n := n) id
    rw [getPlane_setFlag]
    refine ⟨fun h px py hx hy => ?_, hother⟩
    rw [hsel h]
    exact planeGet_drawnPlane s x y n id n.isLt hx hy
  · rw [getV_setFlag, if_pos rfl]
    exact ⟨flagByte_cases _, (flagByte_eq_one_iff _).trans (spriteHit_iff n.isLt)⟩

end Sys2Proof
end

section
/-! PROOFS. Keypad and tone (spec/44_keypad_timers_sound.md R171, R172, R181): the key skips are
`skipIf` on the key's level; the tone output is a function of `ST`, `RUN` and `PITCH`. -/

namespace Sys2Proof.Machine

section

variable (x : Reg) (s : State)

theorem exec_skp : exec (.skp x) s = .next (skipIf (keyDown s (s.getV x)) s) := rfl

theorem exec_sknp : exec (.sknp x) s = .next (skipIf (!keyDown s (s.getV x)) s) := rfl

/-- Skip on the negated condition: the branches of `toNat_skipIf_pc` change places. -/
theorem toNat_skipIf_not_pc (c : Bool) :
    (skipIf (!c) s).pc.toNat = if c then s.pc.toNat else (s.pc.toNat + 2) % 65536 := by
  cases c <;> rfl

end

/-- The level of a key is settled by the keypad for a code up to 15 and is down for no other code. -/
theorem keyDown_eq {s : State} {code : Byte} {down : Bool}
    (hkey : ∀ h : code.toNat < 16, down = s.keys[code.toNat])
    (hnone : 16 ≤ code.toNat → down = false) : keyDown s code = down := by
  unfold keyDown
  split
  case isTrue h => exact (hkey h).symm
  case isFalse h => exact (hnone (Nat.le_of_not_lt h)).symm

theorem RunState.alive_iff (r : RunState) :
    r.alive = true ↔ r = .running ∨ r = .awaitingKey := by
  cases r <;> decide

theorem toneOn_iff (s : State) :
    toneOn s = true ↔ s.st.toNat ≠ 0 ∧ (s.run = .running ∨ s.run = .awaitingKey) := by
  rw [toneOn, Bool.and_eq_true, decide_eq_true_eq, RunState.alive_iff, ne_eq, ne_eq,
    ← BitVec.toNat_inj]
  rfl

end Sys2Proof.Machine

namespace Sys2Proof

open Machine

/-- Settles O40: both are `skipIf` on the level of the key, SKNP on its negation. -/
theorem keySkips : Obligations.KeySkips := by
  intro x s down hkey hnone
  obtain rfl : keyDown s (s.getV x) = down := keyDown_eq hkey hnone
  exact ⟨⟨encodedAs_tableRow (Laws.TableRow.skp x) rfl, _, exec_skp x s,
      toNat_skipIf_pc s _, skipIf_changesOnly _ _⟩,
    ⟨encodedAs_tableRow (Laws.TableRow.sknp x) rfl, _, exec_sknp x s,
      toNat_skipIf_not_pc s _, skipIf_changesOnly _ _⟩⟩

/-- Settles O46: a run goes on exactly in RUNNING and AWAITING_KEY; the pitch is the register itself. -/
theorem toneFollowsTheSoundTimer : Obligations.ToneFollowsTheSoundTimer :=
  fun s => ⟨toneOn_iff s, rfl⟩

end Sys2Proof
end

section
/-! PROOFS. Host signals (spec/60_exceptions.md R203): what the kill signal does while a run is going on
and after it has ended, and that a stopped machine gives no tone (R181). -/

namespace Sys2Proof.Machine

theorem perform_kill (s : State) : perform .kill s = .next (killSignal s) := rfl

section

variable {s : State}

theorem RunState.alive_eq_false_iff (r : RunState) :
    r.alive = false ↔ r = .stopped ∨ r = .fatal := by
  cases r <;> decide

theorem killSignal_of_alive (h : s.run.alive = true) : killSignal s = s.setRun .stopped :=
  if_pos h

theorem killSignal_of_not_alive (h : s.run.alive = false) : killSignal s = s :=
  if_neg (ne_true_of_eq_false h)

theorem toneOn_eq_false_of_not_alive (h : s.run.alive = false) : toneOn s = false := by
  rw [toneOn, h, Bool.and_false]

end

end Sys2Proof.Machine

namespace Sys2Proof

open Machine

/-- Settles O47: the kill signal is `setRun .stopped` while a run is going on and the identity after it. -/
theorem killStopsTheRun : Obligations.KillStopsTheRun := by
  intro s
  constructor
  · intro hgoing
    have hkill : killSignal s = s.setRun .stopped :=
      killSignal_of_alive ((RunState.alive_iff _).mpr hgoing)
    refine ⟨s.setRun .stopped, ?_, setRun_run s _, ?_, setRun_changesOnly s _⟩
    · rw [perform_kill, hkill]
    · exact toneOn_eq_false_of_not_alive rfl
  · intro hended
    rw [perform_kill, killSignal_of_not_alive ((RunState.alive_eq_false_iff _).mpr hended)]

end Sys2Proof
end

section
/-! PROOFS. The reset signal (spec/70_reset_and_hazards.md R220, R222): what the state after it reads as,
register by register, plane by plane and byte by byte, from every state. -/

namespace Sys2Proof.Machine

theorem perform_reset (q : Option Quirks) (s : State) :
    perform (.reset q) s = .next (resetSignal q s) := rfl

section

variable (q : Option Quirks) (s : State)

@[simp] theorem getV_resetSignal (r : Reg) : (resetSignal q s).getV r = 0 :=
  Vector.getElem_replicate r.isLt

@[simp] theorem rpl_resetSignal (r : Reg) : (resetSignal q s).rpl[r] = 0 :=
  Vector.getElem_replicate r.isLt

@[simp] theorem getPlane_resetSignal (id : PlaneId) : (resetSignal q s).getPlane id = [] := by
  cases id <;> rfl

/-- R222: reset writes no byte of memory and keeps `MEM_SIZE`, so the same addresses stay in bounds. -/
@[simp] theorem loadByte_resetSignal (a : Int) : loadByte (resetSignal q s) a = loadByte s a :=
  loadByte_congr rfl a rfl

end

theorem toneOn_eq_false_of_st_eq_zero {s : State} (h : s.st = 0) : toneOn s = false := by
  rw [toneOn, h]
  rfl

end Sys2Proof.Machine

namespace Sys2Proof

open Machine

/-- Settles O2: the next state is `resetSignal q s`, whose register fields are the constants of R220 by
definition; the register files, the planes, the tone and memory read as the lemmas above say. -/
theorem resetSignalRestoresTheConstants : Obligations.ResetSignalRestoresTheConstants := by
  intro s q
  have hfiles (r : Reg) : (resetSignal q s).getV r = 0 ∧ (resetSignal q s).rpl[r] = 0 :=
    ⟨getV_resetSignal q s r, rpl_resetSignal q s r⟩
  have hblank (id : PlaneId) (px py : Nat) :
      planeGet ((resetSignal q s).getPlane id) px py = false := by
    rw [getPlane_resetSignal, planeGet_nil]
  have hsilent : toneOn (resetSignal q s) = false := toneOn_eq_false_of_st_eq_zero rfl
  exact ⟨resetSignal q s, perform_reset q s, rfl, rfl, hfiles, rfl, rfl, rfl, rfl, rfl, rfl, hblank, rfl,
    hsilent, loadByte_resetSignal q s, rfl, rfl, rfl⟩

end Sys2Proof
end

section
/-! PROOFS. Decode against encode (spec/30_encoding.md sections 1 to 6): the bytes of a word are
read back as the word (R45, R60), a word that decodes is packed again from its fields, and the words
that are written as sums hold the summands as fields (R61, R62). -/

namespace Sys2Proof

/-! ## The two bytes of a word (R45) -/

theorem wordOfBytes_extractLsb' (op : Word) :
    wordOfBytes (op.extractLsb' 8 8) (op.extractLsb' 0 8) = op := by
  rw [wordOfBytes, BitVec.extractLsb'_append_extractLsb'_eq_extractLsb' (by rfl)]
  exact BitVec.extractLsb'_eq_self

theorem decode_cons_cons {hi lo : Byte} {i : Instr} (rest : List Byte)
    (h : decodeWord (wordOfBytes hi lo) = some i) : decode (hi :: lo :: rest) = .ok (i, rest) := by
  simp only [decode, h]

/-- Settles O8: the fields of the word select the constructor and are its operands
(`decodeWord_encode`), and the two bytes make up that word. -/
theorem decodeOfEncodeIsTheInstruction : Obligations.DecodeOfEncodeIsTheInstruction := by
  intro i rest hwf
  have hword : decodeWord (encode i) = some i := decodeWord_encode hwf
  refine ⟨hword, decode_cons_cons rest ?_⟩
  rw [wordOfBytes_extractLsb', hword]

/-! ## A word that decodes, packed again from its fields -/

/-- The bits of a word that take part in decoding, by family (R64, R67): the others are ignored. -/
def readBits (family : Nat) : Word :=
  if family = 0x0 then 0xF0FF else if family = 0x5 ∨ family = 0x9 then 0xFFF0 else 0xFFFF

theorem readBits_familyOf (op : Word) : readBits (familyOf op) =
    if op.extractLsb' 12 4 = 0x0 then 0xF0FF
    else if op.extractLsb' 12 4 = 0x5 ∨ op.extractLsb' 12 4 = 0x9 then 0xFFF0 else 0xFFFF := by
  have hfam (k : BitVec 4) : op.extractLsb' 12 4 = k ↔ familyOf op = k.toNat :=
    BitVec.toNat_inj.symm
  simp only [readBits, hfam]
  rfl

theorem and_ffff (op : Word) : op &&& 0xFFFF = op := BitVec.and_allOnes

theorem packNibbles_and_fff0 (a b c d : BitVec 4) :
    packNibbles a b c d &&& 0xFFF0 = packNibbles a b c 0 := by
  unfold packNibbles
  apply BitVec.eq_of_getLsbD_eq
  intro i hi
  simp only [BitVec.getLsbD_and, BitVec.getLsbD_append]
  interval_cases i <;> simp

theorem fieldN_lt (op : Word) : fieldN op < 16 := (op.extractLsb' 0 4).isLt

/-- Format N1: the mask stands where format X has its register. -/
theorem packNibbles_eq_packXI (f m c d : BitVec 4) :
    packNibbles f m c d = packXI f m.toFin (c ++ d) := by
  rw [packNibbles, packXI, BitVec.append_assoc, BitVec.ofFin_toFin]
  rfl

section

variable {op : Word} {f : BitVec 4}

theorem packA_fields (hf : familyOf op = f.toNat) : packA f (fieldNNN op) = op := by
  rw [packA, fieldNNN, ← BitVec.eq_of_toNat_eq hf,
    BitVec.extractLsb'_append_extractLsb'_eq_extractLsb' (by rfl)]
  exact BitVec.extractLsb'_eq_self

theorem packXI_fields {nn : Byte} (hf : familyOf op = f.toNat)
    (hnn : (fieldNN op).toNat = nn.toNat) : packXI f (fieldX op) nn = op := by
  rw [← BitVec.eq_of_toNat_eq hf, ← BitVec.eq_of_toNat_eq hnn, ← eq_packXI_fields]

theorem packXY_fields {low : BitVec 4} (hf : familyOf op = f.toNat) (hn : fieldN op = low.toNat) :
    packXY f (fieldX op) (fieldY op) low = op := by
  rw [← BitVec.eq_of_toNat_eq hf, ← BitVec.eq_of_toNat_eq hn]
  exact (eq_packNibbles_extractLsb' op).symm

/-- Families 5 and 9: the low nibble is dropped (R67). -/
theorem packXY_zero_fields (hf : familyOf op = f.toNat) :
    packXY f (fieldX op) (fieldY op) 0x0 = op &&& 0xFFF0 := by
  conv_rhs => rw [← packXY_fields (low := op.extractLsb' 0 4) hf rfl]
  exact (packNibbles_and_fff0 ..).symm

/-- The scrolls of family 0: the count stays, bits 11:8 are dropped (R64). -/
theorem packNibbles_scroll {y : BitVec 4} (hf : familyOf op = 0x0)
    (hy : (fieldY op).val = y.toNat) :
    packNibbles 0x0 0x0 y (BitVec.ofNat 4 (fieldN op)) = op &&& 0xF0FF := by
  have hfam : op.extractLsb' 12 4 = 0x0 := BitVec.eq_of_toNat_eq hf
  have hnib : op.extractLsb' 4 4 = y := BitVec.eq_of_toNat_eq hy
  have hcount : BitVec.ofNat 4 (fieldN op) = op.extractLsb' 0 4 := BitVec.ofNat_toNat ..
  conv_rhs => rw [eq_packNibbles_extractLsb' op, packNibbles_and_f0ff, hfam, hnib]
  rw [hcount]
  rfl

variable {i : Instr}

/-- Family 0: a scroll keeps its count, and every other row has no bit outside the mask (R64). -/
theorem encode_of_decodeFamily0 (hf : familyOf op = 0x0) (h : decodeFamily0 op = some i) :
    i.wellFormed = true ∧ encode i = op &&& 0xF0FF := by
  have hrow := decodeFamily0_matches hf h
  unfold decodeFamily0 at h
  split at h
  case h_8 =>
    split at h <;> rename_i hy <;> cases h
    all_goals exact ⟨decide_eq_true (fieldN_lt op), packNibbles_scroll hf hy⟩
  all_goals
    cases h
    exact ⟨rfl, hrow.symm⟩

theorem encode_of_decodeFamily8 (hf : familyOf op = 0x8) (h : decodeFamily8 op = some i) :
    i.wellFormed = true ∧ encode i = op := by
  unfold decodeFamily8 at h
  split at h <;> rename_i hn <;> cases h
  all_goals exact ⟨rfl, packXY_fields hf hn⟩

theorem encode_of_decodeFamilyE (hf : familyOf op = 0xE) (h : decodeFamilyE op = some i) :
    i.wellFormed = true ∧ encode i = op := by
  unfold decodeFamilyE at h
  split at h <;> rename_i hnn <;> cases h
  all_goals exact ⟨rfl, packXI_fields hf hnn⟩

theorem encode_of_decodeFamilyF (hf : familyOf op = 0xF) (h : decodeFamilyF op = some i) :
    i.wellFormed = true ∧ encode i = op := by
  unfold decodeFamilyF at h
  split at h <;> rename_i hnn <;> cases h
  case h_1 => exact ⟨rfl, (packNibbles_eq_packXI ..).trans (packXI_fields hf hnn)⟩
  all_goals exact ⟨rfl, packXI_fields hf hnn⟩

/-- The first level: families 0, 5 and 9 drop bits, every other family keeps the whole word. -/
theorem encode_of_decodeWord (h : decodeWord op = some i) :
    i.wellFormed = true ∧ encode i = op &&& readBits (familyOf op) := by
  unfold decodeWord at h
  split at h <;> rename_i hf
  case h_17 => cases h
  all_goals rw [hf]
  case h_1 => exact encode_of_decodeFamily0 hf h
  case h_6 => cases h; exact ⟨rfl, packXY_zero_fields hf⟩
  case h_10 => cases h; exact ⟨rfl, packXY_zero_fields hf⟩
  all_goals
    change i.wellFormed = true ∧ encode i = op &&& 0xFFFF
    rw [and_ffff]
  case h_9 => exact encode_of_decodeFamily8 hf h
  case h_15 => exact encode_of_decodeFamilyE hf h
  case h_16 => exact encode_of_decodeFamilyF hf h
  case h_2 | h_3 | h_11 | h_12 => cases h; exact ⟨rfl, packA_fields hf⟩
  case h_4 | h_5 | h_7 | h_8 | h_13 => cases h; exact ⟨rfl, packXI_fields hf rfl⟩
  case h_14 =>
    cases h
    exact ⟨decide_eq_true (fieldN_lt op), packXY_fields hf (Nat.mod_eq_of_lt (fieldN_lt op)).symm⟩

end

/-- Settles O9: each family packs the word's fields again, with 0 for the bits it does not read. -/
theorem encodeOfDecodeDropsOnlyIgnoredBits : Obligations.EncodeOfDecodeDropsOnlyIgnoredBits := by
  intro op i h
  rw [← readBits_familyOf]
  exact encode_of_decodeWord h

/-! ## Words written as sums of their fields (R61, R62) -/

theorem toNat_packA (f : BitVec 4) (nnn : BitVec 12) :
    (packA f nnn).toNat = 4096 * f.toNat + nnn.toNat := by
  rw [packA, BitVec.toNat_append, ← Nat.shiftLeft_add_eq_or_of_lt nnn.isLt, Nat.shiftLeft_eq]
  omega

theorem toNat_packXI (f : BitVec 4) (x : Reg) (nn : Byte) :
    (packXI f x nn).toNat = 4096 * f.toNat + 256 * x.val + nn.toNat := by
  have hx : (BitVec.ofFin x : BitVec 4).toNat = x.val := rfl
  rw [packXI, BitVec.toNat_append, ← Nat.shiftLeft_add_eq_or_of_lt nn.isLt, BitVec.toNat_append,
    ← Nat.shiftLeft_add_eq_or_of_lt (BitVec.isLt _), Nat.shiftLeft_eq, Nat.shiftLeft_eq, hx]
  omega

theorem toNat_packNibbles (a b c d : BitVec 4) : (packNibbles a b c d).toNat =
    4096 * a.toNat + 256 * b.toNat + 16 * c.toNat + d.toNat := by
  rw [packNibbles_eq_packXI, toNat_packXI, BitVec.toNat_append,
    ← Nat.shiftLeft_add_eq_or_of_lt d.isLt, Nat.shiftLeft_eq, BitVec.val_toFin]
  omega

/-- A sum is the word of a format that is the same number. -/
theorem decodeWord_ofNat {w : Word} {k : Nat} {i : Instr} (hk : w.toNat = k)
    (h : decodeWord w = some i) : decodeWord (BitVec.ofNat 16 k) = some i := by
  rwa [← hk, BitVec.ofNat_toNat, BitVec.setWidth_eq]

/-- Settles O10: the word is a word of format XY with any low nibble, which the two families do not
read. -/
theorem familiesFiveAndNineIgnoreTheLowNibble :
    Obligations.FamiliesFiveAndNineIgnoreTheLowNibble := by
  intro x y low
  exact ⟨decodeWord_ofNat (w := packXY 0x5 x y low) (toNat_packNibbles ..)
      (by simp [packXY, decodeWord]),
    decodeWord_ofNat (w := packXY 0x9 x y low) (toNat_packNibbles ..)
      (by simp [packXY, decodeWord])⟩

/-- Settles O11: the decoder computes each of the words. -/
theorem sampleWordsDecode : Obligations.SampleWordsDecode := by
  unfold Obligations.SampleWordsDecode
  decide

/-! ## The words of each format, with the row's constant in front -/

theorem decodeWord_ofNat_encode {i : Instr} {k : Nat} (hwf : i.wellFormed = true)
    (hk : (encode i).toNat = k) : decodeWord (BitVec.ofNat 16 k) = some i :=
  decodeWord_ofNat hk (decodeWord_encode hwf)

theorem toNat_packXY_row (f low : BitVec 4) (x y : Reg) : (packXY f x y low).toNat =
    4096 * f.toNat + low.toNat + 256 * x.val + 16 * y.val := by
  rw [packXY, toNat_packNibbles]
  change 4096 * f.toNat + 256 * x.val + 16 * y.val + low.toNat = _
  omega

theorem toNat_packXI_row (f : BitVec 4) (x : Reg) (nn : Byte) :
    (packXI f x nn).toNat = 4096 * f.toNat + nn.toNat + 256 * x.val := by
  rw [toNat_packXI]
  omega

/-- Format ZN: bits 11:8 take no part, the low nibble is the count (R64). -/
theorem toNat_packNibbles_row (f a c d : BitVec 4) : (packNibbles f a c d).toNat =
    4096 * f.toNat + 16 * c.toNat + 256 * a.toNat + d.toNat := by
  rw [toNat_packNibbles]
  omega

theorem decodeWord_packNibbles_scd (low n : BitVec 4) :
    decodeWord (packNibbles 0x0 low 0xC n) = some (.scd n.toNat) := by
  rw [decodeWord_of_family0 (familyOf_packNibbles ..),
    decodeFamily0_of_fieldY_c (congrArg Fin.val (fieldY_packNibbles ..)), fieldN_packNibbles]

theorem decodeWord_packNibbles_scu (low n : BitVec 4) :
    decodeWord (packNibbles 0x0 low 0xD n) = some (.scu n.toNat) := by
  rw [decodeWord_of_family0 (familyOf_packNibbles ..),
    decodeFamily0_of_fieldY_d (congrArg Fin.val (fieldY_packNibbles ..)), fieldN_packNibbles]

/-- Format Z: bits 11:8 take no part, the low byte selects the row (R64). -/
theorem decodeWord_ofNat_lowByte {k : Nat} {i : Instr} (low : BitVec 4) (hk : k < 256)
    (h : decodeFamily0 (packXI 0x0 low.toFin (BitVec.ofNat 8 k)) = some i) :
    decodeWord (BitVec.ofNat 16 (k + 256 * low.toNat)) = some i := by
  refine decodeWord_ofNat (w := packXI 0x0 low.toFin (BitVec.ofNat 8 k)) ?_ ?_
  · rw [toNat_packXI_row, BitVec.toNat_ofNat, Nat.mod_eq_of_lt hk, BitVec.val_toFin]
    exact congrArg (· + 256 * low.toNat) (Nat.zero_add k)
  · rw [decodeWord_of_family0 (familyOf_packXI ..), h]

/-- Settles O57: each word is the word of a format with those fields, so it decodes as an encoded
instruction does; where bits 11:8 are ignored the fields that remain decide. -/
theorem fieldsStandWhereTheFormatsSay : Obligations.FieldsStandWhereTheFormatsSay := by
  intro x y n low nn nnn
  simp only [List.forall_mem_cons, List.not_mem_nil, false_imp_iff, implies_true, and_true]
  refine ⟨?formA, ?formXI, ?formXY, ?formXYN, ?formX, ?formN1, ?formZN, ?formZ⟩
  case formA =>
    and_intros <;> exact decodeWord_ofNat_encode rfl (toNat_packA ..)
  case formXI =>
    and_intros <;> exact decodeWord_ofNat_encode rfl (toNat_packXI ..)
  case formXY =>
    and_intros <;> exact decodeWord_ofNat_encode rfl (toNat_packXY_row ..)
  case formXYN =>
    exact decodeWord_ofNat (w := packXY 0xD x y (BitVec.ofFin n)) (toNat_packNibbles ..)
      (by simp [packXY, decodeWord])
  case formX =>
    and_intros <;> exact decodeWord_ofNat_encode rfl (toNat_packXI_row ..)
  case formN1 =>
    refine decodeWord_ofNat_encode rfl ?_
    rw [encode, packNibbles_eq_packXI, toNat_packXI_row]
    rfl
  case formZN =>
    exact ⟨decodeWord_ofNat (toNat_packNibbles_row ..) (decodeWord_packNibbles_scd low (.ofFin n)),
      decodeWord_ofNat (toNat_packNibbles_row ..) (decodeWord_packNibbles_scu low (.ofFin n))⟩
  case formZ =>
    and_intros <;> exact decodeWord_ofNat_lowByte low (by decide) (by simp [decodeFamily0])

end Sys2Proof
end

section
/-! PROOFS. The pair of call and return (spec/40_control_flow.md section 3): the pop answers the
word that the push stored. -/

namespace Sys2Proof.Machine

/-- A part that is the same after all need not be listed. -/
theorem ChangesOnly.of_same {s t : State} {ps qs : List Part} (h : ChangesOnly s t ps)
    (hsame : ∀ p ∈ ps, p ∉ qs → p.same s t) : ChangesOnly s t qs := by
  intro p hq
  by_cases hp : p ∈ ps
  · exact hsame p hp hq
  · exact h p hp

@[simp] theorem loadByte_setSP (s : State) (w : Word) (a : Int) :
    loadByte (s.setSP w) a = loadByte s a :=
  loadByte_eq_of_mem (setSP_mem ..) (setSP_config ..) a

/-! ## The pop after a push (R84, R85) -/

section

variable {s t : State} {w : Word}

theorem memGet_push (h : push s w = .ok t) : memGet t.mem s.sp.toNat = w.extractLsb' 0 8
    ∧ memGet t.mem (s.sp.toNat + 1) = w.extractLsb' 8 8 := by
  obtain ⟨-, -, rfl⟩ := push_cases h
  rw [setSP_mem, setMem_mem, pushedMem]
  simp

/-- Where `SP` does not wrap, the pop answers the word pushed and takes `SP` back. -/
theorem pop_push (h : push s w = .ok t) (hwrap : s.sp.toNat + 2 < 65536) (a : Word) :
    pop (t.setPC a) = .ok (w, (t.setPC a).setSP s.sp) := by
  obtain ⟨hlow, hhigh⟩ := memGet_push h
  have hsp : (t.setPC a).sp.toNat = s.sp.toNat + 2 :=
    (toNat_push_sp h).trans (Nat.mod_eq_of_lt hwrap)
  obtain ⟨-, ⟨-, hin⟩, rfl⟩ := push_cases h
  rw [pop_eq_ok (by omega) (by rw [hsp, setPC_config, setSP_config, setMem_config]; omega), hsp,
    setPC_mem, Nat.add_sub_cancel, Nat.add_sub_assoc (by decide), hhigh, hlow,
    wordOfBytes_extractLsb', setPC_sp, setSP_sp, BitVec.add_sub_cancel]

end

end Sys2Proof.Machine

namespace Sys2Proof

open Machine

/-- Settles O23: the RET pops what the CALL pushed, so the pair writes the two stack bytes alone; a
push that wraps `SP` to 0 leaves nothing to pop. -/
theorem callThenReturnComesBack : Obligations.CallThenReturnComesBack := by
  intro nnn s hin
  obtain ⟨t, hpush⟩ : ∃ t, push s s.pc = .ok t :=
    ⟨_, push_eq_ok s.pc ⟨by omega, by omega⟩ ⟨by omega, by omega⟩⟩
  refine ⟨fun hsp => ?_, fun hsp => ?_⟩
  · have hpop := pop_push hpush hsp (nnn.setWidth 16)
    obtain ⟨hparts, hmem⟩ := push_changesOnly hpush
    refine ⟨_, _, exec_call_of_push nnn hpush, exec_ret_of_pop hpop, rfl, rfl, fun a ha => ?_, ?_⟩
    · rw [loadByte_setPC, loadByte_setSP, loadByte_setPC]
      exact hmem a ha
    · have hall := ((hparts.append (setPC_changesOnly t (nnn.setWidth 16))).append
        (setSP_changesOnly _ s.sp)).append (setPC_changesOnly _ s.pc)
      exact hall.of_same (by simp [Part.same])
  · have hzero : t.sp.toNat = 0 := by rw [toNat_push_sp hpush, hsp]
    refine ⟨_, exec_call_of_push nnn hpush, exec_ret_of_pop_error (pop_eq_error.1 ?_)⟩
    rw [setPC_sp, hzero]
    decide

end Sys2Proof
end

section
/-! PROOFS. The fetch (spec/20_memory.md sections 2 and 7) and the instruction step
(spec/40_control_flow.md section 1): what is fetched, where the fetch faults, and that the step runs
what was fetched. -/

namespace Sys2Proof.Machine

/-! ## The fetch (R45, R80) -/

section

variable {s : State} {hi lo : Byte}

theorem fetch_of_loadByte (hhi : loadByte s s.pc.toNat = .ok hi)
    (hlo : loadByte s (s.pc.toNat + 1) = .ok lo) : fetch s = .ok (wordOfBytes hi lo) := by
  rw [fetch, hhi, ok_bind, hlo, ok_bind]

/-- R50: the second store is at another address and neither moves `PC`, so the next fetch reads
both. -/
theorem fetch_of_storeByte {t u : State} (hhi : storeByte s s.pc.toNat hi = .ok t)
    (hlo : storeByte t (s.pc.toNat + 1) lo = .ok u) : fetch u = .ok (wordOfBytes hi lo) := by
  have hpc : u.pc = s.pc :=
    (storeByte_changesOnly hlo .pc (by simp)).trans (storeByte_changesOnly hhi .pc (by simp))
  refine fetch_of_loadByte ?_ ?_ <;> rw [hpc]
  · exact (loadByte_storeByte_other hlo (by omega)).trans (loadByte_storeByte_same hhi)
  · exact loadByte_storeByte_same hlo

theorem fetch_error_of_size_le (h : s.config.memSize.bytes ≤ s.pc.toNat) :
    fetch s = .error (.outOfBoundsAccess s.pc.toNat) := by
  rw [fetch, loadByte_eq_error fun ⟨_, hlt⟩ => by omega, error_bind]

theorem fetch_error_of_last (h : s.pc.toNat + 1 = s.config.memSize.bytes) :
    fetch s = .error (.outOfBoundsAccess s.config.memSize.bytes) := by
  rw [fetch, loadByte_eq_ok ⟨by omega, by omega⟩, ok_bind,
    loadByte_eq_error fun ⟨_, hlt⟩ => by omega, error_bind, ← h]
  rfl

theorem instructionStep_of_decode {op : Word} {i : Instr} (hf : fetch s = .ok op)
    (h : decodeWord op = some i) : instructionStep s = exec i s.advance := by
  simp only [instructionStep, hf, h]

theorem instructionStep_of_unsupported {op : Word} (hf : fetch s = .ok op)
    (h : decodeWord op = none) : instructionStep s = .next s.advance := by
  simp only [instructionStep, hf, h]

/-! ## What a step is (R200) -/

theorem step_of_agenda_nil (h : s.agenda = []) : step s = ownStep s := by
  simp only [step, machineStep, h]

theorem step_of_agenda_cons {e : Event} {rest : List Event} (h : s.agenda = e :: rest) :
    step s = perform e { s with agenda := rest } := by
  simp only [step, machineStep, h]

/-- Where the agenda is empty, an empty agenda changes nothing. -/
theorem withAgenda_nil (h : s.agenda = []) : { s with agenda := [] } = s := by
  rw [← h]

/-- In RUNNING the core's own step is the instruction step, and so is the event that names it. -/
theorem step_of_running {rest : List Event} (hrun : s.run = .running)
    (hagenda : s.agenda = [] ∧ rest = [] ∨ s.agenda = .instruction :: rest) :
    step s = instructionStep { s with agenda := rest } := by
  rcases hagenda with ⟨hnil, rfl⟩ | hcons
  · rw [step_of_agenda_nil hnil, withAgenda_nil hnil]
    simp only [ownStep, hrun]
  · rw [step_of_agenda_cons hcons]
    exact if_pos hrun

end

end Sys2Proof.Machine

namespace Sys2Proof

open Machine

/-- Settles O6: both stores are in bounds, and the fetch reads what they wrote. -/
theorem fetchSeesStoresAtOnce : Obligations.FetchSeesStoresAtOnce := by
  intro s hi lo hin
  have hhi : storeByte s s.pc.toNat hi = .ok _ := storeByte_eq_ok hi ⟨by omega, by omega⟩
  have hlo : storeByte _ (s.pc.toNat + 1) lo = .ok _ :=
    storeByte_eq_ok (s := s.setMem (memSet s.mem (s.pc.toNat : Int).toNat hi)) lo
      ⟨by omega, by rw [setMem_config]; omega⟩
  exact ⟨_, _, hhi, hlo, (fetch_of_storeByte hhi hlo).trans (by rw [wordOfBytes_eq])⟩

/-- Settles O12: the step is the instruction step, which fetches the word of the two bytes. -/
theorem stepRunsTheDecodedInstruction : Obligations.StepRunsTheDecodedInstruction := by
  intro s rest hi lo i hrun hagenda hhi hlo hdecode
  rw [← wordOfBytes_eq] at hdecode
  rw [step_of_running hrun hagenda]
  exact instructionStep_of_decode (fetch_of_loadByte hhi hlo) hdecode

/-- Settles O13: a word that decodes matches its instruction's row, so a word of no row does not
decode. -/
theorem unsupportedWordIsANoOp : Obligations.UnsupportedWordIsANoOp := by
  intro s rest hi lo hrun hagenda hhi hlo hrows
  rw [← wordOfBytes_eq] at hrows
  have hnone : decodeWord (wordOfBytes hi lo) = none :=
    Option.eq_none_iff_forall_ne_some.2 fun i h => hrows _ i.tableRow_mem (decodeWord_matches h)
  rw [step_of_running hrun hagenda,
    instructionStep_of_unsupported (s := { s with agenda := rest }) (fetch_of_loadByte hhi hlo)
      hnone]
  refine ⟨_, rfl, rfl, hrun, rfl, ?_⟩
  exact ((withAgenda_changesOnly s rest).append (setPC_changesOnly _ _)).mono (by simp)

/-- Settles O14: the fetch reads `PC` first; the step stops with the fault of its fetch, which does
not look at the agenda. -/
theorem fetchIsBigEndianAndFaultsAtTheFirstByteOutside :
    Obligations.FetchIsBigEndianAndFaultsAtTheFirstByteOutside := by
  intro s rest
  have hstop {f : Fault} (hf : fetch s = .error f) (hrun : s.run = .running)
      (hagenda : s.agenda = [] ∧ rest = [] ∨ s.agenda = .instruction :: rest) :
      step s = .fault f := by
    rw [step_of_running hrun hagenda]
    exact instructionStep_fetch_error ((fetch_withAgenda s rest).trans hf)
  refine ⟨fun h => ?_, fun h => ?_, fun h => ?_⟩
  · rw [← wordOfBytes_eq]
    exact fetch_of_loadByte (loadByte_eq_ok ⟨by omega, by omega⟩)
      (loadByte_eq_ok ⟨by omega, by omega⟩)
  · exact ⟨fetch_error_of_size_le h, hstop (fetch_error_of_size_le h)⟩
  · exact ⟨fetch_error_of_last h, hstop (fetch_error_of_last h)⟩

end Sys2Proof
end

section
/-! PROOFS. What follows for a draw from its closed form (spec/43_display.md R159, R161,
spec/70_reset_and_hazards.md R237): a second draw undoes the first, and with no plane selected
nothing is drawn; and the display output as the colour indices of the two planes (R149). -/

namespace Sys2Proof.Machine

/-! ## The state after a draw -/

/-- The state that a draw leaves: the planes, then the flag. -/
def afterDraw (s : State) (x y : Reg) (n : Nat) : State :=
  (drawnState s x y n).setFlag (spriteHit s x y n)

section

variable {s : State} {x y : Reg} {n : Nat}

theorem getV_afterDraw_of_ne {r : Reg} (h : r ≠ vf) : (afterDraw s x y n).getV r = s.getV r := by
  rw [afterDraw, getV_setFlag, if_neg h]
  rfl

theorem getV_vf_afterDraw (hn : n < 16) :
    (afterDraw s x y n).getV vf = 1 ↔ SpriteMeets s x y n true := by
  rw [afterDraw, getV_setFlag, if_pos rfl, flagByte_eq_one_iff, spriteHit_iff hn]

theorem planeGet_afterDraw (hn : n < 16) {id : PlaneId} (hsel : PlaneSelected s id) {px py : Nat}
    (hx : px < s.mode.width) (hy : py < s.mode.height) :
    planeGet ((afterDraw s x y n).getPlane id) px py = true ↔
      ¬ (planeGet (s.getPlane id) px py = true ↔ SpriteCovers s x y n id px py) := by
  rw [afterDraw, getPlane_setFlag, (getPlane_drawnState id).1 hsel]
  exact planeGet_drawnPlane s x y n id hn hx hy

theorem getPlane_afterDraw_of_not_selected {id : PlaneId} (h : ¬ PlaneSelected s id) :
    (afterDraw s x y n).getPlane id = s.getPlane id := by
  rw [afterDraw, getPlane_setFlag, (getPlane_drawnState id).2 h]

theorem planeSelected_afterDraw (id : PlaneId) :
    PlaneSelected (afterDraw s x y n) id ↔ PlaneSelected s id := by
  cases id <;> exact Iff.rfl

/-- A draw leaves what the sprite is read from and, if neither is `VF`, its position. -/
theorem spriteCovers_afterDraw (hx : x ≠ vf) (hy : y ≠ vf) (id : PlaneId) (px py : Nat) :
    SpriteCovers (afterDraw s x y n) x y n id px py ↔ SpriteCovers s x y n id px py := by
  simp only [SpriteCovers, LandsOn, getV_afterDraw_of_ne hx, getV_afterDraw_of_ne hy]
  exact Iff.rfl

/-! ## The second draw (R161) -/

theorem planeGet_afterDraw_twice (hn : n < 16) (hvx : x ≠ vf) (hvy : y ≠ vf) (id : PlaneId)
    {px py : Nat} (hx : px < s.mode.width) (hy : py < s.mode.height) :
    planeGet ((afterDraw (afterDraw s x y n) x y n).getPlane id) px py
      = planeGet (s.getPlane id) px py := by
  by_cases hsel : PlaneSelected s id
  · have hfirst := planeGet_afterDraw (x := x) (y := y) hn hsel hx hy
    have hsecond := planeGet_afterDraw (s := afterDraw s x y n) (x := x) (y := y) hn
      ((planeSelected_afterDraw id).2 hsel) hx hy
    rw [spriteCovers_afterDraw hvx hvy] at hsecond
    rw [Bool.eq_iff_iff]
    tauto
  · rw [getPlane_afterDraw_of_not_selected (mt (planeSelected_afterDraw id).1 hsel),
      getPlane_afterDraw_of_not_selected hsel]

/-- A covered pixel is on after the first draw exactly when it was off before it. -/
theorem spriteMeets_afterDraw (hn : n < 16) (hvx : x ≠ vf) (hvy : y ≠ vf) :
    SpriteMeets (afterDraw s x y n) x y n true ↔ SpriteMeets s x y n false := by
  refine exists_congr fun id => exists_congr fun px => exists_congr fun py => ?_
  rw [planeSelected_afterDraw, spriteCovers_afterDraw hvx hvy]
  refine and_congr_right fun hsel => and_congr_right fun hx => and_congr_right fun hy =>
    and_congr_right fun hcov => ?_
  rw [planeGet_afterDraw hn hsel hx hy, ← Bool.not_eq_true]
  tauto

/-! ## No plane selected (R237) -/

theorem mapSelected_of_no_plane (h : selectedPlanes s.plane = []) (f : Plane → Plane) :
    mapSelected s f = s := by
  rw [mapSelected, h]
  rfl

end

/-! ## The display output (R149) -/

theorem colourAt_eq (s : State) (px py : Nat) : colourAt s px py =
    (if planeGet (s.getPlane .one) px py then 1 else 0)
      + 2 * (if planeGet (s.getPlane .two) px py then 1 else 0) := by
  rw [colourAt, Bool.toNat, Bool.toNat, Bool.cond_eq_ite, Bool.cond_eq_ite]
  rfl

theorem colourAt_lt (s : State) (px py : Nat) : colourAt s px py < 4 := by
  rw [colourAt_eq]
  split <;> split <;> decide

theorem displayOut_getElem? (s : State) {py : Nat} (h : py < s.mode.height) :
    (displayOut s).2[py]? = some ((List.range s.mode.width).map fun px => colourAt s px py) := by
  rw [displayOut, List.getElem?_map, List.getElem?_range h]
  rfl

end Sys2Proof.Machine

namespace Sys2Proof

open Machine

/-- Settles O38: offsets below 16 stay different on a screen of at least 16 by 16 pixels. -/
theorem spriteNeverOverlapsItself : Obligations.SpriteNeverOverlapsItself := by
  intro clip m vx vy rowBytes bytes hrow hlen
  exact ⟨landedPixels_nodup clip m _ _ hrow hlen, landedPixels_inside clip m _ _ rowBytes bytes⟩

/-- Settles O37: the second draw covers the same pixels, so it inverts them back; it collides where
the first one turned a pixel on. -/
theorem drawingTwiceRestoresTheScreen : Obligations.DrawingTwiceRestoresTheScreen := by
  intro x y n s hx hy hin
  refine ⟨afterDraw s x y n, afterDraw (afterDraw s x y n) x y n, exec_drw_ok hin,
    exec_drw_ok (s := afterDraw s x y n) hin, fun id px py => ?_, getV_vf_afterDraw n.isLt, ?_⟩
  · exact planeGet_afterDraw_twice n.isLt hx hy id
  · exact (getV_vf_afterDraw n.isLt).trans (spriteMeets_afterDraw n.isLt hx hy)

/-- Settles O39: an operation on no plane is the identity, and the draw reads its bytes once. -/
theorem noPlaneSelectedDrawsNothing : Obligations.NoPlaneSelectedDrawsNothing := by
  intro s n x y hplane
  have hsel : selectedPlanes s.plane = [] := by rw [hplane]; rfl
  refine ⟨?_, fun hin => ?_, fun hlen hout => ?_⟩
  · simp only [List.forall_mem_cons, List.not_mem_nil, false_imp_iff, implies_true, and_true]
    and_intros <;> exact congrArg Host.Outcome.next (mapSelected_of_no_plane hsel _)
  · refine ⟨s.setFlag false, ?_, setFlag_p1 s _, setFlag_p2 s _, ?_, setFlag_changesOnly s _⟩
    · rw [exec_drw_of_no_plane hsel, loadBytes_ok s _ _ (.inr hin)]
      rfl
    · rw [getV_setFlag, if_pos rfl]
      rfl
  · rw [exec_drw_of_no_plane hsel, loadBytes_error s _ _ hlen hout]
    exact ⟨_, rfl⟩

/-- Settles O59: the array is a map over the rows and columns of the mode's size, of `colourAt`. -/
theorem displayOutputIsTheColourIndices : Obligations.DisplayOutputIsTheColourIndices := by
  intro s
  refine ⟨rfl, ?_, fun row hrow => ?_, fun px py hx hy => ?_⟩
  · rw [displayOut, List.length_map, List.length_range]
  · obtain ⟨py, -, rfl⟩ := List.mem_map.1 hrow
    refine ⟨by rw [List.length_map, List.length_range], fun c hc => ?_⟩
    obtain ⟨px, -, rfl⟩ := List.mem_map.1 hc
    exact colourAt_lt s px py
  · refine ⟨_, displayOut_getElem? s hy, ?_⟩
    rw [List.getElem?_map, List.getElem?_range hx]
    exact congrArg some (colourAt_eq s px py)

end Sys2Proof
end

section
/-! PROOFS. Facts of all 46 instructions at once: what each may write (spec/10_state.md sections 1
and 4), which can fault (spec/60_exceptions.md R192) and which change `RUN` (R28, R206). -/

namespace Sys2Proof.Machine

/-! ## What an instruction writes -/

/-- Any change of the timers, the pitch, the target of the key wait and the counter `fresh`. -/
theorem smallRegisters_changesOnly (s : State) (dt st pitch : Byte) (keyreg : Reg) (fresh : Nat) :
    ChangesOnly s { s with dt, st, pitch, keyreg, fresh } [.dt, .st, .pitch, .keyreg, .fresh] := by
  intro p hp
  cases p with
  | dt | st | pitch | keyreg | fresh => simp at hp
  | mem => exact loadByte_eq_of_mem rfl rfl
  | _ => simp only [Part.same, State.getV]

theorem withDt_changesOnly (s : State) (b : Byte) : ChangesOnly s { s with dt := b } [.dt] :=
  (smallRegisters_changesOnly s b s.st s.pitch s.keyreg s.fresh).of_same (by simp [Part.same])

theorem withSt_changesOnly (s : State) (b : Byte) : ChangesOnly s { s with st := b } [.st] :=
  (smallRegisters_changesOnly s s.dt b s.pitch s.keyreg s.fresh).of_same (by simp [Part.same])

theorem withPitch_changesOnly (s : State) (b : Byte) :
    ChangesOnly s { s with pitch := b } [.pitch] :=
  (smallRegisters_changesOnly s s.dt s.st b s.keyreg s.fresh).of_same (by simp [Part.same])

theorem withKeyreg_changesOnly (s : State) (x : Reg) :
    ChangesOnly s { s with keyreg := x } [.keyreg] :=
  (smallRegisters_changesOnly s s.dt s.st s.pitch x s.fresh).of_same (by simp [Part.same])

theorem withFresh_changesOnly (s : State) (n : Nat) :
    ChangesOnly s { s with fresh := n } [.fresh] :=
  (smallRegisters_changesOnly s s.dt s.st s.pitch s.keyreg n).of_same (by simp [Part.same])

/-- Entering the key wait (R173). -/
theorem keyWait_changesOnly (s : State) (x : Reg) (r : RunState) :
    ChangesOnly s ({ s with keyreg := x }.setRun r) [.keyreg, .run] :=
  (withKeyreg_changesOnly s x).append (setRun_changesOnly _ r)

/-- With the logic quirk or without it, no part but `V[x]` and `VF`. -/
theorem logicResult_changesOnly_flag (s : State) (x : Reg) (b : Byte) :
    ChangesOnly s (logicResult s x b) [.v x, .v vf] := by
  refine (logicResult_changesOnly s x b).mono fun p hp => ?_
  split at hp
  · exact hp
  · exact List.mem_cons.2 (.inl (List.mem_singleton.1 hp))

theorem execStoreRpl_cases {x : Reg} {s t : State} (h : execStoreRpl x s = .next t) :
    t = s.setLowRpl x s.getV :=
  (Host.Outcome.next.inj h).symm

theorem execLoadRpl_cases {x : Reg} {s t : State} (h : execLoadRpl x s = .next t) :
    t = s.setLowV x fun r => s.rpl[r] :=
  (Host.Outcome.next.inj h).symm

theorem execLoadRegs_changesOnly {x : Reg} {s t : State} (h : execLoadRegs x s = .next t) :
    ChangesOnly s t (.i :: lowVParts x) := by
  obtain ⟨bytes, -, rfl⟩ := execLoadRegs_cases h
  refine ((setLowV_changesOnly _ _ _).append (setI_changesOnly _ _)).mono fun p hp => ?_
  exact List.mem_cons.2 ((List.mem_append.1 hp).symm.imp_left List.mem_singleton.1)

theorem execDrw_changesOnly {x y : Reg} {n : Nat} {s t : State} (h : execDrw x y n s = .next t) :
    ChangesOnly s t [.v vf, .p1, .p2] := by
  obtain ⟨p₁, p₂, f, rfl, -⟩ := execDrw_cases h
  exact ((planes_changesOnly s p₁ p₂).append (setFlag_changesOnly _ f)).mono (by simp)

theorem execStoreRegs_changesOnly {x : Reg} {s t : State} (h : execStoreRegs x s = .next t) :
    ChangesOnly s t [.mem, .i] := by
  obtain ⟨u, hu, rfl⟩ := execStoreRegs_cases h
  exact (storeBytes_changesOnly hu).1.append (setI_changesOnly _ _)

theorem execCall_changesOnly {nnn : BitVec 12} {s t : State} (h : execCall nnn s = .next t) :
    ChangesOnly s t [.mem, .pc, .sp] := by
  obtain ⟨u, hu, rfl⟩ := execCall_cases h
  exact ((push_changesOnly hu).1.append (setPC_changesOnly _ _)).mono (by simp)

theorem execRet_changesOnly {s t : State} (h : execRet s = .next t) :
    ChangesOnly s t [.pc, .sp] := by
  obtain ⟨w, -, rfl⟩ := execRet_cases h
  exact ((setSP_changesOnly _ _).append (setPC_changesOnly _ _)).mono (by simp)

/-- Each instruction writes by one of the shared operations; the frame is that operation's. -/
theorem exec_changesOnly {i : Instr} {s t : State} (h : exec i s = .next t) :
    ChangesOnly s t i.writes := by
  cases i with
  | scd | scu | cls | scr | scl => cases h; exact mapSelected_changesOnly _ _
  | low | high => cases h; exact setMode_changesOnly _ _
  | plane => cases h; exact withPlaneMask_changesOnly _ _
  | drw => exact execDrw_changesOnly h
  | exit => cases h; exact setRun_changesOnly _ _
  | jp | jpV0 => cases h; exact setPC_changesOnly _ _
  | call => exact execCall_changesOnly h
  | ret => exact execRet_changesOnly h
  | seImm | sneImm | seReg | sneReg | skp | sknp => cases h; exact skipIf_changesOnly _ _
  | ldImm | addImm | ldReg | ldVxDt => cases h; exact setV_changesOnly _ _ _
  | orReg | andReg | xorReg => cases h; exact logicResult_changesOnly_flag _ _ _
  | addReg | subReg | shrReg | subnReg | shlReg => cases h; exact resultWithFlag_changesOnly _ _ _ _
  | rnd =>
    cases h
    exact ((drawByte_changesOnly s).append (setV_changesOnly _ _ _)).mono (by simp [Instr.writes])
  | ldVxK => cases h; exact keyWait_changesOnly _ _ _
  | ldDtVx => cases h; exact withDt_changesOnly _ _
  | ldStVx => cases h; exact withSt_changesOnly _ _
  | pitch => cases h; exact withPitch_changesOnly _ _
  | ldI | addI | ldF | ldHf => cases h; exact setI_changesOnly _ _
  | ldB => exact (storeBytes_changesOnly (execLdB_cases h)).1
  | storeRegs => exact execStoreRegs_changesOnly h
  | loadRegs => exact execLoadRegs_changesOnly h
  | storeRpl => exact execStoreRpl_cases h ▸ setLowRpl_changesOnly _ _ _
  | loadRpl => exact execLoadRpl_cases h ▸ setLowV_changesOnly _ _ _

/-- No instruction writes the configuration (R23). -/
theorem exec_config {i : Instr} {s t : State} (h : exec i s = .next t) : t.config = s.config :=
  exec_changesOnly h .config (by cases i <;> simp [Instr.writes, lowVParts, lowRplParts])

theorem exec_run {i : Instr} {s t : State} (h : exec i s = .next t) :
    t.run = s.run ∨ (∃ x, i = .ldVxK x ∧ t.run = .awaitingKey)
      ∨ (i = .exit ∧ t.run = .stopped) := by
  by_cases hrun : Part.run ∈ i.writes
  · cases i with
    | exit => cases h; exact .inr (.inr ⟨rfl, rfl⟩)
    | ldVxK x => cases h; exact .inr (.inl ⟨x, rfl, rfl⟩)
    | _ => simp [Instr.writes, lowVParts, lowRplParts] at hrun
  · exact .inl (exec_changesOnly h .run hrun)

/-! ## What an instruction can fault with -/

theorem push_error_cases {s : State} {w : Word} {f : Fault} (h : push s w = .error f) :
    ∃ a : Int, f = .outOfBoundsAccess a ∧ ¬ s.inBounds a := by
  by_cases hlow : s.inBounds s.sp.toNat
  · by_cases hhigh : s.inBounds (s.sp.toNat + 1)
    · cases h.symm.trans (push_eq_ok w hlow hhigh)
    · exact ⟨_, Except.error.inj (h.symm.trans ((push_eq_error w).2 hlow hhigh)), hhigh⟩
  · exact ⟨_, Except.error.inj (h.symm.trans ((push_eq_error w).1 hlow)), hlow⟩

theorem pop_error_cases {s : State} {f : Fault} (h : pop s = .error f) :
    ∃ a : Int, f = .outOfBoundsAccess a ∧ ¬ s.inBounds a := by
  by_cases hlow : s.sp.toNat < 2
  · exact ⟨-1, Except.error.inj (h.symm.trans (pop_eq_error.1 hlow)), by simp [State.inBounds]⟩
  · by_cases hhigh : s.config.memSize.bytes < s.sp.toNat
    · exact ⟨_, Except.error.inj (h.symm.trans (pop_eq_error.2 hhigh)), fun ⟨_, hlt⟩ => by omega⟩
    · cases h.symm.trans (pop_eq_ok (by omega) (by omega))

/-- What is done after an access that answers a value adds no fault of its own. -/
theorem bind_ok_error_cases {α : Type} {r : Except Fault α} {g : α → State} {f : Fault}
    (h : (do let a ← r; .ok (g a) : Except Fault State) = .error f) : r = .error f := by
  cases r with
  | error e => exact congrArg _ (Except.error.inj h)
  | ok a => cases h

theorem execRet_fault_cases {s : State} {f : Fault} (h : execRet s = .fault f) :
    ∃ a : Int, f = .outOfBoundsAccess a ∧ ¬ s.inBounds a := by
  rw [execRet, finish_eq_fault] at h
  exact pop_error_cases (bind_ok_error_cases (g := fun r => r.2.setPC r.1) h)

theorem execDrw_fault_cases {x y : Reg} {n : Nat} {s : State} {f : Fault}
    (h : execDrw x y n s = .fault f) : ∃ a : Int, f = .outOfBoundsAccess a ∧ ¬ s.inBounds a := by
  rw [execDrw, finish_eq_fault] at h
  split at h
  · exact loadBytes_error_cases (bind_ok_error_cases h)
  · exact drawPlanes_error_cases (bind_ok_error_cases (g := fun r => r.1.setFlag r.2) h)

/-- An instruction that accesses memory is `finish` of its accesses, so it completes or faults, and
a fault is at an address outside memory (R191, R192). -/
theorem exec_fault_cases {i : Instr} {s : State} {f : Fault} (h : exec i s = .fault f) :
    i.accessesMemory = true ∧ ∃ a : Int, f = .outOfBoundsAccess a ∧ ¬ s.inBounds a := by
  cases i with
  | call => exact ⟨rfl, push_error_cases (bind_ok_error_cases (finish_eq_fault.1 h))⟩
  | ret => exact ⟨rfl, execRet_fault_cases h⟩
  | drw => exact ⟨rfl, execDrw_fault_cases h⟩
  | ldB => exact ⟨rfl, storeBytes_error_cases (finish_eq_fault.1 h)⟩
  | storeRegs => exact ⟨rfl, storeBytes_error_cases (bind_ok_error_cases (finish_eq_fault.1 h))⟩
  | loadRegs => exact ⟨rfl, loadBytes_error_cases (bind_ok_error_cases (finish_eq_fault.1 h))⟩
  | _ => cases h

theorem exec_ne_refused (i : Instr) (s : State) (r : Refusal) : exec i s ≠ .refused r := by
  cases i with
  | call | ret | drw | ldB | storeRegs | loadRegs => exact finish_ne_refused
  | _ => exact fun h => by cases h

end Sys2Proof.Machine

namespace Sys2Proof

open Machine

/-- Settles O53: every instruction stays in the frame of the operation it writes by. -/
theorem instructionsChangeOnlyWhatTheyWrite : Obligations.InstructionsChangeOnlyWhatTheyWrite :=
  fun _ _ _ h => exec_changesOnly h

/-- Settles O54: an outcome that is no fault and no refusal is a next state, and a fault comes from
one of the six accesses. -/
theorem onlyMemoryInstructionsFault : Obligations.OnlyMemoryInstructionsFault := by
  intro i s
  refine ⟨fun hacc => ?_, exec_ne_refused i s, fun f h => exec_fault_cases h⟩
  cases h : exec i s with
  | next t => exact ⟨t, rfl⟩
  | fault f => exact absurd (exec_fault_cases h).1 (ne_true_of_eq_false hacc)
  | refused r => exact absurd h (exec_ne_refused i s r)

/-- Settles O56: `RUN` is written by `setRun` in EXIT and LD Vx, K and is in no other instruction's
list. -/
theorem runStateChangesOnlyByKeyWaitAndExit : Obligations.RunStateChangesOnlyByKeyWaitAndExit :=
  fun _ _ _ h => exec_run h

end Sys2Proof
end

section
/-! PROOFS. The quirk flags (spec/70_reset_and_hazards.md R238): every operation gives the same with
a flag changed that it does not read, and no instruction reads a flag but its own. -/

namespace Sys2Proof.Machine

/-! ## Each flag at the one place that reads it -/

section

variable {q : Quirk} (b : Bool) (s : State)

theorem shiftSource_withQuirk (h : q ≠ .shift) (x y : Reg) :
    shiftSource (s.withQuirk q b) x y = shiftSource s x y := by
  cases q with
  | shift => exact absurd rfl h
  | _ => rfl

theorem logicResult_withQuirk (h : q ≠ .logic) (x : Reg) (r : Byte) :
    logicResult (s.withQuirk q b) x r = (logicResult s x r).withQuirk q b := by
  have hquirk : (s.withQuirk q b).config.quirks.logic = s.config.quirks.logic := by
    cases q with
    | logic => exact absurd rfl h
    | _ => rfl
  cases hlogic : s.config.quirks.logic with
  | false =>
    rw [logicResult_of_no_quirk r (hquirk.trans hlogic), logicResult_of_no_quirk r hlogic]
    rfl
  | true =>
    rw [logicResult_of_quirk r (hquirk.trans hlogic), logicResult_of_quirk r hlogic]
    rfl

theorem jumpOffsetReg_withQuirk (h : q ≠ .jump) (nnn : BitVec 12) :
    jumpOffsetReg (s.withQuirk q b) nnn = jumpOffsetReg s nnn := by
  cases q with
  | jump => exact absurd rfl h
  | _ => rfl

theorem indexAfter_withQuirk (h : q ≠ .index) (x : Reg) :
    indexAfter (s.withQuirk q b) x = indexAfter s x := by
  cases q with
  | index => exact absurd rfl h
  | _ => rfl

theorem clip_withQuirk (h : q ≠ .clip) :
    (s.withQuirk q b).config.quirks.clip = s.config.quirks.clip := by
  cases q with
  | clip => exact absurd rfl h
  | _ => rfl

end

/-! ## The operations of the instructions -/

section

variable (q : Quirk) (b : Bool) (s : State)

theorem skipIf_withQuirk (c : Bool) : skipIf c (s.withQuirk q b) = (skipIf c s).withQuirk q b := by
  cases c <;> rfl

theorem mapSelected_withQuirk (f : Plane → Plane) :
    mapSelected (s.withQuirk q b) f = (mapSelected s f).withQuirk q b := by
  rw [mapSelected_eq, mapSelected_eq]
  rfl

theorem setPlane_withQuirk (id : PlaneId) (p : Plane) :
    (s.withQuirk q b).setPlane id p = (s.setPlane id p).withQuirk q b := by
  cases id <;> rfl

theorem getPlane_withQuirk (id : PlaneId) : (s.withQuirk q b).getPlane id = s.getPlane id := by
  cases id <;> rfl

theorem loadByte_withQuirk (a : Int) : loadByte (s.withQuirk q b) a = loadByte s a :=
  loadByte_congr rfl a rfl

theorem loadBytes_withQuirk (a : Int) (n : Nat) :
    loadBytes (s.withQuirk q b) a n = loadBytes s a n := by
  induction n generalizing a with
  | zero => rfl
  | succ n ih => rw [loadBytes, loadBytes, loadByte_withQuirk, ih]

theorem storeByte_withQuirk (a : Int) (v : Byte) :
    storeByte (s.withQuirk q b) a v = (storeByte s a v).map (·.withQuirk q b) := by
  by_cases h : s.inBounds a
  · rw [storeByte_eq_ok v h, storeByte_eq_ok (s := s.withQuirk q b) v h]; rfl
  · rw [storeByte_eq_error v h, storeByte_eq_error (s := s.withQuirk q b) v h]; rfl

theorem storeBytes_withQuirk (a : Int) (bs : List Byte) :
    storeBytes (s.withQuirk q b) a bs = (storeBytes s a bs).map (·.withQuirk q b) := by
  induction bs generalizing s a with
  | nil => rfl
  | cons v bs ih =>
    rw [storeBytes, storeBytes, storeByte_withQuirk]
    cases storeByte s a v with
    | error f => rfl
    | ok u => exact ih u (a + 1)

theorem push_withQuirk (w : Word) :
    push (s.withQuirk q b) w = (push s w).map (·.withQuirk q b) := by
  by_cases hlow : s.inBounds s.sp.toNat
  · by_cases hhigh : s.inBounds (s.sp.toNat + 1)
    · rw [push_eq_ok w hlow hhigh, push_eq_ok (s := s.withQuirk q b) w hlow hhigh]; rfl
    · rw [(push_eq_error w).2 hlow hhigh, (push_eq_error (s := s.withQuirk q b) w).2 hlow hhigh]
      rfl
  · rw [(push_eq_error w).1 hlow, (push_eq_error (s := s.withQuirk q b) w).1 hlow]; rfl

theorem pop_withQuirk :
    pop (s.withQuirk q b) = (pop s).map fun r => (r.1, r.2.withQuirk q b) := by
  by_cases hlow : s.sp.toNat < 2
  · rw [pop_eq_error.1 hlow, pop_eq_error (s := s.withQuirk q b).1 hlow]; rfl
  · by_cases hhigh : s.config.memSize.bytes < s.sp.toNat
    · rw [pop_eq_error.2 hhigh, pop_eq_error (s := s.withQuirk q b).2 hhigh]; rfl
    · have hin := pop_eq_ok (Nat.le_of_not_lt hlow) (Nat.le_of_not_lt hhigh)
      rw [hin, pop_eq_ok (s := s.withQuirk q b) (Nat.le_of_not_lt hlow) (Nat.le_of_not_lt hhigh)]
      rfl

theorem drawPlanes_withQuirk {q : Quirk} (hq : q ≠ .clip) (vx vy rowBytes len : Nat) (base : Int)
    (hit : Bool) (ids : List PlaneId) :
    drawPlanes (s.withQuirk q b) vx vy rowBytes len base hit ids
      = (drawPlanes s vx vy rowBytes len base hit ids).map fun r => (r.1.withQuirk q b, r.2) := by
  induction ids generalizing s base hit with
  | nil => rfl
  | cons id ids ih =>
    rw [drawPlanes, drawPlanes, loadBytes_withQuirk, clip_withQuirk b s hq, getPlane_withQuirk]
    cases loadBytes s base len with
    | error f => rfl
    | ok bytes =>
      rw [ok_bind, ok_bind]
      dsimp only
      rw [setPlane_withQuirk]
      exact ih ..

end

/-! ## The instructions -/

/-- Accesses that go the same way with the flag changed end in outcomes that differ by the flag. -/
theorem finish_map (g : State → State) (r : Except Fault State) :
    finish (r.map g) = mapNext g (finish r) := by
  cases r <;> rfl

/-- The same for reads alone, and an update `g` after them. -/
theorem finish_bind_congr {α : Type} {r : Except Fault α} {f : State → State} {g g' : α → State}
    (hg : ∀ a, g' a = f (g a)) :
    finish (do let a ← r; .ok (g' a)) = mapNext f (finish (do let a ← r; .ok (g a))) := by
  cases r with
  | error e => rfl
  | ok a => exact congrArg Host.Outcome.next (hg a)

/-- The same for accesses that answer a state `φ` changes, and an update `g` after them. -/
theorem finish_bind_map {α : Type} {r : Except Fault α} {φ : α → α} {f : State → State}
    {g g' : α → State} (hg : ∀ a, g' (φ a) = f (g a)) :
    finish (do let a ← r.map φ; .ok (g' a)) = mapNext f (finish (do let a ← r; .ok (g a))) := by
  cases r with
  | error e => rfl
  | ok a => exact congrArg Host.Outcome.next (hg a)

theorem execRet_withQuirk (s : State) (q : Quirk) (b : Bool) :
    execRet (s.withQuirk q b) = mapNext (·.withQuirk q b) (execRet s) := by
  rw [execRet, execRet, pop_withQuirk]
  exact finish_bind_map (α := Word × State) (g := fun r => r.2.setPC r.1)
    (g' := fun r => r.2.setPC r.1) fun _ => rfl

theorem execCall_withQuirk (nnn : BitVec 12) (s : State) (q : Quirk) (b : Bool) :
    execCall nnn (s.withQuirk q b) = mapNext (·.withQuirk q b) (execCall nnn s) := by
  rw [execCall, execCall, push_withQuirk]
  exact finish_bind_map fun _ => rfl

theorem execLdB_withQuirk (x : Reg) (s : State) (q : Quirk) (b : Bool) :
    execLdB x (s.withQuirk q b) = mapNext (·.withQuirk q b) (execLdB x s) := by
  rw [execLdB, execLdB, storeBytes_withQuirk]
  exact finish_map _ _

theorem execStoreRegs_withQuirk (x : Reg) (s : State) {q : Quirk} (b : Bool) (hq : q ≠ .index) :
    execStoreRegs x (s.withQuirk q b) = mapNext (·.withQuirk q b) (execStoreRegs x s) := by
  rw [execStoreRegs, execStoreRegs, storeBytes_withQuirk, indexAfter_withQuirk b s hq]
  exact finish_bind_map fun _ => rfl

theorem execLoadRegs_withQuirk (x : Reg) (s : State) {q : Quirk} (b : Bool) (hq : q ≠ .index) :
    execLoadRegs x (s.withQuirk q b) = mapNext (·.withQuirk q b) (execLoadRegs x s) := by
  rw [execLoadRegs, execLoadRegs, loadBytes_withQuirk, indexAfter_withQuirk b s hq]
  exact finish_bind_congr fun _ => rfl

theorem execDrw_withQuirk (x y : Reg) (n : Nat) (s : State) {q : Quirk} (b : Bool)
    (hq : q ≠ .clip) :
    execDrw x y n (s.withQuirk q b) = mapNext (·.withQuirk q b) (execDrw x y n s) := by
  have hplane : (s.withQuirk q b).plane = s.plane := rfl
  rw [execDrw, execDrw, hplane]
  split
  · rw [loadBytes_withQuirk]
    exact finish_bind_congr fun _ => rfl
  · rw [drawPlanes_withQuirk b s hq]
    exact finish_bind_map (α := State × Bool) (g := fun r => r.1.setFlag r.2)
      (g' := fun r => r.1.setFlag r.2) fun _ => rfl

/-- R238: no instruction reads a flag but its own. -/
theorem exec_withQuirk (i : Instr) (s : State) (q : Quirk) (b : Bool) (h : i.quirk ≠ some q) :
    exec i (s.withQuirk q b) = mapNext (·.withQuirk q b) (exec i s) := by
  have hother {p : Quirk} (hp : i.quirk = some p) : q ≠ p :=
    fun e => h (hp.trans (congrArg _ e.symm))
  cases i with
  | scd | scu | cls | scr | scl => exact congrArg _ (mapSelected_withQuirk q b s _)
  | seImm | sneImm | seReg | sneReg | skp | sknp => exact congrArg _ (skipIf_withQuirk q b s _)
  | orReg | andReg | xorReg => exact congrArg _ (logicResult_withQuirk b s (hother rfl) _ _)
  | shrReg => rw [exec_shrReg, exec_shrReg, shiftSource_withQuirk b s (hother rfl)]; rfl
  | shlReg => rw [exec_shlReg, exec_shlReg, shiftSource_withQuirk b s (hother rfl)]; rfl
  | jpV0 => rw [exec_jpV0, exec_jpV0, jumpOffsetReg_withQuirk b s (hother rfl)]; rfl
  | call => exact execCall_withQuirk _ s q b
  | ret => exact execRet_withQuirk s q b
  | drw => exact execDrw_withQuirk _ _ _ s b (hother rfl)
  | ldB => exact execLdB_withQuirk _ s q b
  | storeRegs => exact execStoreRegs_withQuirk _ s b (hother rfl)
  | loadRegs => exact execLoadRegs_withQuirk _ s b (hother rfl)
  | _ => rfl

end Sys2Proof.Machine

namespace Sys2Proof

open Machine

/-- Settles O55: `exec_withQuirk`. -/
theorem quirksAreIndependent : Obligations.QuirksAreIndependent := exec_withQuirk

end Sys2Proof
end

section
/-! PROOFS. The steps of the machine (spec/60_exceptions.md R200): every step performs one event,
and what every event keeps: the invariant (spec/10_state.md section 7, spec/20_memory.md section 1)
and the configuration (R23). -/

namespace Sys2Proof.Machine

/-! ## What a step can do -/

/-- An instruction step with a next state: the fetch, and the instruction of the word if there is
one (R68, R80). -/
theorem instructionStep_cases {s t : State} (h : instructionStep s = .next t) :
    t = s.advance ∨ ∃ i, exec i s.advance = .next t := by
  unfold instructionStep at h
  split at h
  · cases h
  · split at h
    · exact .inr ⟨_, h⟩
    · cases h; exact .inl rfl

/-- A key poll: nothing with no key down, else the code of a key that is down goes into `V[KEYREG]`
and the core runs on (R174). -/
theorem keyPollStep_cases (s : State) : ((∀ k : Reg, s.keys[k] = false) ∧ keyPollStep s = s)
    ∨ ∃ k : Reg, s.keys[k] = true ∧ keyPollStep s =
      { s.setV s.keyreg (BitVec.ofNat 8 k.val) with fresh := s.fresh + 1 }.setRun .running := by
  obtain ⟨hnone, hdown⟩ := currentKey_cases s.keys s.fresh
  cases hkey : currentKey s.keys s.fresh with
  | none => exact .inl ⟨hnone.1 hkey, by rw [keyPollStep, hkey]⟩
  | some k => exact .inr ⟨k, hdown k hkey, by rw [keyPollStep, hkey]⟩

theorem hostLoad_cases {s t : State} {a : Nat} {bytes : List Byte}
    (h : hostLoad a bytes s = .next t) : s.run.alive = false ∧ storeBytes s a bytes = .ok t := by
  unfold hostLoad at h
  split at h
  · cases h
  · rename_i halive
    split at h
    · rename_i u hu
      cases h
      exact ⟨Bool.eq_false_iff.2 halive, hu⟩
    · cases h

theorem ownStep_eq_perform (s : State) :
    ownStep s = perform .instruction s ∨ ownStep s = perform .keyPoll s := by
  cases h : s.run with
  | awaitingKey => right; simp only [ownStep, perform, h, if_true]
  | running => left; simp only [ownStep, perform, h, if_true]
  | stopped | fatal => left; simp [ownStep, perform, h]

/-- A step performs the event that the agenda names, or the core's own step, which is one of two
events (R200). -/
theorem step_eq_perform (s : State) : ∃ e rest, step s = perform e { s with agenda := rest }
    ∧ (s.agenda = e :: rest
      ∨ s.agenda = [] ∧ rest = [] ∧ (e = .instruction ∨ e = .keyPoll)) := by
  cases h : s.agenda with
  | cons e rest => exact ⟨e, rest, step_of_agenda_cons h, .inl rfl⟩
  | nil =>
    have hs := withAgenda_nil h
    have hstep := step_of_agenda_nil h
    rcases ownStep_eq_perform s with hown | hown
    · exact ⟨.instruction, [], by rw [hs, hstep, hown], .inr ⟨rfl, rfl, .inl rfl⟩⟩
    · exact ⟨.keyPoll, [], by rw [hs, hstep, hown], .inr ⟨rfl, rfl, .inr rfl⟩⟩

/-- The parts that the invariant speaks of are the same. -/
def SameStorage (s t : State) : Prop :=
  t.config = s.config ∧ t.mem = s.mem ∧ t.mode = s.mode ∧ t.p1 = s.p1 ∧ t.p2 = s.p2

theorem SameStorage.refl (s : State) : SameStorage s s := ⟨rfl, rfl, rfl, rfl, rfl⟩

theorem keyPollStep_sameStorage (s : State) : SameStorage s (keyPollStep s) := by
  rcases keyPollStep_cases s with ⟨-, h⟩ | ⟨k, -, h⟩ <;> rw [h]
  · exact SameStorage.refl s
  · exact ⟨rfl, rfl, rfl, rfl, rfl⟩

theorem tickStep_sameStorage (s : State) : SameStorage s (tickStep s) := by
  rw [tickStep]
  split <;> exact ⟨rfl, rfl, rfl, rfl, rfl⟩

theorem killSignal_sameStorage (s : State) : SameStorage s (killSignal s) := by
  rw [killSignal]
  split <;> exact ⟨rfl, rfl, rfl, rfl, rfl⟩

/-- What an event can do to configuration, memory and planes: an instruction, a reset and a load of
the host may write them, no other event does. -/
theorem perform_cases {e : Event} {s t : State} (h : perform e s = .next t) :
    instructionStep s = .next t ∨ SameStorage s t ∨ (∃ q, e = .reset q ∧ t = resetSignal q s)
      ∨ ∃ (a : Nat) (bytes : List Byte), storeBytes s a bytes = .ok t := by
  cases e with
  | instruction =>
    rw [perform] at h
    split at h
    · exact .inl h
    · cases h; exact .inr (.inl (SameStorage.refl s))
  | keyPoll =>
    rw [perform] at h
    split at h <;> cases h
    · exact .inr (.inl (keyPollStep_sameStorage s))
    · exact .inr (.inl (SameStorage.refl s))
  | tick => cases h; exact .inr (.inl (tickStep_sameStorage s))
  | keyLevel k down => cases h; exact .inr (.inl ⟨rfl, rfl, rfl, rfl, rfl⟩)
  | kill => cases h; exact .inr (.inl (killSignal_sameStorage s))
  | reset q => cases h; exact .inr (.inr (.inl ⟨q, rfl, rfl⟩))
  | load a bytes => exact .inr (.inr (.inr ⟨a, bytes, (hostLoad_cases h).2⟩))

/-! ## The configuration (R23) -/

theorem instructionStep_config {s t : State} (h : instructionStep s = .next t) :
    t.config = s.config := by
  rcases instructionStep_cases h with rfl | ⟨i, hi⟩
  · exact advance_config s
  · exact (exec_config hi).trans (advance_config s)

/-- The reset event keeps the configuration but for the quirks it brings (R222), every other event
keeps all of it. -/
theorem perform_config {e : Event} {s t : State} (h : perform e s = .next t) :
    t.config.memSize = s.config.memSize ∧ t.config.bigFontBase = s.config.bigFontBase
      ∧ ((∀ q, e ≠ .reset (some q)) → t.config = s.config) := by
  have hall (hconfig : t.config = s.config) : t.config.memSize = s.config.memSize
      ∧ t.config.bigFontBase = s.config.bigFontBase
      ∧ ((∀ q, e ≠ .reset (some q)) → t.config = s.config) :=
    ⟨congrArg _ hconfig, congrArg _ hconfig, fun _ => hconfig⟩
  rcases perform_cases h with hstep | hsame | ⟨q, rfl, rfl⟩ | ⟨a, bytes, hload⟩
  · exact hall (instructionStep_config hstep)
  · exact hall hsame.1
  · refine ⟨rfl, rfl, fun hq => ?_⟩
    cases q with
    | none => rfl
    | some q => exact absurd rfl (hq q)
  · obtain ⟨m, rfl, -⟩ := storeBytes_cases hload
    exact hall (setMem_config s m)

/-! ## The invariant -/

theorem exec_memory_wf {i : Instr} {s t : State} (h : exec i s = .next t)
    (hs : Memory.wf s.config.memSize s.mem = true) : Memory.wf t.config.memSize t.mem = true := by
  cases i with
  | call =>
    obtain ⟨u, hu, rfl⟩ := execCall_cases h
    rw [setPC_config, setPC_mem]
    exact push_memory_wf hu hs
  | ret => obtain ⟨w, -, rfl⟩ := execRet_cases h; exact hs
  | drw => obtain ⟨p₁, p₂, f, rfl, -⟩ := execDrw_cases h; exact hs
  | ldB => exact storeBytes_memory_wf (execLdB_cases h) hs
  | storeRegs =>
    obtain ⟨u, hu, rfl⟩ := execStoreRegs_cases h
    rw [setI_config, setI_mem]
    exact storeBytes_memory_wf hu hs
  | loadRegs =>
    obtain ⟨bytes, -, rfl⟩ := execLoadRegs_cases h
    rwa [setI_config, setI_mem, setLowV_config, setLowV_mem]
  | storeRpl => rwa [execStoreRpl_cases h, setLowRpl_config, setLowRpl_mem]
  | loadRpl => rwa [execLoadRpl_cases h, setLowV_config, setLowV_mem]
  | scd | scu | cls | scr | scl => cases h; rw [mapSelected_eq]; exact hs
  | seImm | sneImm | seReg | sneReg | skp | sknp => cases h; rwa [skipIf_config, skipIf_mem]
  | orReg | andReg | xorReg => cases h; rwa [logicResult_config, logicResult_mem]
  | _ => cases h; exact hs

theorem mapSelected_planes_wf {s : State} {f : Plane → Plane}
    (hf : ∀ p, planeWf s.mode p = true → planeWf s.mode (f p) = true)
    (h₁ : planeWf s.mode s.p1 = true) (h₂ : planeWf s.mode s.p2 = true) :
    planeWf (mapSelected s f).mode (mapSelected s f).p1 = true
      ∧ planeWf (mapSelected s f).mode (mapSelected s f).p2 = true := by
  rw [mapSelected_eq]
  constructor
  · dsimp only; split
    · exact hf _ h₁
    · exact h₁
  · dsimp only; split
    · exact hf _ h₂
    · exact h₂

theorem exec_planes_wf {i : Instr} {s t : State} (h : exec i s = .next t)
    (h₁ : planeWf s.mode s.p1 = true) (h₂ : planeWf s.mode s.p2 = true) :
    planeWf t.mode t.p1 = true ∧ planeWf t.mode t.p2 = true := by
  cases i with
  | scd n => cases h; exact mapSelected_planes_wf (planeWf_scrollDown s.mode n) h₁ h₂
  | scu n => cases h; exact mapSelected_planes_wf (planeWf_scrollUp s.mode n) h₁ h₂
  | scr => cases h; exact mapSelected_planes_wf (planeWf_scrollRight s.mode) h₁ h₂
  | scl => cases h; exact mapSelected_planes_wf (planeWf_scrollLeft s.mode) h₁ h₂
  | cls => cases h; exact mapSelected_planes_wf (fun _ _ => planeWf_nil s.mode) h₁ h₂
  | low | high => cases h; exact ⟨planeWf_nil _, planeWf_nil _⟩
  | drw =>
    obtain ⟨p₁, p₂, f, rfl, hwf⟩ := execDrw_cases h
    exact hwf h₁ h₂
  | _ =>
    have hframe := exec_changesOnly h
    have hmode : t.mode = s.mode := hframe .mode (by simp [Instr.writes, lowVParts, lowRplParts])
    have hp1 : t.p1 = s.p1 := hframe .p1 (by simp [Instr.writes, lowVParts, lowRplParts])
    have hp2 : t.p2 = s.p2 := hframe .p2 (by simp [Instr.writes, lowVParts, lowRplParts])
    rw [hmode, hp1, hp2]
    exact ⟨h₁, h₂⟩

theorem exec_wf {i : Instr} {s t : State} (h : exec i s = .next t) (hs : s.wf) : t.wf := by
  obtain ⟨hconfig, hmem, h₁, h₂⟩ := hs
  exact ⟨(exec_config h).symm ▸ hconfig, exec_memory_wf h hmem, exec_planes_wf h h₁ h₂⟩

theorem instructionStep_wf {s t : State} (h : instructionStep s = .next t) (hs : s.wf) : t.wf := by
  rcases instructionStep_cases h with rfl | ⟨i, hi⟩
  · exact hs
  · exact exec_wf hi hs

theorem SameStorage.wf {s t : State} (h : SameStorage s t) (hs : s.wf) : t.wf := by
  obtain ⟨hconfig, hmem, hmode, hp1, hp2⟩ := h
  rwa [State.wf, hconfig, hmem, hmode, hp1, hp2]

/-- Reset keeps memory and the bound on `BIG_FONT_BASE`, and clears both planes. -/
theorem resetSignal_wf (q : Option Quirks) {s : State} (hs : s.wf) : (resetSignal q s).wf := by
  obtain ⟨hconfig, hmem, -⟩ := hs
  exact ⟨hconfig, hmem, planeWf_nil _, planeWf_nil _⟩

theorem storeBytes_wf {s t : State} {a : Int} {bytes : List Byte}
    (h : storeBytes s a bytes = .ok t) (hs : s.wf) : t.wf := by
  obtain ⟨hconfig, hmem, hplanes⟩ := hs
  obtain ⟨m, rfl, -, hwf⟩ := storeBytes_cases h
  exact ⟨hconfig, hwf hmem, hplanes⟩

theorem perform_wf {e : Event} {s t : State} (h : perform e s = .next t) (hs : s.wf) : t.wf := by
  rcases perform_cases h with hstep | hsame | ⟨q, rfl, rfl⟩ | ⟨a, bytes, hload⟩
  · exact instructionStep_wf hstep hs
  · exact hsame.wf hs
  · exact resetSignal_wf q hs
  · exact storeBytes_wf hload hs

/-- The boot configuration is legal: 12 bits are below the smallest capacity. -/
theorem reset_wf : State.reset.wf :=
  ⟨Config.freeFontBase.isLt, reset_memory_wf, planeWf_nil _, planeWf_nil _⟩

end Sys2Proof.Machine

namespace Sys2Proof

open Machine

/-- Settles O51: a step performs one event, and every event keeps each part of the invariant. -/
theorem everyStepKeepsTheInvariant : Obligations.EveryStepKeepsTheInvariant := by
  intro s t hs h
  obtain ⟨e, rest, hstep, -⟩ := step_eq_perform s
  exact perform_wf (hstep.symm.trans h) hs

/-- Settles O52: taking the event off the agenda keeps the configuration, and so does every event
but a reset with new quirks. -/
theorem configurationIsConstant : Obligations.ConfigurationIsConstant := by
  intro s t h
  obtain ⟨e, rest, hstep, hagenda⟩ := step_eq_perform s
  obtain ⟨hsize, hbase, hquirks⟩ := perform_config (hstep.symm.trans h)
  refine ⟨hsize, hbase, fun hne => hquirks ?_⟩
  rintro q rfl
  rcases hagenda with hcons | ⟨-, -, hown⟩
  · exact hne q rest hcons
  · rcases hown with hown | hown <;> cases hown

/-- Settles O50: memory and planes list nothing, and the boot configuration is legal. -/
theorem resetStateIsWellFormed : Obligations.ResetStateIsWellFormed := reset_wf

end Sys2Proof
end

section
/-! PROOFS. Keypad, timers and the free byte (spec/44_keypad_timers_sound.md, spec/41_alu.md section
4): the meanings that move one register, and what the key poll and the tick do in each run state. -/

namespace Sys2Proof.Machine

/-! ## What the meanings answer -/

section

variable (x : Reg) (nn : Byte) (s : State)

theorem exec_rnd : exec (.rnd x nn) s =
    .next ((drawByte s).2.setV x (Config.drawByte s.fresh &&& nn)) := rfl

theorem exec_exit : exec .exit s = .next (s.setRun .stopped) := rfl

theorem exec_ldVxK : exec (.ldVxK x) s = .next ({ s with keyreg := x }.setRun .awaitingKey) := rfl

theorem exec_ldVxDt : exec (.ldVxDt x) s = .next (s.setV x s.dt) := rfl

theorem exec_ldDtVx : exec (.ldDtVx x) s = .next { s with dt := s.getV x } := rfl

theorem exec_ldStVx : exec (.ldStVx x) s = .next { s with st := s.getV x } := rfl

theorem exec_pitch : exec (.pitch x) s = .next { s with pitch := s.getV x } := rfl

end

/-- No bit outside the mask is left. -/
theorem and_and_not_eq_zero (a m : Byte) : a &&& m &&& ~~~m = 0 := by
  rw [BitVec.and_assoc, BitVec.and_not_self]
  exact BitVec.and_zero

/-! ## The events, by run state (R200) -/

section

variable {s : State}

theorem perform_instruction_of_ne (h : s.run ≠ .running) : perform .instruction s = .next s :=
  if_neg h

theorem perform_keyPoll_of_ne (h : s.run ≠ .awaitingKey) : perform .keyPoll s = .next s :=
  if_neg h

theorem perform_keyPoll_of_awaitingKey (h : s.run = .awaitingKey) :
    perform .keyPoll s = .next (keyPollStep s) :=
  if_pos h

theorem perform_tick (s : State) : perform .tick s = .next (tickStep s) := rfl

theorem tickStep_of_alive (h : s.run.alive = true) :
    tickStep s = { s with dt := countDown s.dt, st := countDown s.st } :=
  if_pos h

theorem tickStep_of_not_alive (h : s.run.alive = false) : tickStep s = s :=
  if_neg (ne_true_of_eq_false h)

/-- After the end of a run none of the core's own steps is enabled. -/
theorem perform_of_not_alive {e : Event} (h : s.run.alive = false)
    (he : e ∈ [Event.instruction, .keyPoll, .tick]) : perform e s = .next s := by
  simp only [List.mem_cons, List.not_mem_nil, or_false] at he
  rcases he with rfl | rfl | rfl
  · exact perform_instruction_of_ne fun hrun => by simp [hrun, RunState.alive] at h
  · exact perform_keyPoll_of_ne fun hrun => by simp [hrun, RunState.alive] at h
  · rw [perform_tick, tickStep_of_not_alive h]

theorem toNat_countDown (b : Byte) : (countDown b).toNat = b.toNat - 1 := by
  rw [countDown]
  split
  · next h => rw [h]; rfl
  · next h =>
    have hpos : 0 < b.toNat := Nat.pos_of_ne_zero fun h0 => h (BitVec.eq_of_toNat_eq h0)
    exact BitVec.toNat_sub_of_le hpos

theorem toNat_tickStep_dt (h : s.run.alive = true) : (tickStep s).dt.toNat = s.dt.toNat - 1 := by
  rw [tickStep_of_alive h, toNat_countDown]

theorem toNat_tickStep_st (h : s.run.alive = true) : (tickStep s).st.toNat = s.st.toNat - 1 := by
  rw [tickStep_of_alive h, toNat_countDown]

theorem tickStep_changesOnly (s : State) : ChangesOnly s (tickStep s) [.dt, .st] := by
  rw [tickStep]
  split
  · exact (withDt_changesOnly s (countDown s.dt)).append (withSt_changesOnly _ (countDown s.st))
  · exact ChangesOnly.refl s _

theorem tickStep_agenda (s : State) : (tickStep s).agenda = s.agenda :=
  tickStep_changesOnly s .agenda (by simp)

theorem tickStep_run (s : State) : (tickStep s).run = s.run :=
  tickStep_changesOnly s .run (by simp)

end

/-! ## Ticks in a row (R180) -/

/-- One tick of the agenda while a run is going on. -/
theorem step_tick {s : State} {rest : List Event} (halive : s.run.alive = true)
    (h : s.agenda = .tick :: rest) : ∃ u, step s = .next u ∧ u.run = s.run
      ∧ u.dt.toNat = s.dt.toNat - 1 ∧ u.st.toNat = s.st.toNat - 1 ∧ u.agenda = rest
      ∧ ChangesOnly s u [.dt, .st, .agenda] := by
  have hframe :=
    (withAgenda_changesOnly s rest).append (tickStep_changesOnly { s with agenda := rest })
  exact ⟨_, (step_of_agenda_cons h).trans (perform_tick _), tickStep_run _,
    toNat_tickStep_dt (s := { s with agenda := rest }) halive,
    toNat_tickStep_st (s := { s with agenda := rest }) halive, tickStep_agenda _,
    hframe.mono (by simp)⟩

theorem run_succ_of_step {M : Host.Core} {k : Nat} {s t : M.State} (h : M.step s = .next t) :
    M.run (k + 1) s = M.run k t := by
  rw [Host.Core.run, h]

theorem runsTo_succ {k : Nat} {s t u : State} (h : step s = .next t) (hrun : RunsTo k t u) :
    RunsTo (k + 1) s u :=
  (run_succ_of_step (M := Sys2Proof.core) h).trans hrun

/-- One tick, then `k` more from the state it leaves. -/
theorem ticks_runsTo (k : Nat) (s : State) (rest : List Event) (halive : s.run.alive = true)
    (hagenda : s.agenda = List.replicate k .tick ++ rest) :
    ∃ t, RunsTo k s t ∧ t.dt.toNat = s.dt.toNat - k ∧ t.st.toNat = s.st.toNat - k
      ∧ t.agenda = rest ∧ ChangesOnly s t [.dt, .st, .agenda] := by
  induction k generalizing s with
  | zero => exact ⟨s, rfl, rfl, rfl, hagenda, ChangesOnly.refl s _⟩
  | succ k ih =>
    obtain ⟨u, hstep, hrun, hdt, hst, hrest, hframe⟩ := step_tick halive hagenda
    obtain ⟨t, hruns, hdt', hst', hrest', hframe'⟩ := ih u (hrun ▸ halive) hrest
    exact ⟨t, runsTo_succ hstep hruns, by omega, by omega, hrest', hframe.trans hframe'⟩

end Sys2Proof.Machine

namespace Sys2Proof

open Machine

/-- Settles O19: the result is the draw masked, and the draw is the only use of the free values. -/
theorem randomByteIsMasked : Obligations.RandomByteIsMasked := by
  intro x nn s
  refine ⟨encodedAs_tableRow (Laws.TableRow.rnd x nn) rfl, _, exec_rnd x nn s, getV_setV_same _, ?_,
    rfl, exec_changesOnly (exec_rnd x nn s)⟩
  rw [getV_setV_same, and_and_not_eq_zero]

/-- Settles O41: the target and `RUN` are written, and in AWAITING_KEY the instruction step is not
enabled. -/
theorem keyWaitBegins : Obligations.KeyWaitBegins := by
  intro x s
  exact ⟨encodedAs_tableRow (Laws.TableRow.ldVxK x) rfl, _, exec_ldVxK x s, rfl, rfl, rfl,
    keyWait_changesOnly s x _, perform_instruction_of_ne (by simp)⟩

/-- Settles O42: `keyPollStep_cases` with no key down and with some; the code answered is the one of
a down key, so of the only one. -/
theorem keyPollEndsTheWait : Obligations.KeyPollEndsTheWait := by
  intro s
  refine ⟨perform_keyPoll_of_ne, fun hrun => ⟨fun hagenda => ?_, fun hnone => ?_, fun hsome => ?_⟩⟩
  · rw [perform_keyPoll_of_awaitingKey hrun, step_of_agenda_nil hagenda]
    simp only [ownStep, hrun]
  · rcases keyPollStep_cases s with ⟨-, hstep⟩ | ⟨k, hk, -⟩
    · rw [perform_keyPoll_of_awaitingKey hrun, hstep]
    · exact absurd (hnone k) (ne_false_of_eq_true hk)
  · rcases keyPollStep_cases s with ⟨hnone, -⟩ | ⟨k, hk, hstep⟩
    · obtain ⟨k, hk⟩ := hsome
      exact absurd (hnone k) (ne_false_of_eq_true hk)
    · refine ⟨_, k, (perform_keyPoll_of_awaitingKey hrun).trans (congrArg _ hstep), hk, ?_, rfl, ?_,
        fun only honly => (honly k).1 hk⟩
      · change ((s.setV s.keyreg (BitVec.ofNat 8 k.val)).getV s.keyreg).toNat = k.val
        rw [getV_setV_same, BitVec.toNat_ofNat, Nat.mod_eq_of_lt (by omega)]
      · exact (((setV_changesOnly s s.keyreg _).append (withFresh_changesOnly _ _)).append
          (setRun_changesOnly _ _)).mono (by simp)

/-- Settles O43: each is one move, and the tone is the function of `ST` and `RUN` that `toneOn_iff`
states. -/
theorem timerAndPitchMoves : Obligations.TimerAndPitchMoves := by
  intro x s
  exact ⟨⟨encodedAs_tableRow (Laws.TableRow.ldVxDt x) rfl, _, exec_ldVxDt x s, getV_setV_same _,
      setV_changesOnly s x _⟩,
    ⟨encodedAs_tableRow (Laws.TableRow.ldDtVx x) rfl, _, exec_ldDtVx x s, rfl,
      withDt_changesOnly s _⟩,
    ⟨encodedAs_tableRow (Laws.TableRow.ldStVx x) rfl, _, exec_ldStVx x s, rfl, toneOn_iff _,
      withSt_changesOnly s _⟩,
    encodedAs_tableRow (Laws.TableRow.pitch x) rfl, _, exec_pitch x s, rfl, rfl,
      withPitch_changesOnly s _⟩

/-- Settles O44: a tick counts both timers down while a run is going on, and is the identity after
it. -/
theorem tickCountsBothTimersDown : Obligations.TickCountsBothTimersDown := by
  intro s
  refine ⟨fun hgoing => ?_, fun hended => ?_⟩
  · have halive : s.run.alive = true := (RunState.alive_iff _).2 hgoing
    exact ⟨_, perform_tick s, toNat_tickStep_dt halive, toNat_tickStep_st halive,
      tickStep_changesOnly s⟩
  · rw [perform_tick, tickStep_of_not_alive ((RunState.alive_eq_false_iff _).2 hended)]

/-- Settles O45: the induction on the number of ticks is `ticks_runsTo`. -/
theorem ticksInARowReachZero : Obligations.TicksInARowReachZero :=
  fun k s rest hgoing => ticks_runsTo k s rest ((RunState.alive_iff _).2 hgoing)

end Sys2Proof
end

section
/-! PROOFS. The end of a run and the host (spec/60_exceptions.md sections 5, 8 and 11,
spec/70_reset_and_hazards.md sections 1 and 2): EXIT, what is left after it, the host's load and key
levels, and the reset that begins again. -/

namespace Sys2Proof.Machine

/-! ## The host's load (R204, R223) -/

theorem hostLoad_of_alive {s : State} (a : Nat) (bytes : List Byte) (h : s.run.alive = true) :
    hostLoad a bytes s = .refused .hostWriteDuringRun :=
  if_pos h

theorem hostLoad_of_storeBytes {s t : State} {a : Nat} {bytes : List Byte}
    (halive : s.run.alive = false) (h : storeBytes s a bytes = .ok t) :
    hostLoad a bytes s = .next t := by
  simp only [hostLoad, halive, h, Bool.false_eq_true, if_false]

theorem hostLoad_of_storeBytes_error {s : State} {a : Nat} {bytes : List Byte} {f : Fault}
    (halive : s.run.alive = false) (h : storeBytes s a bytes = .error f) :
    hostLoad a bytes s = .refused .loadBeyondMemory := by
  simp only [hostLoad, halive, h, Bool.false_eq_true, if_false]

/-- After a run every event but reset leaves all but the key inputs and memory. -/
theorem perform_changesOnly_of_not_alive {e : Event} {s t : State} (halive : s.run.alive = false)
    (he : ∀ q, e ≠ .reset q) (h : perform e s = .next t) : ChangesOnly s t [.keys, .mem] := by
  cases e with
  | instruction | keyPoll | tick =>
    rw [perform_of_not_alive halive (by simp)] at h
    cases h
    exact ChangesOnly.refl s _
  | keyLevel k down =>
    cases h
    exact (withKeys_changesOnly s _).mono (by simp)
  | kill =>
    rw [perform_kill, killSignal_of_not_alive halive] at h
    cases h
    exact ChangesOnly.refl s _
  | reset q => exact absurd rfl (he q)
  | load a bytes => exact (storeBytes_changesOnly (hostLoad_cases h).2).1.mono (by simp)

/-! ## Reset twice (R221) -/

theorem resetSignal_resetSignal (q : Option Quirks) (s : State) :
    resetSignal q (resetSignal q s) = resetSignal q s := by
  cases q <;> rfl

theorem resetSignal_none_resetSignal (q : Option Quirks) (s : State) :
    resetSignal none (resetSignal q s) = resetSignal q s := rfl

end Sys2Proof.Machine

namespace Sys2Proof

open Machine

/-- Settles O25: EXIT is `setRun .stopped`, as the kill signal is in RUNNING, and nothing is enabled
afterwards. -/
theorem exitStopsTheRun : Obligations.ExitStopsTheRun := by
  intro s
  refine ⟨encodedAs_tableRow Laws.TableRow.exit rfl, fun hrun => ?_, _, exec_exit s, setRun_run s _,
    setRun_changesOnly s _, toneOn_eq_false_of_not_alive rfl, rfl, fun e he => ?_⟩
  · rw [exec_exit, perform_kill, killSignal_of_alive ((RunState.alive_iff _).2 (.inl hrun))]
  · exact perform_of_not_alive rfl he

/-- Settles O48: no step of the core is enabled, kill does not act, and the key and load events
write keys and memory alone. -/
theorem onlyResetLeavesStoppedAndFatal : Obligations.OnlyResetLeavesStoppedAndFatal := by
  intro s hended
  have halive : s.run.alive = false := (RunState.alive_eq_false_iff _).2 hended
  refine ⟨fun hagenda => ?_, fun e t he h => ?_, fun q => ⟨_, perform_reset q s, rfl⟩⟩
  · rw [step_of_agenda_nil hagenda]
    rcases hended with hrun | hrun <;> simp only [ownStep, hrun]
  · have hframe := perform_changesOnly_of_not_alive halive he h
    exact ⟨hframe .run (by simp), hframe⟩

/-- Settles O49: the run state decides first; after a run the load is the block of writes. -/
theorem hostLoadsOnlyBetweenRuns : Obligations.HostLoadsOnlyBetweenRuns := by
  intro s a bytes
  refine ⟨fun hgoing => hostLoad_of_alive a bytes ((RunState.alive_iff _).2 hgoing),
    fun hended => ?_⟩
  have halive : s.run.alive = false := (RunState.alive_eq_false_iff _).2 hended
  refine ⟨fun hfit => ?_, fun hne hout => ?_⟩
  · obtain ⟨m, hm, -⟩ := storeBytes_ok s a bytes hfit
    obtain ⟨hparts, hmem⟩ := storeBytes_changesOnly hm
    exact ⟨_, hostLoad_of_storeBytes halive hm, fun k hk => loadByte_storeBytes hm hk, hmem, hparts⟩
  · exact hostLoad_of_storeBytes_error halive (storeBytes_error s a bytes hne hout)

/-- Settles O58: one entry of the key inputs is set; as a step, after the event is taken off the
agenda. -/
theorem keyLevelEventSetsOneKey : Obligations.KeyLevelEventSetsOneKey := by
  intro s k down
  have hset : (s.keys.set k down)[k] = down := by simp
  have hother (j : Reg) (hj : j ≠ k) : (s.keys.set k down)[j] = s.keys[j] := by
    have hne : k.val ≠ j.val := fun h => hj (Fin.ext h.symm)
    exact Vector.getElem_set_ne _ _ hne
  refine ⟨⟨_, rfl, hset, hother, withKeys_changesOnly s _⟩, fun rest hagenda => ?_⟩
  refine ⟨_, (step_of_agenda_cons hagenda).trans rfl, hset, hother, rfl, ?_⟩
  exact (withKeys_changesOnly s _).append (withAgenda_changesOnly _ rest)

/-- Settles O1: the registers by definition, the register files as replicated zeros, the planes as
empty lists. -/
theorem resetStateHoldsTheConstants : Obligations.ResetStateHoldsTheConstants := by
  have hfiles (r : Reg) : State.reset.getV r = 0 ∧ State.reset.rpl[r] = 0 :=
    ⟨Vector.getElem_replicate r.isLt, Vector.getElem_replicate r.isLt⟩
  have hblank (id : PlaneId) (px py : Nat) : planeGet (State.reset.getPlane id) px py = false := by
    cases id <;> rfl
  exact ⟨rfl, rfl, hfiles, rfl, rfl, rfl, rfl, rfl, rfl, hblank, rfl⟩

/-- Settles O3: the second reset meets the constants that the first one wrote, and the signal reads
nothing but the parts that the two states agree on. -/
theorem resetIsIdempotentAndForgets : Obligations.ResetIsIdempotentAndForgets := by
  refine ⟨fun s q => ⟨resetSignal q s, perform_reset q s, ?_, ?_⟩, ?_⟩
  · rw [perform_reset, resetSignal_resetSignal]
  · rw [perform_reset, resetSignal_none_resetSignal]
  · intro s s' q hmem hconfig hkeys hfresh hagenda
    simp only [perform_reset, resetSignal, hmem, hconfig, hkeys, hfresh, hagenda]

end Sys2Proof
end
